-- ==== Sys2Proof/Word.lean ====
section
/-! DEFINITION. The word types of CRSF-CORE (spec/00_scope.md R12: every value is unsigned, of a stated width). -/

namespace Sys2Proof

/-- A byte, 8 bits: frame bytes, opcodes, operands, `CRC`, `DLEN`, `FLEN` (R12). -/
abbrev Byte := BitVec 8

/-- A 16-bit value: the operand of `CH_WRITE`, `SKIPPED`, the two-byte response fields (R12, R47). -/
abbrev Half := BitVec 16

/-- A channel value, 11 bits (R22). -/
abbrev Chan := BitVec 11

end Sys2Proof
end

