-- ==== Sys2Proof/Syntax.lean ====
section
/-! DEFINITION. The commands of CRSF-CORE, one constructor per row of spec/opcode_table.json (spec/30_encoding.md R71).
Operands are those of R73 and R75: the count byte of formats V, S and X is the length of the data sequence. -/

namespace Sys2Proof

/-- A command (30_encoding.md R70, R71). -/
inductive Instr where
  /-- `NOP` (44_system.md R140) -/
  | nop
  /-- `RESET` (44_system.md R141) -/
  | reset
  /-- `STATUS_READ` (44_system.md R142) -/
  | statusRead
  /-- `CLR_FLAGS` (44_system.md R143) -/
  | clrFlags
  /-- `CRC_RESET` (40_crc.md R83) -/
  | crcReset
  /-- `CRC_UPDATE [d]` (40_crc.md R84) -/
  | crcUpdate (d : List Byte)
  /-- `CRC_READ` (40_crc.md R85) -/
  | crcRead
  /-- `CH_WRITE idx, v` (41_channel_codec.md R93) -/
  | chWrite (idx : Byte) (v : Half)
  /-- `CH_READ idx` (41_channel_codec.md R94) -/
  | chRead (idx : Byte)
  /-- `PACK wlen` (41_channel_codec.md R95) -/
  | pack (wlen : Byte)
  /-- `UNPACK [d]` (41_channel_codec.md R96) -/
  | unpack (d : List Byte)
  /-- `BUILD_SIMPLE sync, type, [d]` (42_frame_build.md R102) -/
  | buildSimple (sync ty : Byte) (d : List Byte)
  /-- `BUILD_EXT sync, type, dst, src, [d]` (42_frame_build.md R103) -/
  | buildExt (sync ty dst src : Byte) (d : List Byte)
  /-- `BUILD_CH sync` (42_frame_build.md R104) -/
  | buildCh (sync : Byte)
  /-- `FB_READ off` (42_frame_build.md R105) -/
  | fbRead (off : Byte)
  /-- `PUSH [d]` (43_parser.md R114) -/
  | push (d : List Byte)
  /-- `NEXT` (43_parser.md R115) -/
  | next
  deriving DecidableEq, Repr

end Sys2Proof
end

