-- ==== Sys2Proof/WellFormed.lean ====
section
/-! DEFINITION. Which commands the byte encoding can carry (spec/30_encoding.md R70, R73). -/

namespace Sys2Proof

/-- A data sequence that a count byte can announce: at most 255 bytes (30_encoding.md R70: "0 <= n <= 255"). -/
abbrev fitsCount (d : List Byte) : Bool := decide (d.length ≤ 255)

/-- A command the encoding admits: the data sequence of formats V, S and X has at most 255 bytes. Every operand value of the
other formats is a command, an index or offset out of range included, which the command itself answers (R73, R157). -/
def Instr.wf : Instr → Bool
  | .nop => true
  | .reset => true
  | .statusRead => true
  | .clrFlags => true
  | .crcReset => true
  | .crcUpdate d => fitsCount d
  | .crcRead => true
  | .chWrite _ _ => true
  | .chRead _ => true
  | .pack _ => true
  | .unpack d => fitsCount d
  | .buildSimple _ _ d => fitsCount d
  | .buildExt _ _ _ _ d => fitsCount d
  | .buildCh _ => true
  | .fbRead _ => true
  | .push d => fitsCount d
  | .next => true

end Sys2Proof
end

