-- ==== Sys2Proof/Decode.lean ====
section
/-! DEFINITION. Decoding the command byte stream, and the encoder (spec/30_encoding.md R70 to R73). -/

namespace Sys2Proof

/-- What stands at the front of a command byte stream. -/
inductive Decoded where
  /-- no byte has been issued -/
  | idle
  /-- the bytes end before the operands that the opcode and the count byte call for (R72; 93 U8: "need more bytes") -/
  | needMoreBytes
  /-- a reserved opcode: a command of one byte with no operands (R72) -/
  | reserved (op : Byte) (rest : List Byte)
  /-- a command and the bytes after it -/
  | command (i : Instr) (rest : List Byte)
  deriving DecidableEq, Repr

/-- The 16-bit operand of two bytes, low byte first: `v = lo | (hi << 8)` (R47, R73). -/
def half (lo hi : Byte) : Half := hi ++ lo

/-- `v[7:0]` (R13). -/
def loByte (v : Half) : Byte := v.extractLsb' 0 8

/-- `v[15:8]` (R13). -/
def hiByte (v : Half) : Byte := v.extractLsb' 8 8

/-- A 16-bit field as two bytes, low byte first (R47). -/
def bytesOfHalf (v : Half) : List Byte := [loByte v, hiByte v]

/-- The first `n` bytes and the rest, if there are that many. -/
def takeBytes : Nat → List Byte → Option (List Byte × List Byte)
  | 0, bs => some ([], bs)
  | _ + 1, [] => none
  | n + 1, b :: bs =>
    match takeBytes n bs with
    | some (d, rest) => some (b :: d, rest)
    | none => none

/-- A count byte and the data bytes it announces, first byte first (R70, R73). -/
def takeCounted : List Byte → Option (List Byte × List Byte)
  | [] => none
  | n :: bs => takeBytes n.toNat bs

/-- Format Z: no operand (R70). -/
def decodeZ (i : Instr) (bs : List Byte) : Decoded := .command i bs

/-- Format I: one operand byte (R70). -/
def decodeI (mk : Byte → Instr) : List Byte → Decoded
  | a :: rest => .command (mk a) rest
  | _ => .needMoreBytes

/-- Format W: index, low byte, high byte (R70). -/
def decodeW (mk : Byte → Half → Instr) : List Byte → Decoded
  | idx :: lo :: hi :: rest => .command (mk idx (half lo hi)) rest
  | _ => .needMoreBytes

/-- Format V: count and data (R70). -/
def decodeV (mk : List Byte → Instr) (bs : List Byte) : Decoded :=
  match takeCounted bs with
  | some (d, rest) => .command (mk d) rest
  | none => .needMoreBytes

/-- Format S: sync, type, count and data (R70). -/
def decodeS (mk : Byte → Byte → List Byte → Instr) : List Byte → Decoded
  | sync :: ty :: bs =>
    match takeCounted bs with
    | some (d, rest) => .command (mk sync ty d) rest
    | none => .needMoreBytes
  | _ => .needMoreBytes

/-- Format X: sync, type, destination, source, count and data (R70). -/
def decodeX (mk : Byte → Byte → Byte → Byte → List Byte → Instr) : List Byte → Decoded
  | sync :: ty :: dst :: src :: bs =>
    match takeCounted bs with
    | some (d, rest) => .command (mk sync ty dst src d) rest
    | none => .needMoreBytes
  | _ => .needMoreBytes

/-- The opcode map (R71), all eight bits decoded; every other value is reserved (R72). -/
def decodeOp (op : Byte) (bs : List Byte) : Decoded :=
  match op.toNat with
  | 0x00 => decodeZ .nop bs
  | 0x01 => decodeZ .reset bs
  | 0x02 => decodeZ .statusRead bs
  | 0x03 => decodeZ .clrFlags bs
  | 0x10 => decodeZ .crcReset bs
  | 0x11 => decodeV .crcUpdate bs
  | 0x12 => decodeZ .crcRead bs
  | 0x20 => decodeW .chWrite bs
  | 0x21 => decodeI .chRead bs
  | 0x22 => decodeI .pack bs
  | 0x23 => decodeV .unpack bs
  | 0x30 => decodeS .buildSimple bs
  | 0x31 => decodeX .buildExt bs
  | 0x32 => decodeI .buildCh bs
  | 0x33 => decodeI .fbRead bs
  | 0x40 => decodeV .push bs
  | 0x41 => decodeZ .next bs
  | _ => .reserved op bs

/-- The command at the front of a byte stream (R70: "A command's length is known from its opcode and, in formats V, S and X,
from its count byte"). -/
def decode : List Byte → Decoded
  | [] => .idle
  | op :: bs => decodeOp op bs

/-- The opcode byte of a command (R71). -/
def opcodeOf : Instr → Byte
  | .nop => 0x00
  | .reset => 0x01
  | .statusRead => 0x02
  | .clrFlags => 0x03
  | .crcReset => 0x10
  | .crcUpdate _ => 0x11
  | .crcRead => 0x12
  | .chWrite _ _ => 0x20
  | .chRead _ => 0x21
  | .pack _ => 0x22
  | .unpack _ => 0x23
  | .buildSimple _ _ _ => 0x30
  | .buildExt _ _ _ _ _ => 0x31
  | .buildCh _ => 0x32
  | .fbRead _ => 0x33
  | .push _ => 0x40
  | .next => 0x41

/-- The count byte and the data bytes of formats V, S and X (R70). -/
def encodeCounted (d : List Byte) : List Byte := BitVec.ofNat 8 d.length :: d

/-- The operand bytes of a command (R70, R73). -/
def encodeOperands : Instr → List Byte
  | .nop => []
  | .reset => []
  | .statusRead => []
  | .clrFlags => []
  | .crcReset => []
  | .crcUpdate d => encodeCounted d
  | .crcRead => []
  | .chWrite idx v => idx :: bytesOfHalf v
  | .chRead idx => [idx]
  | .pack wlen => [wlen]
  | .unpack d => encodeCounted d
  | .buildSimple sync ty d => [sync, ty] ++ encodeCounted d
  | .buildExt sync ty dst src d => [sync, ty, dst, src] ++ encodeCounted d
  | .buildCh sync => [sync]
  | .fbRead off => [off]
  | .push d => encodeCounted d
  | .next => []

/-- The bytes of a command (R70, R71). -/
def encode (i : Instr) : List Byte := opcodeOf i :: encodeOperands i

/-- The number of bytes of the longest command: format X with 255 data bytes (R70). -/
abbrev maxCommandBytes : Nat := 261

/-- `k` bytes of a number, the least significant first. -/
def bytesOfNat : Nat → Nat → List Byte
  | 0, _ => []
  | k + 1, w => BitVec.ofNat 8 w :: bytesOfNat k (w / 256)

/-- The bytes of an instruction whose low `nbits` bits are `w` and whose other bits, up to the longest command, are 0. The first
byte is bits 7..0. -/
def wordBytes (nbits w : Nat) : List Byte := bytesOfNat maxCommandBytes (w % 2 ^ nbits)

/-- The instruction the decoder reads from an instruction whose bits are `w` (the host's numbering: bit 0 is the least
significant bit of the first byte). -/
def decodeTableWord (nbits w : Nat) : Option Instr :=
  match decode (wordBytes nbits w) with
  | .command i _ => some i
  | _ => none

end Sys2Proof
end

