-- ==== Sys2Proof/Config.lean ====
section
/-! DEFINITION. The implementation parameters of CRSF-CORE (spec/00_scope.md R10, R11; spec/30_encoding.md R66). -/

namespace Sys2Proof

/-- The two frame layouts (30_encoding.md R61, R62). -/
inductive Kind where
  | simple
  | extended
  deriving DecidableEq, Repr

/-- One row of `TYPE_TABLE`: a known type tag, its framing kind and its fixed payload length `LEN` (30_encoding.md R66).
`LEN` is a byte because the `need` field that reports it is one byte (R74): DEDUCED, log 19. -/
structure TypeRow where
  tag : Byte
  kind : Kind
  len : Byte
  deriving DecidableEq, Repr

/-- `NCH`, number of channels (R10; fixed). -/
abbrev Config.nch : Nat := 16
/-- `CH_BITS`, bits per channel (R10; fixed). -/
abbrev Config.chBits : Nat := 11
/-- `RC_LEN`, packed-channels payload length in bytes (R10; fixed). -/
abbrev Config.rcLen : Nat := 22
/-- `OVH_SIMPLE`, length-field overhead of simple framing (R10; fixed). -/
abbrev Config.ovhSimple : Nat := 2
/-- `OVH_EXT`, length-field overhead of extended framing (R10; fixed). -/
abbrev Config.ovhExt : Nat := 4
/-- `MIN_LEN`, smallest legal value of the length byte (R10, R63; fixed). -/
abbrev Config.minLen : Nat := 2

/-- The default tag of the device-info payload (R66: from general knowledge, not in source). PRESUMED, log 2. -/
abbrev Config.tagDeviceInfo : Byte := 0x29

/-- The free parameters of R10, as plain data. `CMD_PORT_MAP`, which no rule uses, is left out (log 15). -/
structure Params where
  /-- `SYNC` -/
  sync : Byte
  /-- `CRC_POLY` -/
  crcPoly : Byte
  /-- `CRC_INIT` -/
  crcInit : Byte
  /-- `CRC_REFIN`: the rules of 40_crc.md are written for false only -/
  crcRefin : Bool
  /-- `CRC_REFOUT`: the rules of 40_crc.md are written for false only -/
  crcRefout : Bool
  /-- `CRC_XOROUT`: the rules of 40_crc.md are written for 0 only -/
  crcXorout : Byte
  /-- `MAX_FRAME`: capacity of the frame buffer and largest total frame the parser accepts -/
  maxFrame : Nat
  /-- `RING_N`: capacity of the parser's ring buffer -/
  ringN : Nat
  /-- `TYPE_TABLE` -/
  typeTable : List TypeRow
  /-- `TYPE_RC`: the tag of the packed-channels payload -/
  typeRC : Byte
  /-- `LEN_DEVICE_INFO`: the `LEN` entry of the device-info row of `TYPE_TABLE` -/
  lenDeviceInfo : Byte
  /-- Which row of `TYPE_TABLE` is the device-info row, by its tag; `none` for a table without one, since R10 asks only for the
  row of `TYPE_RC`. The rows carry no names, so the record says it: DEDUCED, log 18 -/
  deviceInfoTag : Option Byte
  deriving DecidableEq, Repr

/-- The entry of a tag in `TYPE_TABLE`, if the tag is known (R66: "a finite map from tag to (kind, LEN)"). -/
def lookupType : List TypeRow → Byte → Option TypeRow
  | [], _ => none
  | r :: rs, ty => if r.tag = ty then some r else lookupType rs ty

/-- `MAX_LEN = MAX_FRAME - 2`, largest legal value of the length byte (R10, R63). -/
abbrev Params.maxLen (p : Params) : Nat := p.maxFrame - 2

/-- `LEN_DEVICE_INFO` is the `LEN` of the device-info row, which is a row of `TYPE_TABLE` other than that of `TYPE_RC` (R10, R66). -/
def Params.deviceInfoAgrees (p : Params) : Bool :=
  match p.deviceInfoTag with
  | none => true
  | some t => decide (t ≠ p.typeRC) && decide ((lookupType p.typeTable t).map TypeRow.len = some p.lenDeviceInfo)

/-- The constraints of R10 and R11: `26 ≤ MAX_FRAME ≤ 255`, `MAX_FRAME ≤ RING_N ≤ 65535`, tags distinct, `TYPE_RC` an entry
`(simple, 22)`, no reflection and no final exclusive-or, `LEN_DEVICE_INFO` at most `MAX_LEN - OVH_EXT` and the entry of its row. -/
def Params.isLegal (p : Params) : Bool :=
  decide (26 ≤ p.maxFrame) && decide (p.maxFrame ≤ 255) &&
  decide (p.maxFrame ≤ p.ringN) && decide (p.ringN ≤ 65535) &&
  decide ((p.typeTable.map TypeRow.tag).Nodup) &&
  decide (lookupType p.typeTable p.typeRC = some ⟨p.typeRC, .simple, 22⟩) &&
  !p.crcRefin && !p.crcRefout && decide (p.crcXorout = 0) &&
  decide (p.lenDeviceInfo.toNat + Config.ovhExt ≤ p.maxLen) && p.deviceInfoAgrees

/-- A legal parameter set: a block instantiated outside the constraints of R10 is outside the spec (R182; 93 U11: "a model's
configuration type carries the constraints as proofs"). -/
structure Config extends Params where
  legal : toParams.isLegal = true
  deriving DecidableEq, Repr

/-- The default `TYPE_TABLE` of R66: link-statistics, packed-RC-channels, device-ping, device-info, parameter-read. Tags and
lengths other than the 22 of the packed channels are from general knowledge: PRESUMED, log 2. -/
def Config.defaultTypeTable (lenDeviceInfo : Byte) : List TypeRow :=
  [⟨0x14, .simple, 10⟩, ⟨0x16, .simple, 22⟩, ⟨0x28, .extended, 0⟩, ⟨Config.tagDeviceInfo, .extended, lenDeviceInfo⟩,
    ⟨0x2C, .extended, 2⟩]

/-- The defaults of R10 with a given `RING_N` and `LEN_DEVICE_INFO`, the two parameters R10 leaves open. PRESUMED, log 2. -/
def Params.defaults (ringN : Nat) (lenDeviceInfo : Byte) : Params where
  sync := 0xC8
  crcPoly := 0xD5
  crcInit := 0x00
  crcRefin := false
  crcRefout := false
  crcXorout := 0x00
  maxFrame := 64
  ringN := ringN
  typeTable := Config.defaultTypeTable lenDeviceInfo
  typeRC := 0x16
  lenDeviceInfo := lenDeviceInfo
  deviceInfoTag := some Config.tagDeviceInfo

/-- The configuration of `State.reset`: the defaults with the suggested `RING_N = 128` and `LEN_DEVICE_INFO = 0` (R10).
DESIGN CHOICE for the two open parameters, log 3. -/
def Config.default : Config where
  toParams := Params.defaults 128 0
  legal := by decide

end Sys2Proof
end

