-- ==== Sys2Proof/Machine/State.lean ====
section
/-! DEFINITION. The state of one CRSF-CORE instance, its responses, and its reset (spec/10_state.md R20 to R33;
spec/30_encoding.md R74). -/

namespace Sys2Proof.Machine

/-- A byte memory: (address, byte) pairs, addresses strictly rising, no entry equal to what an unlisted address reads as. -/
abbrev Memory := List Host.Cell

/-- `PHASE`, the synchronizer state (10_state.md R25). -/
inductive Phase where
  /-- the byte at the head of the ring has not been examined -/
  | seek
  /-- `rb(0) = SYNC`, `rb(1)` has not been examined -/
  | waitLen
  /-- `rb(0) = SYNC`, `rb(1)` has been examined and is latched in `DLEN` -/
  | waitPayload
  deriving DecidableEq, Repr

/-- The result codes of 30_encoding.md R74 and 60_exceptions.md R151. -/
inductive ResultCode where
  | ok
  | noFrame
  | frameChannels
  | frameRaw
  | bufferTooSmall
  | invalidLength
  | checksumMismatch
  | unknownPacketType
  /-- reserved for the external payload decoders, never issued by the block (R156) -/
  | malformedPayload
  | bufferOverflow
  | illegalCommand
  deriving DecidableEq, Repr

/-- A response with its data fields (30_encoding.md R74). The byte sequence is `Response.toBytes`. -/
inductive Response where
  /-- `OK` with no data -/
  | ok
  /-- `OK` of `STATUS_READ`: the seven status bytes (10_state.md R28) -/
  | okStatus (status : List Byte)
  /-- `OK` of `CRC_READ` -/
  | okCrc (crc : Byte)
  /-- `OK` of `CH_READ`: `zext_16(CH[a])` -/
  | okValue (value : Half)
  /-- `OK` of `PACK`: the 22 payload bytes -/
  | okPacked (p : List Byte)
  /-- `OK` of a `BUILD` command: the new `FLEN` -/
  | okFlen (flen : Byte)
  /-- `OK` of `FB_READ` -/
  | okByte (byte : Byte)
  /-- `NONE` of `NEXT` -/
  | noFrame (skipped : Half)
  /-- `FRAME_CHANNELS` of `NEXT` -/
  | frameChannels (skipped : Half) (ty kind poff plen : Byte)
  /-- `FRAME_RAW` of `NEXT` -/
  | frameRaw (skipped : Half) (ty kind poff plen : Byte)
  /-- `BufferTooSmall` of `PACK`, `UNPACK` and the `BUILD` commands: no data -/
  | bufferTooSmall
  /-- `BufferTooSmall` of `NEXT` -/
  | frameTooShort (skipped : Half) (ty need have' : Byte)
  /-- `InvalidLength` of `NEXT` -/
  | invalidLength (skipped : Half) (len : Byte)
  /-- `ChecksumMismatch` of `NEXT` -/
  | checksumMismatch (skipped : Half) (computed received : Byte)
  /-- `UnknownPacketType` of `NEXT` -/
  | unknownPacketType (skipped : Half) (ty : Byte)
  /-- `BufferOverflow` of `PUSH` -/
  | bufferOverflow (dropped : Half)
  /-- `IllegalCommand` -/
  | illegalCommand (op : Byte)
  deriving DecidableEq, Repr

/-- Why the model stops. The spec has no stop: every command is answered (60_exceptions.md R150). Both constructors stand for
states that no run reaches. -/
inductive Fault where
  /-- Raised by `NEXT` when an accepted candidate does not lie within the bounds of `MemRead` and `MemWrite` (20_memory.md R42,
  R43), which needs `PHASE = WAIT_PAYLOAD` with a `DLEN` that 10_state.md R32 (I3) rules out. Safe: log 11. -/
  | candidateOutOfBounds
  /-- Raised when the loop of `NEXT` runs past its bound of `COUNT + 3` turns (43_parser.md R130); no state raises it. Safe:
  log 12. -/
  | turnBoundExceeded
  deriving DecidableEq, Repr

/-- Why the model gives no meaning. -/
inductive Refusal where
  /-- Raised by `exec` for an instruction that has no meaning yet; no arm raises it. Safe. -/
  | notModelled (mnemonic : String)
  /-- Raised by `step` for a command byte sequence that ends before its operands: "not a command at all: the model has no step
  for it" (30_encoding.md R72; 93 U8). Safe: log 10. -/
  | needMoreBytes
  deriving DecidableEq, Repr

/-- One instance of CRSF-CORE: the eleven elements of 10_state.md R20, and three fields of the model's own (`cfg`, `cmds`,
`resp`; logs 1, 7, 8). -/
structure State where
  /-- The parameters, fixed at instantiation (00_scope.md R10). The model's own field, log 1. -/
  cfg : Config
  /-- `CRC`, the checksum accumulator (R21) -/
  crc : Byte
  /-- `CH[0..15]`, the channel registers (R22) -/
  ch : Vector Chan 16
  /-- `FB[0..MAX_FRAME-1]`, the frame buffer (R23) -/
  fb : Memory
  /-- `FLEN`, logical length of the frame in `FB` (R23) -/
  flen : Byte
  /-- `RB[0..RING_N-1]`, the ring buffer (R24) -/
  rb : Memory
  /-- `HEAD`, index in `RB` of the oldest pending byte (R24); log 13 -/
  head : Nat
  /-- `COUNT`, number of pending bytes (R24); log 13 -/
  count : Nat
  /-- `PHASE` (R25) -/
  phase : Phase
  /-- `DLEN`, declared length of the candidate (R25) -/
  dlen : Byte
  /-- `OVF`, the sticky overflow flag (R26) -/
  ovf : Bool
  /-- `SKIPPED`, noise bytes discarded by the most recent `NEXT` (R27) -/
  skipped : Half
  /-- The command bytes the host has issued and the block has not consumed. The model's own field, log 7. -/
  cmds : List Byte
  /-- The response of the most recent command. The model's own field, log 8. -/
  resp : Option Response
  deriving DecidableEq, Repr

/-- What a step answers. -/
abbrev Result := Host.Outcome State Fault Refusal

/-- One turn of the loop of `NEXT`: the command ends, or the loop goes on from a state (43_parser.md R115). -/
inductive Turn where
  | done (r : Result)
  | again (s : State)

/-- An instance with given parameters in the reset state of 10_state.md R33. The cells of `RB` are unspecified and unobservable
there; the model lists none (log 6). -/
def State.resetWith (cfg : Config) : State where
  cfg := cfg
  crc := cfg.crcInit
  ch := Vector.replicate 16 0
  fb := []
  flen := 0
  rb := []
  head := 0
  count := 0
  phase := .seek
  dlen := 0
  ovf := false
  skipped := 0
  cmds := []
  resp := none

/-- The machine right after power-on (70_reset_and_hazards.md R180), with the default parameters (logs 2, 3). -/
def State.reset : State := State.resetWith Config.default

end Sys2Proof.Machine
end

