-- ==== Sys2Proof/Machine/Ops.lean ====
section
/-! DEFINITION. The named operations over memories, the ring and responses (spec/00_scope.md R14 to R16; spec/20_memory.md R42,
R43; spec/60_exceptions.md R161). -/

namespace Sys2Proof.Machine

/-- What an address that a memory does not list reads as. For `FB` it is the reset value (10_state.md R33); for `RB` it is a
DESIGN CHOICE that no command observes, log 6. -/
def unlistedByte : Byte := 0

/-- A memory whose every cell holds `unlistedByte`: `FB` after a zero fill (42_frame_build.md R100 step 1). -/
def Memory.zero : Memory := []

/-- The byte at an address. -/
def Memory.read : Memory → Nat → Byte
  | [], _ => unlistedByte
  | (a, b) :: m, k => if a = k then b else Memory.read m k

/-- The memory with one byte replaced, in canonical form. -/
def Memory.write : Memory → Nat → Byte → Memory
  | [], k, v => if v = unlistedByte then [] else [(k, v)]
  | (a, b) :: m, k, v =>
    if k < a then (if v = unlistedByte then (a, b) :: m else (k, v) :: (a, b) :: m)
    else if k = a then (if v = unlistedByte then m else (k, v) :: m)
    else (a, b) :: Memory.write m k v

/-- The canonical form: addresses strictly rising, no entry equal to what an unlisted address reads as. -/
def Memory.wf : Memory → Bool
  | [] => true
  | (a, b) :: m => decide (b ≠ unlistedByte) && m.all (fun c => decide (a < c.1)) && Memory.wf m

/-- Every listed address is below `n`: the memory has no cell outside its space (20_memory.md R40). -/
def Memory.within (m : Memory) (n : Nat) : Bool := m.all fun c => decide (c.1 < n)

/-- `MemRead(FB, k, n)`: bytes in increasing offset (20_memory.md R42). -/
def Memory.readBytes (m : Memory) (k : Nat) : Nat → List Byte
  | 0 => []
  | n + 1 => Memory.read m k :: Memory.readBytes m (k + 1) n

/-- `MemWrite(FB, k, n, v)`: the bytes of `v` at increasing offsets (20_memory.md R43). -/
def Memory.writeBytes : Memory → Nat → List Byte → Memory
  | m, _, [] => m
  | m, k, b :: bs => Memory.writeBytes (Memory.write m k b) (k + 1) bs

/-- The cell of `RB` that holds the `k`-th oldest pending byte: `(HEAD + k) mod RING_N` (00_scope.md R15). -/
def ringIndex (s : State) (k : Nat) : Nat := (s.head + k) % s.cfg.ringN

/-- `rb(k)`, the `k`-th oldest pending byte (00_scope.md R15). -/
def ringByte (s : State) (k : Nat) : Byte := Memory.read s.rb (ringIndex s k)

/-- `MemRead(RB, k, n)`: `rb(k), ..., rb(k+n-1)` (20_memory.md R42). -/
def ringRead (s : State) (k n : Nat) : List Byte := (List.range n).map fun j => ringByte s (k + j)

/-- `drop(k)`: `HEAD <- (HEAD + k) mod N; COUNT <- COUNT - k` (00_scope.md R15). -/
def dropBytes (k : Nat) (s : State) : State := { s with head := ringIndex s k, count := s.count - k }

/-- `append(b)`: the byte at the write cursor, `COUNT <- COUNT + 1` (00_scope.md R15). -/
def appendByte (b : Byte) (s : State) : State :=
  { s with rb := Memory.write s.rb (ringIndex s s.count) b, count := s.count + 1 }

/-- `resync()`: `PHASE <- SEEK; DLEN <- 0` (43_parser.md R113). -/
def resync (s : State) : State := { s with phase := .seek, dlen := 0 }

/-- `respond X`: the command ends with a response (00_scope.md R16). -/
def respond (r : Response) (s : State) : State := { s with resp := some r }

/-- `raise E`: TAKING AN ERROR, the block's whole exception mechanism. The command ends with an error response; nothing is saved,
no mode changes, no control goes anywhere, and the assignments made before it are kept (00_scope.md R16; 60_exceptions.md R161).
There is no return from an error (R162). -/
def raiseError (r : Response) (s : State) : State := { s with resp := some r }

/-- A reserved opcode: `IllegalCommand(op)`, no state change (30_encoding.md R72; 60_exceptions.md R157). -/
def illegalOpcode (op : Byte) (s : State) : State := raiseError (.illegalCommand op) s

/-- The hardware reset, which produces no response (70_reset_and_hazards.md R180): every element takes its value of 10_state.md R33;
the cells of `RB` are not written (44_system.md R141). The parameters stay (00_scope.md R10); the command stream and the last
response, which are the model's own, stay (log 17). -/
def hardReset (s : State) : State :=
  { s with
    crc := s.cfg.crcInit
    ch := Vector.replicate 16 0
    fb := Memory.zero
    flen := 0
    head := 0
    count := 0
    phase := .seek
    dlen := 0
    ovf := false
    skipped := 0 }

/-- What stands at the front of the command stream (30_encoding.md R70). -/
def fetch (s : State) : Decoded := decode s.cmds

/-- The state with another command stream. -/
def State.withCmds (s : State) (bs : List Byte) : State := { s with cmds := bs }

/-- The code of a response (30_encoding.md R74). -/
def Response.code : Response → ResultCode
  | .ok => .ok
  | .okStatus _ => .ok
  | .okCrc _ => .ok
  | .okValue _ => .ok
  | .okPacked _ => .ok
  | .okFlen _ => .ok
  | .okByte _ => .ok
  | .noFrame _ => .noFrame
  | .frameChannels _ _ _ _ _ => .frameChannels
  | .frameRaw _ _ _ _ _ => .frameRaw
  | .bufferTooSmall => .bufferTooSmall
  | .frameTooShort _ _ _ _ => .bufferTooSmall
  | .invalidLength _ _ => .invalidLength
  | .checksumMismatch _ _ _ => .checksumMismatch
  | .unknownPacketType _ _ => .unknownPacketType
  | .bufferOverflow _ => .bufferOverflow
  | .illegalCommand _ => .illegalCommand

/-- The byte `rc` of a result code (30_encoding.md R74; 60_exceptions.md R151). -/
def ResultCode.toByte : ResultCode → Byte
  | .ok => 0x00
  | .noFrame => 0x01
  | .frameChannels => 0x02
  | .frameRaw => 0x03
  | .bufferTooSmall => 0x81
  | .invalidLength => 0x82
  | .checksumMismatch => 0x83
  | .unknownPacketType => 0x84
  | .malformedPayload => 0x85
  | .bufferOverflow => 0x86
  | .illegalCommand => 0x87

/-- Whether a code is an error: bit 7 of `rc` (30_encoding.md R74). -/
def ResultCode.isError (c : ResultCode) : Bool := c.toByte.getLsbD 7

/-- The data bytes after `rc` (30_encoding.md R74). -/
def Response.dataBytes : Response → List Byte
  | .ok => []
  | .okStatus st => st
  | .okCrc crc => [crc]
  | .okValue v => bytesOfHalf v
  | .okPacked p => p
  | .okFlen n => [n]
  | .okByte b => [b]
  | .noFrame sk => bytesOfHalf sk
  | .frameChannels sk ty kind poff plen => bytesOfHalf sk ++ [ty, kind, poff, plen]
  | .frameRaw sk ty kind poff plen => bytesOfHalf sk ++ [ty, kind, poff, plen]
  | .bufferTooSmall => []
  | .frameTooShort sk ty need have' => bytesOfHalf sk ++ [ty, need, have']
  | .invalidLength sk len => bytesOfHalf sk ++ [len]
  | .checksumMismatch sk computed received => bytesOfHalf sk ++ [computed, received]
  | .unknownPacketType sk ty => bytesOfHalf sk ++ [ty]
  | .bufferOverflow dropped => bytesOfHalf dropped
  | .illegalCommand op => [op]

/-- The bytes of a response: `rc` and its data (30_encoding.md R74). -/
def Response.toBytes (r : Response) : List Byte := r.code.toByte :: r.dataBytes

end Sys2Proof.Machine
end

