-- ==== Sys2Proof/Machine/Flags.lean ====
section
/-! DEFINITION. The flag `OVF`, the count `SKIPPED` and the status view (spec/10_state.md R26 to R28; spec/44_system.md R142). -/

namespace Sys2Proof.Machine

/-- `OVF <- 1` (43_parser.md R114). -/
def setOvf (s : State) : State := { s with ovf := true }

/-- `OVF <- 0` (44_system.md R143). -/
def clearOvf (s : State) : State := { s with ovf := false }

/-- `SKIPPED <- 0` (43_parser.md R115). -/
def clearSkipped (s : State) : State := { s with skipped := 0 }

/-- `SKIPPED <- SKIPPED + 1` (43_parser.md R117). -/
def countSkipped (s : State) : State := { s with skipped := s.skipped + 1 }

/-- All bytes of the candidate are pending: `COUNT >= 2 + DLEN` (10_state.md R25). -/
def candidateComplete (s : State) : Bool := decide (2 + s.dlen.toNat ≤ s.count)

/-- `PSTATE`, the four parser states (10_state.md R28). -/
def pstate (s : State) : Byte :=
  match s.phase with
  | .seek => 0
  | .waitLen => 1
  | .waitPayload => if candidateComplete s then 3 else 2

/-- `FVALID`: `FLEN != 0` (10_state.md R28). -/
def fvalid (s : State) : Bool := decide (s.flen ≠ 0)

/-- A flag as a byte. -/
def flagByte (b : Bool) : Byte := if b then 1 else 0

/-- Byte 0 of `STATUS`: `PSTATE | (OVF << 2) | (FVALID << 3)`, bits 7:4 read as 0 (44_system.md R142). -/
def statusByte0 (s : State) : Byte := pstate s ||| (flagByte s.ovf <<< 2) ||| (flagByte (fvalid s) <<< 3)

/-- The seven bytes of `STATUS` (10_state.md R28; 44_system.md R142). -/
def statusBytes (s : State) : List Byte :=
  [statusByte0 s] ++ bytesOfHalf (BitVec.ofNat 16 s.count) ++ bytesOfHalf s.skipped ++ [s.dlen, s.flen]

end Sys2Proof.Machine
end

