-- ==== Sys2Proof/Machine/Operands.lean ====
section
/-! DEFINITION. How operands and fields are read (spec/30_encoding.md R73; spec/41_channel_codec.md R93, R94; spec/43_parser.md
R113). The assembly of a 16-bit operand from its two bytes is `half` in Decode.lean. -/

namespace Sys2Proof.Machine

/-- A channel index operand: `0..15`, else the command is illegal (30_encoding.md R73). -/
def chanIndex (idx : Byte) : Option (Fin 16) :=
  if h : idx.toNat < 16 then some ⟨idx.toNat, h⟩ else none

/-- `v[10:0]`: the out-of-range policy of `CH_WRITE` is truncation (41_channel_codec.md R93). -/
def truncChan (v : Half) : Chan := v.setWidth 11

/-- `zext_16(CH[a])` (30_encoding.md R74). -/
def zextChan (x : Chan) : Half := x.setWidth 16

/-- `CH[i]` (00_scope.md R14). -/
def readChan (s : State) (i : Fin 16) : Chan := s.ch[i]

/-- `CH[i] <- x` (00_scope.md R14). -/
def writeChan (i : Fin 16) (x : Chan) (s : State) : State := { s with ch := s.ch.set i x }

/-- Whether a window is too short for the packed-channels payload (41_channel_codec.md R95, R96). -/
def windowTooShort (n : Nat) : Bool := decide (n < Config.rcLen)

/-- `ovh(kind)`, the length-field overhead of a framing kind (43_parser.md R113). -/
def kindOverhead : Kind → Nat
  | .simple => Config.ovhSimple
  | .extended => Config.ovhExt

/-- `poff(kind)`, the payload's frame offset (43_parser.md R113). -/
def kindOffset : Kind → Byte
  | .simple => 3
  | .extended => 5

/-- The `kind` field of a response: 0 simple, 1 extended (30_encoding.md R74). -/
def kindByte : Kind → Byte
  | .simple => 0
  | .extended => 1

end Sys2Proof.Machine
end

