-- ==== Sys2Proof/Machine/ChannelCodec.lean ====
section
/-! DEFINITION. The channel bit-packer: `pack`, `unpack`, and `CH_WRITE`, `CH_READ`, `PACK`, `UNPACK` (spec/41_channel_codec.md). The
bit order is that of spec/20_memory.md R45, which the spec marks as general knowledge (log 4). -/

namespace Sys2Proof.Machine

/-- `S = sum over i of (c[i] << (11*i))`, the packed stream as a number, the first channel lowest (R90). -/
def channelStream : List Chan → Nat
  | [] => 0
  | x :: xs => x.toNat + (channelStream xs <<< Config.chBits)

/-- `S = sum over k of (P[k] << (8*k))`, the number of a byte sequence, the first byte lowest (R91). -/
def byteStream : List Byte → Nat
  | [] => 0
  | b :: bs => b.toNat + (byteStream bs <<< 8)

/-- `pack(c)` (R90): `P[k] = (S >> (8*k)) & 0xFF`, 22 bytes. -/
def packChannels (chans : Vector Chan 16) : List Byte :=
  (List.range Config.rcLen).map fun k => BitVec.ofNat 8 (channelStream chans.toList >>> (8 * k))

/-- `unpack(P)` (R91): `c[i] = (S >> (11*i)) & 0x7FF`, sixteen values. -/
def unpackChannels (p : List Byte) : Vector Chan 16 :=
  Vector.ofFn fun i : Fin 16 => BitVec.ofNat 11 (byteStream p >>> (Config.chBits * i.val))

/-- `CH_WRITE idx, v` (R93). -/
def execChWrite (idx : Byte) (v : Half) (s : State) : Result :=
  match chanIndex idx with
  | none => .next (raiseError (.illegalCommand 0x20) s)
  | some i => .next (respond .ok (writeChan i (truncChan v) s))

/-- `CH_READ idx` (R94). -/
def execChRead (idx : Byte) (s : State) : Result :=
  match chanIndex idx with
  | none => .next (raiseError (.illegalCommand 0x21) s)
  | some i => .next (respond (.okValue (zextChan (readChan s i))) s)

/-- `PACK wlen` (R95). -/
def execPack (wlen : Byte) (s : State) : Result :=
  if windowTooShort wlen.toNat then .next (raiseError .bufferTooSmall s)
  else .next (respond (.okPacked (packChannels s.ch)) s)

/-- `UNPACK d` (R96): the first 22 bytes are decoded, the rest ignored; all sixteen registers are written together. -/
def execUnpack (d : List Byte) (s : State) : Result :=
  if windowTooShort d.length then .next (raiseError .bufferTooSmall s)
  else .next (respond .ok { s with ch := unpackChannels (d.take Config.rcLen) })

end Sys2Proof.Machine
end

