-- ==== Sys2Proof/Machine/Checksum.lean ====
section
/-! DEFINITION. The checksum unit: `T`, `crc_step`, `crc8`, and `CRC_RESET`, `CRC_UPDATE`, `CRC_READ` (spec/40_crc.md). -/

namespace Sys2Proof.Machine

/-- One turn of the loop of R80: `if c[7] = 1 then ((c << 1) & 0xFF) ^ CRC_POLY else (c << 1) & 0xFF`. -/
def crcShift (poly c : Byte) : Byte := if c.msb then (c <<< 1) ^^^ poly else c <<< 1

/-- `n` turns of the loop of R80. -/
def crcShifts (poly : Byte) : Nat → Byte → Byte
  | 0, c => c
  | n + 1, c => crcShifts poly n (crcShift poly c)

/-- `T[i]` (R80): the loop repeated 8 times. -/
def crcTable (cfg : Config) (i : Byte) : Byte := crcShifts cfg.crcPoly 8 i

/-- `crc_step(c, b) = T[c ^ b]` (R81). -/
def crcStep (cfg : Config) (c b : Byte) : Byte := crcTable cfg (c ^^^ b)

/-- The accumulator after a sequence of bytes, from a starting value. -/
def crcFrom (cfg : Config) (c : Byte) (bs : List Byte) : Byte := bs.foldl (crcStep cfg) c

/-- `crc8(b[0], ..., b[n-1])` (R82), the private datapath of `NEXT` and the `BUILD` commands (10_state.md R31). -/
def crc8 (cfg : Config) (bs : List Byte) : Byte := crcFrom cfg cfg.crcInit bs

/-- `CRC_RESET` (R83): `CRC <- CRC_INIT; respond OK`. -/
def execCrcReset (s : State) : Result := .next (respond .ok { s with crc := s.cfg.crcInit })

/-- `CRC_UPDATE d` (R84): `CRC <- crc_step(CRC, d[j])` for each byte; `respond OK`. -/
def execCrcUpdate (d : List Byte) (s : State) : Result := .next (respond .ok { s with crc := crcFrom s.cfg s.crc d })

/-- `CRC_READ` (R85): `respond OK(crc = CRC)`. -/
def execCrcRead (s : State) : Result := .next (respond (.okCrc s.crc) s)

end Sys2Proof.Machine
end

