-- ==== Sys2Proof/Machine/FrameBuild.lean ====
section
/-! DEFINITION. Frames: `frame_valid`, the procedure `build`, and `BUILD_SIMPLE`, `BUILD_EXT`, `BUILD_CH`, `FB_READ`
(spec/30_encoding.md R60 to R64; spec/42_frame_build.md). -/

namespace Sys2Proof.Machine

/-- `frame_valid(f)` (30_encoding.md R64): `MIN_LEN + 2 <= n <= MAX_FRAME`, `f[1] = n - 2`, and `crc8(f[2..n-2]) = f[n-1]`. -/
def frameValid (cfg : Config) (f : List Byte) : Bool :=
  decide (Config.minLen + 2 ≤ f.length) && decide (f.length ≤ cfg.maxFrame) &&
  decide ((f.getD 1 0).toNat = f.length - 2) &&
  decide (crc8 cfg ((f.drop 2).take (f.length - 3)) = f.getD (f.length - 1) 0)

/-- Every write of `FB`: zero fill, then the frame from offset 0, then `FLEN` (42_frame_build.md R100; 43_parser.md R122). -/
def writeFrame (f : List Byte) (s : State) : State :=
  { s with fb := Memory.writeBytes Memory.zero 0 f, flen := BitVec.ofNat 8 f.length }

/-- The derived length byte `L = p + ovh`, `ovh = 2 + number of bytes of addr` (42_frame_build.md R100). -/
def frameLength (addr d : List Byte) : Nat := d.length + (Config.ovhSimple + addr.length)

/-- The frame `[sync, L] ++ body ++ [crc8(body)]` with `body = [ty] ++ addr ++ d` (42_frame_build.md R100). -/
def frameBytes (cfg : Config) (sync ty : Byte) (addr d : List Byte) : List Byte :=
  [sync, BitVec.ofNat 8 (frameLength addr d)] ++ ([ty] ++ addr ++ d) ++ [crc8 cfg ([ty] ++ addr ++ d)]

/-- `build(sync, ty, addr, d)` (42_frame_build.md R100, R101): refused with nothing written when `L > MAX_LEN`. -/
def build (sync ty : Byte) (addr d : List Byte) (s : State) : State :=
  if s.cfg.maxLen < frameLength addr d then raiseError .bufferTooSmall s
  else respond (.okFlen (BitVec.ofNat 8 (frameLength addr d + 2))) (writeFrame (frameBytes s.cfg sync ty addr d) s)

/-- `BUILD_SIMPLE sync, type, d` (R102). -/
def execBuildSimple (sync ty : Byte) (d : List Byte) (s : State) : Result := .next (build sync ty [] d s)

/-- `BUILD_EXT sync, type, dst, src, d` (R103): destination first, then source. -/
def execBuildExt (sync ty dst src : Byte) (d : List Byte) (s : State) : Result := .next (build sync ty [dst, src] d s)

/-- `BUILD_CH sync` (R104): `build(sync, TYPE_RC, (), pack(CH))`. -/
def execBuildCh (sync : Byte) (s : State) : Result := .next (build sync s.cfg.typeRC [] (packChannels s.ch) s)

/-- `FB_READ off` (R105). -/
def execFbRead (off : Byte) (s : State) : Result :=
  if s.cfg.maxFrame ≤ off.toNat then .next (raiseError (.illegalCommand 0x33) s)
  else .next (respond (.okByte (Memory.read s.fb off.toNat)) s)

end Sys2Proof.Machine
end

