-- ==== Sys2Proof/Machine/Parser.lean ====
section
/-! DEFINITION. The streaming parser and frame synchronizer: `PUSH` and `NEXT` (spec/43_parser.md). -/

namespace Sys2Proof.Machine

/-- One byte of a `PUSH` (R114): when the ring is full the oldest byte is discarded and any candidate abandoned (R124). The number
counts the discarded bytes. -/
def pushByte (b : Byte) (s : State) (dropped : Nat) : State × Nat :=
  if s.count = s.cfg.ringN then (appendByte b (resync (dropBytes 1 s)), dropped + 1) else (appendByte b s, dropped)

/-- The loop of `PUSH` (R114). -/
def pushBytes : List Byte → State → Nat → State × Nat
  | [], s, dropped => (s, dropped)
  | b :: bs, s, dropped => pushBytes bs (pushByte b s dropped).1 (pushByte b s dropped).2

/-- `PUSH d` (R114). -/
def execPush (d : List Byte) (s : State) : Result :=
  match pushBytes d s 0 with
  | (t, 0) => .next (respond .ok t)
  | (t, dropped + 1) => .next (raiseError (.bufferOverflow (BitVec.ofNat 16 (dropped + 1))) (setOvf t))

/-- The turn in `SEEK` (R115, R117; transitions 1 to 3 of R116). -/
def seekTurn (s : State) : Turn :=
  if s.count = 0 then .done (.next (respond (.noFrame s.skipped) s))
  else if ringByte s 0 = s.cfg.sync then .again { s with phase := .waitLen }
  else .again (countSkipped (dropBytes 1 s))

/-- A length byte outside `MIN_LEN..MAX_LEN` (R119). -/
def lengthIllegal (cfg : Config) (len : Byte) : Bool :=
  decide (len.toNat < Config.minLen) || decide (cfg.maxLen < len.toNat)

/-- The turn in `WAIT_LEN` (R115, R118, R119; transitions 4 to 6 of R116). -/
def lengthTurn (s : State) : Turn :=
  if s.count < 2 then .done (.next (respond (.noFrame s.skipped) s))
  else if lengthIllegal s.cfg (ringByte s 1) then
    .done (.next (raiseError (.invalidLength s.skipped (ringByte s 1)) (resync (dropBytes 1 s))))
  else .again { s with dlen := ringByte s 1, phase := .waitPayload }

/-- The outcome of a frame that has been consumed and is in `FB` (R123, R126 to R129), `f` the frame and `ty` its type tag. -/
def dispatchFrame (f : List Byte) (ty : Byte) (len : Nat) (s : State) : State :=
  match lookupType s.cfg.typeTable ty with
  | none => raiseError (.unknownPacketType s.skipped ty) s
  | some row =>
    if len < kindOverhead row.kind ∨ len - kindOverhead row.kind < row.len.toNat then
      raiseError (.frameTooShort s.skipped ty row.len (BitVec.ofNat 8 (len - kindOverhead row.kind))) s
    else if ty = s.cfg.typeRC then
      respond (.frameChannels s.skipped ty 0 3 (BitVec.ofNat 8 (len - 2)))
        { s with ch := unpackChannels ((f.drop 3).take Config.rcLen) }
    else
      respond (.frameRaw s.skipped ty (kindByte row.kind) (kindOffset row.kind)
        (BitVec.ofNat 8 (len - kindOverhead row.kind))) s

/-- Acceptance (R122; transition 9 of R116): the frame is copied to `FB`, removed from the ring, and dispatched on its type. A
candidate outside the bounds of 20_memory.md R42, R43 has no meaning in the spec and cannot be reached (log 11). -/
def acceptFrame (f : List Byte) (len : Nat) (s : State) : Result :=
  match f[2]?, decide (f.length ≤ s.cfg.maxFrame) with
  | some ty, true => .next (dispatchFrame f ty len (resync (dropBytes (len + 2) (writeFrame f s))))
  | _, _ => .fault .candidateOutOfBounds

/-- The checksum computed over the candidate's covered range, frame offsets `2..L` (R121). -/
def candidateCrc (s : State) : Byte := crc8 s.cfg (ringRead s 2 (s.dlen.toNat - 1))

/-- The candidate's trailing byte, frame offset `L + 1` (R121). -/
def candidateTrailer (s : State) : Byte := ringByte s (s.dlen.toNat + 1)

/-- The turn in `WAIT_PAYLOAD` (R115, R120 to R122; transitions 7 to 9 of R116). -/
def payloadTurn (s : State) : Turn :=
  if candidateComplete s = false then .done (.next (respond (.noFrame s.skipped) s))
  else if candidateCrc s ≠ candidateTrailer s then
    .done (.next (raiseError (.checksumMismatch s.skipped (candidateCrc s) (candidateTrailer s)) (resync (dropBytes 1 s))))
  else .done (acceptFrame (ringRead s 0 (s.dlen.toNat + 2)) s.dlen.toNat s)

/-- One turn of the loop of `NEXT` (R115). -/
def nextTurn (s : State) : Turn :=
  match s.phase with
  | .seek => seekTurn s
  | .waitLen => lengthTurn s
  | .waitPayload => payloadTurn s

/-- The loop of `NEXT` (R115), at most `n` turns. -/
def nextLoop : Nat → State → Result
  | 0, _ => .fault .turnBoundExceeded
  | n + 1, s =>
    match nextTurn s with
    | .done r => r
    | .again t => nextLoop n t

/-- `NEXT` (R115): "the loop runs at most `COUNT + 3` turns" (R130). -/
def execNext (s : State) : Result := nextLoop (s.count + 3) (clearSkipped s)

end Sys2Proof.Machine
end

