-- ==== Sys2Proof/Machine/SystemCommands.lean ====
section
/-! DEFINITION. The system commands `NOP`, `RESET`, `STATUS_READ`, `CLR_FLAGS` (spec/44_system.md). -/

namespace Sys2Proof.Machine

/-- `NOP` (R140): `respond OK`. -/
def execNop (s : State) : Result := .next (respond .ok s)

/-- `RESET` (R141): the hardware reset, and `respond OK`. -/
def execReset (s : State) : Result := .next (respond .ok (hardReset s))

/-- `STATUS_READ` (R142): `respond OK(status)`; reading does not clear `OVF`. -/
def execStatusRead (s : State) : Result := .next (respond (.okStatus (statusBytes s)) s)

/-- `CLR_FLAGS` (R143): `OVF <- 0; respond OK`. -/
def execClrFlags (s : State) : Result := .next (respond .ok (clearOvf s))

end Sys2Proof.Machine
end

