-- ==== Sys2Proof/Machine/Dispatch.lean ====
section
/-! DEFINITION. What a command does (spec/30_encoding.md R71): one arm per command, in the order of spec/opcode_table.json. -/

namespace Sys2Proof.Machine

def exec (i : Instr) (s : State) : Host.Outcome State Fault Refusal :=
  match i with
  | .nop => Sys2Proof.Machine.execNop s
  | .reset => Sys2Proof.Machine.execReset s
  | .statusRead => Sys2Proof.Machine.execStatusRead s
  | .clrFlags => Sys2Proof.Machine.execClrFlags s
  | .crcReset => Sys2Proof.Machine.execCrcReset s
  | .crcUpdate d => Sys2Proof.Machine.execCrcUpdate d s
  | .crcRead => Sys2Proof.Machine.execCrcRead s
  | .chWrite idx v => Sys2Proof.Machine.execChWrite idx v s
  | .chRead idx => Sys2Proof.Machine.execChRead idx s
  | .pack wlen => Sys2Proof.Machine.execPack wlen s
  | .unpack d => Sys2Proof.Machine.execUnpack d s
  | .buildSimple sync ty d => Sys2Proof.Machine.execBuildSimple sync ty d s
  | .buildExt sync ty dst src d => Sys2Proof.Machine.execBuildExt sync ty dst src d s
  | .buildCh sync => Sys2Proof.Machine.execBuildCh sync s
  | .fbRead off => Sys2Proof.Machine.execFbRead off s
  | .push d => Sys2Proof.Machine.execPush d s
  | .next => Sys2Proof.Machine.execNext s

end Sys2Proof.Machine
end

