-- ==== Sys2Proof/Machine/Step.lean ====
section
/-! DEFINITION. One step: the block takes one command from the host's stream (spec/00_scope.md R4). -/

namespace Sys2Proof.Machine

/-- One step. A complete command is consumed and run to its response (20_memory.md R50); a reserved opcode is a one-byte command
answered `IllegalCommand` (30_encoding.md R72); with no command the block does nothing and keeps all its state (60_exceptions.md R170);
a command cut short is no command and there is no step for it (93 U8, log 10). -/
def step (s : State) : Host.Outcome State Fault Refusal :=
  match fetch s with
  | .idle => .next s
  | .needMoreBytes => .refused .needMoreBytes
  | .reserved op rest => .next (illegalOpcode op (s.withCmds rest))
  | .command i rest => exec i (s.withCmds rest)

/-- The state whose next command is the one with the bits `w` (the host's numbering), at the front of the command stream: how a
program is placed (log 7). -/
def State.withFetchWord (s : State) (nbits w : Nat) : State := s.withCmds (wordBytes nbits w)

end Sys2Proof.Machine
end

