-- ==== Sys2Proof/Machine/Pseudo.lean ====
section
/-! DEFINITION. Sequences of commands: the pseudo-commands of spec/30_encoding.md R77, and running a sequence with its responses. -/

namespace Sys2Proof.Machine

/-- The responses to a sequence of commands, in order, and the state after it; `none` where a command does not answer. -/
def runCommands : List Instr → State → Option (List Response × State)
  | [], s => some ([], s)
  | i :: is, s =>
    match exec i s with
    | .next t =>
      match runCommands is t with
      | some (rs, u) => some (t.resp.toList ++ rs, u)
      | none => none
    | _ => none

/-- `n` `CRC_UPDATE` commands in order, each with the next 255 bytes, the most that its count byte can say (R70). -/
def crcUpdateCmds : Nat → List Byte → List Instr
  | 0, _ => []
  | n + 1, bs => .crcUpdate (bs.take 255) :: crcUpdateCmds n (bs.drop 255)

/-- `CRC_COMPUTE [bytes]`: one `CRC_UPDATE` for at most 255 bytes, several in order for more (R77). -/
def crcComputeCmds (bs : List Byte) : List Instr :=
  .crcReset :: (crcUpdateCmds ((bs.length - 1) / 255 + 1) bs ++ [.crcRead])

/-- `CRC_COMPUTE`, run: its answer is the answer of the `CRC_READ`, the last command (R77). -/
def crcCompute (bs : List Byte) (s : State) : Option (Response × State) :=
  match runCommands (crcComputeCmds bs) s with
  | some (rs, t) => rs.getLast?.map fun r => (r, t)
  | none => none

/-- `CH_LOAD v0, ..., v15` (R77). -/
def chLoadCmds (v : Vector Half 16) : List Instr :=
  (List.finRange 16).map fun i => .chWrite (BitVec.ofNat 8 i.val) v[i]

/-- `CH_DUMP` (R77). -/
def chDumpCmds : List Instr := (List.range 16).map fun i => .chRead (BitVec.ofNat 8 i)

/-- The `FB_READ k` commands of `FB_DUMP`, `k = 0 .. FLEN-1`, for the `FLEN` that `STATUS_READ` has shown (R77). -/
def fbDumpCmds (flen : Byte) : List Instr := (List.range flen.toNat).map fun k => .fbRead (BitVec.ofNat 8 k)

/-- The `FLEN` that an answer of `STATUS_READ` shows: its last byte (10_state.md R28). -/
def shownFlen : Response → Option Byte
  | .okStatus st => st[6]?
  | _ => none

/-- The bytes that a sequence of `FB_READ` answers carries; `none` where one of them is no byte. -/
def readBytes : List Response → Option (List Byte)
  | [] => some []
  | .okByte b :: rs => (readBytes rs).map (b :: ·)
  | _ :: _ => none

/-- `FB_DUMP`: `STATUS_READ`, then `FB_READ k` for every `k` below the `FLEN` it answers; the answer is the frame (R77). -/
def fbDump (s : State) : Option (List Byte × State) :=
  match exec .statusRead s with
  | .next t =>
    match t.resp.bind shownFlen with
    | some flen =>
      match runCommands (fbDumpCmds flen) t with
      | some (rs, u) => (readBytes rs).map fun f => (f, u)
      | none => none
    | none => none
  | _ => none

/-- Whether the last response was `NONE`. -/
def answeredNone (s : State) : Bool :=
  match s.resp with
  | some (.noFrame _) => true
  | _ => false

/-- At most `n` times `NEXT`, until one answers `NONE`: the responses and the state after them. -/
def drainLoop : Nat → State → Option (List Response × State)
  | 0, _ => none
  | n + 1, s =>
    match execNext s with
    | .next t =>
      if answeredNone t then some (t.resp.toList, t)
      else
        match drainLoop n t with
        | some (rs, u) => some (t.resp.toList ++ rs, u)
        | none => none
    | _ => none

/-- `DRAIN` (R77): `NEXT` repeated until one answers `NONE`. Every other answer of `NEXT` removes at least one pending byte, so
`COUNT + 1` commands are enough. -/
def drain (s : State) : Option (List Response × State) := drainLoop (s.count + 1) s

end Sys2Proof.Machine
end

