-- ==== Sys2Proof/Safety.lean ====
section
/-! DEFINITION. What holds of every state of the hardware (spec/10_state.md R32), and what counts as a safe outcome
(spec/60_exceptions.md R150). -/

namespace Sys2Proof.Machine

/-- The memories keep their canonical form and list no cell outside their space (20_memory.md R40, R43). -/
structure MemoryInv (s : State) : Prop where
  fb_wf : Memory.wf s.fb = true
  rb_wf : Memory.wf s.rb = true
  fb_within : Memory.within s.fb s.cfg.maxFrame = true
  rb_within : Memory.within s.rb s.cfg.ringN = true

/-- Invariants I1 to I4 of 10_state.md R32, the ring and the synchronizer, and the bound of I7 on `SKIPPED`. -/
structure ParserInv (s : State) : Prop where
  /-- (I1) -/
  count_le : s.count ≤ s.cfg.ringN
  /-- (I1) -/
  head_lt : s.head < s.cfg.ringN
  /-- (I2) -/
  candidate : s.phase ≠ .seek → 1 ≤ s.count ∧ ringByte s 0 = s.cfg.sync
  /-- (I3) -/
  latched : s.phase = .waitPayload →
    2 ≤ s.count ∧ ringByte s 1 = s.dlen ∧ Config.minLen ≤ s.dlen.toNat ∧ s.dlen.toNat ≤ s.cfg.maxLen
  /-- (I4) -/
  unlatched : s.phase ≠ .waitPayload → s.dlen = 0
  /-- (I7); `CH[i] <= 2047` holds of every 11-bit register -/
  skipped_le : s.skipped.toNat ≤ s.cfg.ringN

/-- The frame in `FB`: its first `FLEN` bytes. -/
def currentFrame (s : State) : List Byte := Memory.readBytes s.fb 0 s.flen.toNat

/-- Invariants I5 and I6 of 10_state.md R32, the frame buffer. -/
structure FrameInv (s : State) : Prop where
  /-- (I5) -/
  valid : s.flen = 0 ∨ (Config.minLen + 2 ≤ s.flen.toNat ∧ s.flen.toNat ≤ s.cfg.maxFrame ∧
    frameValid s.cfg (currentFrame s) = true)
  /-- (I6) -/
  zero_after : ∀ k, k < s.cfg.maxFrame → s.flen.toNat ≤ k → Memory.read s.fb k = 0

/-- The pending bytes, oldest first: `rb(0), ..., rb(COUNT-1)` (10_state.md R24). -/
def pending (s : State) : List Byte := ringRead s 0 s.count

/-- The invariants of 10_state.md R32: "After reset and after every command, all of these hold." -/
structure Inv (s : State) : Prop where
  memory : MemoryInv s
  parser : ParserInv s
  frame : FrameInv s

/-- The part of the invariants that keeps `NEXT` within the bounds of `MemRead` and `MemWrite`: a latched length is legal
(10_state.md R32, I3). -/
def LatchedLegal (s : State) : Prop :=
  s.phase = .waitPayload → Config.minLen ≤ s.dlen.toNat ∧ s.dlen.toNat ≤ s.cfg.maxLen

/-- A command was answered: the outcome is a next state that holds a response (60_exceptions.md R150). -/
def Answered (r : Result) : Prop := ∃ t, r = .next t ∧ t.resp.isSome = true

/-- The columns of the access matrix (10_state.md R34), the constant table `T` left out. -/
inductive Element where
  | crc
  | ch
  | frame
  | ring
  | cursors
  | position
  | ovf
  | skipped
  deriving DecidableEq, Repr

/-- The `w` entries of the access matrix (10_state.md R34): which elements a command may write. -/
def mayWrite : Instr → Element → Bool
  | .nop, _ => false
  | .reset, e => decide (e ≠ .ring)
  | .statusRead, _ => false
  | .clrFlags, e => decide (e = .ovf)
  | .crcReset, e => decide (e = .crc)
  | .crcUpdate _, e => decide (e = .crc)
  | .crcRead, _ => false
  | .chWrite _ _, e => decide (e = .ch)
  | .chRead _, _ => false
  | .pack _, _ => false
  | .unpack _, e => decide (e = .ch)
  | .buildSimple _ _ _, e => decide (e = .frame)
  | .buildExt _ _ _ _ _, e => decide (e = .frame)
  | .buildCh _, e => decide (e = .frame)
  | .fbRead _, _ => false
  | .push _, e => decide (e = .ring) || decide (e = .cursors) || decide (e = .position) || decide (e = .ovf)
  | .next, e => decide (e = .ch) || decide (e = .frame) || decide (e = .cursors) || decide (e = .position) || decide (e = .skipped)

/-- An element holds the same in two states. -/
def sameElement : Element → State → State → Prop
  | .crc, s, t => t.crc = s.crc
  | .ch, s, t => t.ch = s.ch
  | .frame, s, t => t.fb = s.fb ∧ t.flen = s.flen
  | .ring, s, t => t.rb = s.rb
  | .cursors, s, t => t.head = s.head ∧ t.count = s.count
  | .position, s, t => t.phase = s.phase ∧ t.dlen = s.dlen
  | .ovf, s, t => t.ovf = s.ovf
  | .skipped, s, t => t.skipped = s.skipped

/-- The "issued by" column of 30_encoding.md R74: which result codes a command may answer with. -/
def mayAnswer : Instr → List ResultCode
  | .nop => [.ok]
  | .reset => [.ok]
  | .statusRead => [.ok]
  | .clrFlags => [.ok]
  | .crcReset => [.ok]
  | .crcUpdate _ => [.ok]
  | .crcRead => [.ok]
  | .chWrite _ _ => [.ok, .illegalCommand]
  | .chRead _ => [.ok, .illegalCommand]
  | .pack _ => [.ok, .bufferTooSmall]
  | .unpack _ => [.ok, .bufferTooSmall]
  | .buildSimple _ _ _ => [.ok, .bufferTooSmall]
  | .buildExt _ _ _ _ _ => [.ok, .bufferTooSmall]
  | .buildCh _ => [.ok, .bufferTooSmall]
  | .fbRead _ => [.ok, .illegalCommand]
  | .push _ => [.ok, .bufferOverflow]
  | .next => [.noFrame, .frameChannels, .frameRaw, .bufferTooSmall, .invalidLength, .checksumMismatch, .unknownPacketType]

/-- The reset state of 10_state.md R33, the cells of `RB` left open: "unspecified, unobservable". -/
structure InResetState (s : State) : Prop where
  crc : s.crc = s.cfg.crcInit
  ch : ∀ i : Fin 16, s.ch[i] = 0
  fb : ∀ k, Memory.read s.fb k = 0
  flen : s.flen = 0
  head : s.head = 0
  count : s.count = 0
  phase : s.phase = .seek
  dlen : s.dlen = 0
  ovf : s.ovf = false
  skipped : s.skipped = 0

/-- The field `skipped` of the responses of `NEXT` (30_encoding.md R74). -/
def skippedField : Response → Option Half
  | .noFrame sk => some sk
  | .frameChannels sk _ _ _ _ => some sk
  | .frameRaw sk _ _ _ _ => some sk
  | .frameTooShort sk _ _ _ => some sk
  | .invalidLength sk _ => some sk
  | .checksumMismatch sk _ _ => some sk
  | .unknownPacketType sk _ => some sk
  | _ => none

/-- The oldest pending bytes are `noise`, none of them `SYNC`, then the candidate `SYNC, len`, then `tail` (00_scope.md R19). -/
def HasCandidate (s : State) (noise : List Byte) (len : Byte) (tail : List Byte) : Prop :=
  pending s = noise ++ s.cfg.sync :: len :: tail ∧ ∀ b ∈ noise, b ≠ s.cfg.sync

/-- A length byte in `MIN_LEN..MAX_LEN` (30_encoding.md R63). -/
def LegalLength (cfg : Config) (len : Byte) : Prop := Config.minLen ≤ len.toNat ∧ len.toNat ≤ cfg.maxLen

/-- All bytes of the candidate are in `tail` and the trailing byte is the checksum of the covered range (43_parser.md R121). -/
def ChecksumMatches (cfg : Config) (len : Byte) (tail : List Byte) : Prop :=
  len.toNat ≤ tail.length ∧ crc8 cfg (tail.take (len.toNat - 1)) = tail.getD (len.toNat - 1) 0

end Sys2Proof.Machine
end

