-- ==== Sys2Proof/Certificates/Slice0/Obligations.lean ====
section
/-! DEFINITION. The statements for the provers. Each docstring names the rules of spec/ that the statement formalises; where a
statement rests on a rule the spec marks as derived or as general knowledge, or on a choice of the model, it says so. The field
`resp` (log 8) is how the model holds a response, the field `cmds` (log 7) how it holds the command stream. -/

open Sys2Proof Sys2Proof.Machine

/-! ## Encoding -/

/-- The bytes of every command, format by format (30_encoding.md R70, R71). -/
def Obligations.CommandBytesFollowFormats : Prop :=
  encode .nop = [0x00] ∧ encode .reset = [0x01] ∧ encode .statusRead = [0x02] ∧ encode .clrFlags = [0x03] ∧
  encode .crcReset = [0x10] ∧ encode .crcRead = [0x12] ∧ encode .next = [0x41] ∧
  (∀ a, encode (.chRead a) = [0x21, a] ∧ encode (.pack a) = [0x22, a] ∧ encode (.buildCh a) = [0x32, a] ∧
    encode (.fbRead a) = [0x33, a]) ∧
  (∀ idx v, encode (.chWrite idx v) = [0x20, idx, BitVec.ofNat 8 v.toNat, BitVec.ofNat 8 (v.toNat / 256)]) ∧
  (∀ d, encode (.crcUpdate d) = [0x11, BitVec.ofNat 8 d.length] ++ d ∧
    encode (.unpack d) = [0x23, BitVec.ofNat 8 d.length] ++ d ∧ encode (.push d) = [0x40, BitVec.ofNat 8 d.length] ++ d) ∧
  (∀ sync ty d, encode (.buildSimple sync ty d) = [0x30, sync, ty, BitVec.ofNat 8 d.length] ++ d) ∧
  (∀ sync ty dst src d, encode (.buildExt sync ty dst src d) = [0x31, sync, ty, dst, src, BitVec.ofNat 8 d.length] ++ d)

/-- A few command words of 95_test_vectors.md, read by the decoder (30_encoding.md R71, R73). A sanity statement. -/
def Obligations.DecoderReadsSpecWords : Prop :=
  decode [0x20, 0x03, 0xE0, 0x03] = .command (.chWrite 3 992) [] ∧
  decode [0x11, 0x03, 0x28, 0x00, 0xEA, 0x12] = .command (.crcUpdate [0x28, 0x00, 0xEA]) [0x12] ∧
  decode [0x31, 0xC8, 0x2C, 0xEE, 0xEA, 0x02, 0x01, 0x00] = .command (.buildExt 0xC8 0x2C 0xEE 0xEA [0x01, 0x00]) [] ∧
  decode [0x40, 0x01, 0xC8, 0x41] = .command (.push [0xC8]) [0x41] ∧
  decode [0x02] = .command .statusRead []

/-- Decode and encode agree: every command the encoding admits is read back from its bytes, whatever bytes follow
(30_encoding.md R70 to R73). -/
def Obligations.DecodeReadsBackEncode : Prop :=
  ∀ (i : Instr) (rest : List Byte), i.wf = true → decode (encode i ++ rest) = .command i rest

/-- Each byte sequence has one meaning: a decoded command is well-formed and the bytes consumed are its encoding
(30_encoding.md R70 to R73). -/
def Obligations.DecodedBytesAreTheEncoding : Prop :=
  ∀ (bs : List Byte) (i : Instr) (rest : List Byte), decode bs = .command i rest → i.wf = true ∧ bs = encode i ++ rest

/-- `IllegalCommand` (60_exceptions.md R157): an opcode outside the map of R71, a channel index above 15, an offset at or above
`MAX_FRAME`. The response records the opcode byte and no state changes. -/
def Obligations.IllegalCommandRecordsOpcodeOnly : Prop :=
  (∀ (s : State) (op : Byte) (rest : List Byte),
    op ∉ ([0x00, 0x01, 0x02, 0x03, 0x10, 0x11, 0x12, 0x20, 0x21, 0x22, 0x23, 0x30, 0x31, 0x32, 0x33, 0x40, 0x41] : List Byte) →
    s.cmds = op :: rest → step s = .next { s with cmds := rest, resp := some (.illegalCommand op) }) ∧
  (∀ (s : State) (idx : Byte) (v : Half), 15 < idx.toNat →
    exec (.chWrite idx v) s = .next { s with resp := some (.illegalCommand 0x20) } ∧
    exec (.chRead idx) s = .next { s with resp := some (.illegalCommand 0x21) }) ∧
  (∀ (s : State) (off : Byte), s.cfg.maxFrame ≤ off.toNat →
    exec (.fbRead off) s = .next { s with resp := some (.illegalCommand 0x33) })

/-- A command cut short is no command: the model has no step for it (30_encoding.md Part B; 93_implementation_defined.md U8). That
"no step" is a refusal is the model's reading, log 10. -/
def Obligations.TruncatedCommandHasNoStep : Prop :=
  ∀ (s : State) (i : Instr) (k : Nat), i.wf = true → 0 < k → k < (encode i).length → s.cmds = (encode i).take k →
    step s = .refused .needMoreBytes

/-- Responses (30_encoding.md R74): the bytes of each, low byte first, bit 7 of `rc` set exactly for errors, `MalformedPayload` never
issued, and each command answers only with the codes that the "issued by" column gives it. -/
def Obligations.ResponsesFollowTable : Prop :=
  Response.toBytes .ok = [0x00] ∧ (∀ st, Response.toBytes (.okStatus st) = 0x00 :: st) ∧
  (∀ b, Response.toBytes (.okCrc b) = [0x00, b] ∧ Response.toBytes (.okFlen b) = [0x00, b] ∧ Response.toBytes (.okByte b) = [0x00, b] ∧
    Response.toBytes (.illegalCommand b) = [0x87, b]) ∧
  (∀ v : Half, Response.toBytes (.okValue v) = [0x00, v.extractLsb' 0 8, v.extractLsb' 8 8] ∧
    Response.toBytes (.noFrame v) = [0x01, v.extractLsb' 0 8, v.extractLsb' 8 8] ∧
    Response.toBytes (.bufferOverflow v) = [0x86, v.extractLsb' 0 8, v.extractLsb' 8 8]) ∧
  (∀ p, Response.toBytes (.okPacked p) = 0x00 :: p) ∧ Response.toBytes .bufferTooSmall = [0x81] ∧
  (∀ (v : Half) (ty a b c : Byte),
    Response.toBytes (.frameChannels v ty a b c) = [0x02, v.extractLsb' 0 8, v.extractLsb' 8 8, ty, a, b, c] ∧
    Response.toBytes (.frameRaw v ty a b c) = [0x03, v.extractLsb' 0 8, v.extractLsb' 8 8, ty, a, b, c] ∧
    Response.toBytes (.frameTooShort v ty a b) = [0x81, v.extractLsb' 0 8, v.extractLsb' 8 8, ty, a, b] ∧
    Response.toBytes (.invalidLength v a) = [0x82, v.extractLsb' 0 8, v.extractLsb' 8 8, a] ∧
    Response.toBytes (.checksumMismatch v a b) = [0x83, v.extractLsb' 0 8, v.extractLsb' 8 8, a, b] ∧
    Response.toBytes (.unknownPacketType v ty) = [0x84, v.extractLsb' 0 8, v.extractLsb' 8 8, ty]) ∧
  (∀ code : ResultCode, code.toByte.getLsbD 7 = decide (code ∉ [.ok, .noFrame, .frameChannels, .frameRaw])) ∧
  (∀ r : Response, r.code ≠ .malformedPayload) ∧
  (∀ (i : Instr) (s t : State), exec i s = .next t → ∃ r, t.resp = some r ∧ r.code ∈ mayAnswer i)

/-! ## The step -/

/-- A step runs the decoded command (00_scope.md section 1, 20_memory.md section 3): it consumes the command's bytes and is `exec` of the
command on the state without them. -/
def Obligations.StepRunsDecodedCommand : Prop :=
  ∀ (s : State) (i : Instr) (rest : List Byte), decode s.cmds = .command i rest → step s = exec i { s with cmds := rest }

/-- With no command pending a step keeps all the state (60_exceptions.md R170). -/
def Obligations.NoCommandKeepsState : Prop := ∀ s : State, s.cmds = [] → step s = .next s

/-- The parameters are fixed (00_scope.md section 3), and a command's run does not touch the command stream (log 7). -/
def Obligations.ParametersNeverChange : Prop :=
  ∀ (i : Instr) (s t : State), exec i s = .next t → t.cfg = s.cfg ∧ t.cmds = s.cmds

/-- The `w` entries of the access matrix (10_state.md section 5): a command leaves alone every element its row does not let it write. -/
def Obligations.AccessMatrixWrites : Prop :=
  ∀ (i : Instr) (s t : State) (e : Element), exec i s = .next t → mayWrite i e = false → sameElement e s t

/-! ## System commands, flags, reset -/

/-- `NOP` (44_system.md R140): `respond OK`, no state is read or written. -/
def Obligations.NopOnlyResponds : Prop :=
  (∀ rest, decode (0x00 :: rest) = .command .nop rest) ∧ ∀ s : State, exec .nop s = .next { s with resp := some .ok }

/-- `RESET` (44_system.md R141): every element takes its reset value, the cells of `RB` are not written, and `STATUS_READ` then shows
seven zero bytes. -/
def Obligations.ResetPutsEveryElementInResetState : Prop :=
  (∀ rest, decode (0x01 :: rest) = .command .reset rest) ∧
  ∀ s : State, ∃ fb' : Memory, (∀ k, Memory.read fb' k = 0) ∧
    exec .reset s = .next { s with crc := s.cfg.crcInit, ch := Vector.replicate 16 0, fb := fb', flen := 0, head := 0, count := 0, phase := .seek, dlen := 0, ovf := false, skipped := 0, resp := some .ok } ∧
    ∀ t, exec .reset s = .next t →
      exec .statusRead t = .next { t with resp := some (.okStatus [0x00, 0x00, 0x00, 0x00, 0x00, 0x00, 0x00]) }

/-- The reset state (10_state.md R33): after power-on, after the hardware reset, which gives no response, and after `RESET`. That the
hardware reset leaves the field `resp` as it was is the model's own choice, log 17. -/
def Obligations.ResetStateValues : Prop :=
  (∀ cfg : Config, InResetState (State.resetWith cfg) ∧ (State.resetWith cfg).cfg = cfg) ∧
  (∀ s : State, InResetState (hardReset s) ∧ (hardReset s).cfg = s.cfg ∧ (hardReset s).resp = s.resp) ∧
  ∀ s t : State, exec .reset s = .next t → InResetState t ∧ t.cfg = s.cfg

/-- What the first commands answer in the reset state (70_reset_and_hazards.md section 1, which the spec marks as derived). -/
def Obligations.ResetStateFirstAnswers : Prop :=
  ∀ cfg : Config,
    exec .crcRead (State.resetWith cfg) = .next { State.resetWith cfg with resp := some (.okCrc cfg.crcInit) } ∧
    (∀ i : Byte, i.toNat ≤ 15 → exec (.chRead i) (State.resetWith cfg) = .next { State.resetWith cfg with resp := some (.okValue 0) }) ∧
    (∀ k : Byte, k.toNat < cfg.maxFrame → exec (.fbRead k) (State.resetWith cfg) = .next { State.resetWith cfg with resp := some (.okByte 0) }) ∧
    exec .statusRead (State.resetWith cfg) =
      .next { State.resetWith cfg with resp := some (.okStatus [0x00, 0x00, 0x00, 0x00, 0x00, 0x00, 0x00]) } ∧
    exec .next (State.resetWith cfg) = .next { State.resetWith cfg with resp := some (.noFrame 0) } ∧
    exec (.pack 22) (State.resetWith cfg) = .next { State.resetWith cfg with resp := some (.okPacked (List.replicate 22 0)) } ∧
    ∃ t, exec (.buildCh cfg.sync) (State.resetWith cfg) = .next t ∧ t.resp = some (.okFlen 26) ∧
      ∀ k, 3 ≤ k → k < 25 → Memory.read t.fb k = 0

/-- `STATUS_READ` and the status view (10_state.md R28): each field in its bits, reserved bits 0, no state changed. -/
def Obligations.StatusReadShowsEveryField : Prop :=
  (∀ rest, decode (0x02 :: rest) = .command .statusRead rest) ∧
  ∀ s : State, ∃ b0 : Byte,
    exec .statusRead s = .next { s with resp := some (.okStatus [b0, BitVec.ofNat 8 s.count, BitVec.ofNat 8 (s.count / 256), s.skipped.extractLsb' 0 8, s.skipped.extractLsb' 8 8, s.dlen, s.flen]) } ∧
    (s.phase = .seek → b0.extractLsb' 0 2 = 0#2) ∧ (s.phase = .waitLen → b0.extractLsb' 0 2 = 1#2) ∧
    (s.phase = .waitPayload → s.count < 2 + s.dlen.toNat → b0.extractLsb' 0 2 = 2#2) ∧
    (s.phase = .waitPayload → 2 + s.dlen.toNat ≤ s.count → b0.extractLsb' 0 2 = 3#2) ∧
    b0.getLsbD 2 = s.ovf ∧ b0.getLsbD 3 = decide (s.flen ≠ 0) ∧ b0.extractLsb' 4 4 = 0#4

/-- `CLR_FLAGS` (44_system.md R143): `OVF <- 0; respond OK`, nothing else changes. -/
def Obligations.ClrFlagsClearsOvfOnly : Prop :=
  (∀ rest, decode (0x03 :: rest) = .command .clrFlags rest) ∧
  ∀ s : State, exec .clrFlags s = .next { s with ovf := false, resp := some .ok }

/-- `OVF` (10_state.md R26): set by a `PUSH` that discards a pending byte and by nothing else, never cleared by any command but
`CLR_FLAGS` and `RESET`, 0 at reset. -/
def Obligations.OvfIsStickyUntilCleared : Prop :=
  (∀ (s t : State) (d : List Byte), s.count ≤ s.cfg.ringN → s.cfg.ringN < s.count + d.length → exec (.push d) s = .next t → t.ovf = true) ∧
  (∀ (i : Instr) (s t : State), exec i s = .next t → s.ovf = true → t.ovf = false → i = .clrFlags ∨ i = .reset) ∧
  (∀ (i : Instr) (s t : State), exec i s = .next t → s.ovf = false → t.ovf = true →
    ∃ d n, i = .push d ∧ t.resp = some (.bufferOverflow n)) ∧
  (∀ s t : State, exec .clrFlags s = .next t ∨ exec .reset s = .next t → t.ovf = false) ∧ State.reset.ovf = false

/-! ## The checksum unit -/

/-- `CRC_RESET` (40_crc.md R83): `CRC <- CRC_INIT; respond OK`. -/
def Obligations.CrcResetLoadsInit : Prop :=
  (∀ rest, decode (0x10 :: rest) = .command .crcReset rest) ∧
  ∀ s : State, exec .crcReset s = .next { s with crc := s.cfg.crcInit, resp := some .ok }

/-- `CRC_UPDATE` (40_crc.md R84): the accumulator goes on from whatever it holds through `T[c ^ b]` for each byte; the empty sequence
changes nothing, and splitting a sequence over two commands gives the same `CRC`. -/
def Obligations.CrcUpdateAccumulates : Prop :=
  (∀ (n : Byte) (d rest : List Byte), d.length = n.toNat → decode (0x11 :: n :: (d ++ rest)) = .command (.crcUpdate d) rest) ∧
  (∀ (s : State) (d : List Byte), exec (.crcUpdate d) s = .next { s with crc := d.foldl (fun c b => crcTable s.cfg (c ^^^ b)) s.crc, resp := some .ok }) ∧
  (∀ s : State, exec (.crcUpdate []) s = .next { s with resp := some .ok }) ∧
  ∀ (s : State) (x y : List Byte), ∃ t u v, exec (.crcUpdate x) s = .next t ∧ exec (.crcUpdate y) t = .next u ∧
    exec (.crcUpdate (x ++ y)) s = .next v ∧ u = v

/-- `CRC_READ` (40_crc.md R85): `respond OK(crc = CRC)`, state unchanged. -/
def Obligations.CrcReadAnswersCrc : Prop :=
  (∀ rest, decode (0x12 :: rest) = .command .crcRead rest) ∧
  ∀ s : State, exec .crcRead s = .next { s with resp := some (.okCrc s.crc) }

/-- The accumulation law (40_crc.md section 3, which the spec marks as derived): after `CRC_RESET` and any number of `CRC_UPDATE`
commands the register holds `crc8` of the concatenation; and `CRC_COMPUTE` (30_encoding.md Part C), a sequence of commands that the
encoding can carry (Part B: at most 255 data bytes each), answers `crc8` of its bytes, however many they are. -/
def Obligations.CrcOfChunksIsCrcOfConcatenation : Prop :=
  (∀ (s : State) (xs : List (List Byte)), ∃ rs t,
    runCommands (.crcReset :: xs.map Instr.crcUpdate) s = some (rs, t) ∧ t.crc = crc8 s.cfg xs.flatten) ∧
  ∀ (s : State) (bs : List Byte), (∀ i ∈ crcComputeCmds bs, i.wf = true) ∧
    crcCompute bs s = some (.okCrc (crc8 s.cfg bs), { s with crc := crc8 s.cfg bs, resp := some (.okCrc (crc8 s.cfg bs)) })

/-- What the table `T` is, for every polynomial (from the loop of 40_crc.md section 1, which the spec marks as general knowledge): it is
linear over exclusive-or, `T[0x01]` is the polynomial, and each further power of two is one turn of the loop from the one before. That
fixes every one of its 256 entries. -/
def Obligations.CrcTableIsLinear : Prop :=
  ∀ cfg : Config,
    (∀ a b : Byte, crcTable cfg (a ^^^ b) = crcTable cfg a ^^^ crcTable cfg b) ∧
    crcTable cfg 0x01 = cfg.crcPoly ∧
    ∀ k, k < 7 → crcTable cfg (BitVec.ofNat 8 (2 ^ (k + 1))) =
      (crcTable cfg (BitVec.ofNat 8 (2 ^ k)) <<< 1) ^^^
        (if (crcTable cfg (BitVec.ofNat 8 (2 ^ k))).getLsbD 7 = true then cfg.crcPoly else 0)

/-- The detection law (40_crc.md section 3, which the spec marks as derived): with an odd polynomial, changing exactly one byte of the
covered range of a valid frame makes it invalid. -/
def Obligations.SingleByteChangeIsDetected : Prop :=
  ∀ (cfg : Config) (f : List Byte) (k : Nat) (v : Byte), cfg.crcPoly.getLsbD 0 = true → frameValid cfg f = true →
    2 ≤ k → k + 1 < f.length → v ≠ f.getD k 0 → frameValid cfg (f.set k v) = false

/-- The residue laws (40_crc.md section 3, which the spec marks as derived): the covered range of a valid frame followed by its checksum
gives 0 when `CRC_INIT = 0`, and then zero bytes ahead of a sequence do not change its checksum. -/
def Obligations.CrcResidueIsZero : Prop :=
  ∀ cfg : Config, cfg.crcInit = 0 →
    (∀ f : List Byte, frameValid cfg f = true → crc8 cfg (f.drop 2) = 0) ∧
    ∀ (n : Nat) (bs : List Byte), crc8 cfg (List.replicate n 0 ++ bs) = crc8 cfg bs

/-! ## The channel codec -/

/-- `CH_WRITE` (41_channel_codec.md R93): one register takes the operand modulo 2048; an index above 15 is `IllegalCommand(0x20)`. -/
def Obligations.ChWriteTruncatesToElevenBits : Prop :=
  (∀ (idx lo hi : Byte) (rest : List Byte),
    decode (0x20 :: idx :: lo :: hi :: rest) = .command (.chWrite idx (BitVec.ofNat 16 (lo.toNat + 256 * hi.toNat))) rest) ∧
  (∀ (s : State) (idx : Byte) (v : Half) (h : idx.toNat < 16),
    exec (.chWrite idx v) s = .next { s with ch := s.ch.set idx.toNat (BitVec.ofNat 11 (v.toNat % 2048)) h, resp := some .ok }) ∧
  ∀ (s : State) (idx : Byte) (v : Half), 15 < idx.toNat →
    exec (.chWrite idx v) s = .next { s with resp := some (.illegalCommand 0x20) }

/-- `CH_READ` (41_channel_codec.md R94): the register zero-extended to 16 bits; an index above 15 is `IllegalCommand(0x21)`. -/
def Obligations.ChReadZeroExtends : Prop :=
  (∀ (idx : Byte) (rest : List Byte), decode (0x21 :: idx :: rest) = .command (.chRead idx) rest) ∧
  (∀ (s : State) (idx : Byte) (h : idx.toNat < 16),
    exec (.chRead idx) s = .next { s with resp := some (.okValue (BitVec.ofNat 16 (s.ch[idx.toNat]'h).toNat)) }) ∧
  ∀ (s : State) (idx : Byte), 15 < idx.toNat → exec (.chRead idx) s = .next { s with resp := some (.illegalCommand 0x21) }

/-- `PACK` (41_channel_codec.md R95): 22 bytes of `pack(CH)` when the window has at least 22 bytes, else `BufferTooSmall`; state
unchanged. -/
def Obligations.PackAnswersTwentyTwoBytes : Prop :=
  (∀ (wlen : Byte) (rest : List Byte), decode (0x22 :: wlen :: rest) = .command (.pack wlen) rest) ∧
  (∀ (s : State) (wlen : Byte), 22 ≤ wlen.toNat →
    exec (.pack wlen) s = .next { s with resp := some (.okPacked (packChannels s.ch)) } ∧ (packChannels s.ch).length = 22) ∧
  ∀ (s : State) (wlen : Byte), wlen.toNat < 22 → exec (.pack wlen) s = .next { s with resp := some .bufferTooSmall }

/-- `UNPACK` (41_channel_codec.md R96): all sixteen registers from the first 22 bytes, the rest ignored; fewer than 22 bytes is
`BufferTooSmall` with `CH` unchanged. -/
def Obligations.UnpackLoadsAllChannels : Prop :=
  (∀ (n : Byte) (d rest : List Byte), d.length = n.toNat → decode (0x23 :: n :: (d ++ rest)) = .command (.unpack d) rest) ∧
  (∀ (s : State) (p extra : List Byte), p.length = 22 →
    exec (.unpack (p ++ extra)) s = .next { s with ch := unpackChannels p, resp := some .ok }) ∧
  ∀ (s : State) (d : List Byte), d.length < 22 → exec (.unpack d) s = .next { s with resp := some .bufferTooSmall }

/-- The bit layout of the packed channels (20_memory.md section 2, an order the spec takes from general knowledge, log 4): bit `j` of
channel `i` is stream bit `11*i + j`, which is bit `(11*i+j) mod 8` of byte `(11*i+j) div 8`, in both directions. -/
def Obligations.PackedChannelsAreLittleEndianBits : Prop :=
  (∀ (chans : Vector Chan 16) (i : Fin 16) (j : Nat), j < 11 →
    ((packChannels chans).getD ((11 * i.val + j) / 8) 0).getLsbD ((11 * i.val + j) % 8) = chans[i].getLsbD j) ∧
  ∀ (p : List Byte) (i : Fin 16) (j : Nat), p.length = 22 → j < 11 →
    (unpackChannels p)[i].getLsbD j = (p.getD ((11 * i.val + j) / 8) 0).getLsbD ((11 * i.val + j) % 8)

/-- The round trip (41_channel_codec.md section 3, which the spec marks as derived): `pack` and `unpack` are inverse, and so are the
commands. -/
def Obligations.PackAndUnpackAreInverse : Prop :=
  (∀ chans : Vector Chan 16, unpackChannels (packChannels chans) = chans) ∧
  (∀ p : List Byte, p.length = 22 → packChannels (unpackChannels p) = p) ∧
  (∀ (s : State) (p : List Byte), p.length = 22 → ∃ t u, exec (.unpack p) s = .next t ∧ exec (.pack 22) t = .next u ∧
    u.resp = some (.okPacked p)) ∧
  ∀ s : State, ∃ t u, exec (.pack 22) s = .next t ∧ t.resp = some (.okPacked (packChannels s.ch)) ∧
    exec (.unpack (packChannels s.ch)) t = .next u ∧ u.ch = s.ch

/-! ## Frame construction -/

/-- `BUILD_SIMPLE` (42_frame_build.md R102): when the frame fits, `FB` holds exactly `sync, L, type, d, crc8(type, d)` over a zero fill,
`L = p + 2`, and `FLEN = p + 4`; when it does not, `BufferTooSmall` and nothing is written. -/
def Obligations.BuildSimpleWritesFrame : Prop :=
  (∀ (sync ty p : Byte) (d rest : List Byte), d.length = p.toNat →
    decode (0x30 :: sync :: ty :: p :: (d ++ rest)) = .command (.buildSimple sync ty d) rest) ∧
  (∀ (s : State) (sync ty : Byte) (d : List Byte), d.length + 2 ≤ s.cfg.maxLen → ∃ fb' : Memory,
    exec (.buildSimple sync ty d) s = .next { s with fb := fb', flen := BitVec.ofNat 8 (d.length + 4), resp := some (.okFlen (BitVec.ofNat 8 (d.length + 4))) } ∧
    ∀ k, Memory.read fb' k = ([sync, BitVec.ofNat 8 (d.length + 2), ty] ++ d ++ [crc8 s.cfg (ty :: d)]).getD k 0) ∧
  ∀ (s : State) (sync ty : Byte) (d : List Byte), s.cfg.maxLen < d.length + 2 →
    exec (.buildSimple sync ty d) s = .next { s with resp := some .bufferTooSmall }

/-- `BUILD_EXT` (42_frame_build.md R103): as `BUILD_SIMPLE` with destination and then source address after the type, both covered by the
checksum, `L = p + 4`, `FLEN = p + 6`. -/
def Obligations.BuildExtWritesFrame : Prop :=
  (∀ (sync ty dst src p : Byte) (d rest : List Byte), d.length = p.toNat →
    decode (0x31 :: sync :: ty :: dst :: src :: p :: (d ++ rest)) = .command (.buildExt sync ty dst src d) rest) ∧
  (∀ (s : State) (sync ty dst src : Byte) (d : List Byte), d.length + 4 ≤ s.cfg.maxLen → ∃ fb' : Memory,
    exec (.buildExt sync ty dst src d) s = .next { s with fb := fb', flen := BitVec.ofNat 8 (d.length + 6), resp := some (.okFlen (BitVec.ofNat 8 (d.length + 6))) } ∧
    ∀ k, Memory.read fb' k =
      ([sync, BitVec.ofNat 8 (d.length + 4), ty, dst, src] ++ d ++ [crc8 s.cfg (ty :: dst :: src :: d)]).getD k 0) ∧
  ∀ (s : State) (sync ty dst src : Byte) (d : List Byte), s.cfg.maxLen < d.length + 4 →
    exec (.buildExt sync ty dst src d) s = .next { s with resp := some .bufferTooSmall }

/-- `BUILD_CH` (42_frame_build.md R104): `build(sync, TYPE_RC, (), pack(CH))`, which no legal parameter set lets fail: `L = 24`, 26
bytes. -/
def Obligations.BuildChWritesFrame : Prop :=
  (∀ (sync : Byte) (rest : List Byte), decode (0x32 :: sync :: rest) = .command (.buildCh sync) rest) ∧
  ∀ (s : State) (sync : Byte), ∃ fb' : Memory,
    exec (.buildCh sync) s = .next { s with fb := fb', flen := 26, resp := some (.okFlen 26) } ∧
    ∀ k, Memory.read fb' k =
      ([sync, 24, s.cfg.typeRC] ++ packChannels s.ch ++ [crc8 s.cfg (s.cfg.typeRC :: packChannels s.ch)]).getD k 0

/-- `FB_READ` (42_frame_build.md R105): the byte at the offset; at or beyond `MAX_FRAME`, `IllegalCommand(0x33)`; between `FLEN` and
`MAX_FRAME` it answers 0 in every state of the hardware. -/
def Obligations.FbReadAnswersByte : Prop :=
  (∀ (off : Byte) (rest : List Byte), decode (0x33 :: off :: rest) = .command (.fbRead off) rest) ∧
  (∀ (s : State) (off : Byte), off.toNat < s.cfg.maxFrame →
    exec (.fbRead off) s = .next { s with resp := some (.okByte (Memory.read s.fb off.toNat)) }) ∧
  (∀ (s : State) (off : Byte), s.cfg.maxFrame ≤ off.toNat →
    exec (.fbRead off) s = .next { s with resp := some (.illegalCommand 0x33) }) ∧
  ∀ (s : State) (off : Byte), Inv s → s.flen.toNat ≤ off.toNat → off.toNat < s.cfg.maxFrame →
    exec (.fbRead off) s = .next { s with resp := some (.okByte 0) }

/-- Every frame a `BUILD` command leaves in `FB` is valid and has `FB[1] = FLEN - 2` (42_frame_build.md section 3, which the spec marks
as derived; `frame_valid` is 30_encoding.md R64), and `FB_DUMP` (30_encoding.md Part C) then answers that frame and changes no element. -/
def Obligations.BuiltFramesAreValid : Prop :=
  ∀ (i : Instr) (s t : State), (∃ sync ty d, i = .buildSimple sync ty d) ∨ (∃ sync ty dst src d, i = .buildExt sync ty dst src d) ∨
      (∃ sync, i = .buildCh sync) → exec i s = .next t → t.resp ≠ some .bufferTooSmall →
    frameValid t.cfg (currentFrame t) = true ∧ (Memory.read t.fb 1).toNat + 2 = t.flen.toNat ∧
    ∃ r, fbDump t = some (currentFrame t, { t with resp := r })

/-- `frame_valid` (30_encoding.md R64): length in bounds, the length byte the size less 2, the last byte the checksum of offsets 2 to
`n - 2`; the sync byte is not tested. -/
def Obligations.FrameValidIsTheRule : Prop :=
  (∀ (cfg : Config) (f : List Byte), frameValid cfg f = true ↔
    4 ≤ f.length ∧ f.length ≤ cfg.maxFrame ∧ ∃ sync len body trailer, f = sync :: len :: (body ++ [trailer]) ∧
      len.toNat = f.length - 2 ∧ crc8 cfg body = trailer) ∧
  ∀ (cfg : Config) (f : List Byte) (a b : Byte), frameValid cfg (a :: f) = frameValid cfg (b :: f)

/-- Sync independence (42_frame_build.md section 3, which the spec marks as derived): two constructions that differ only in the sync
byte differ only in byte 0 of `FB`. -/
def Obligations.SyncByteIsNotCovered : Prop :=
  (∀ (s t u : State) (a b ty : Byte) (d : List Byte), exec (.buildSimple a ty d) s = .next t → exec (.buildSimple b ty d) s = .next u →
    t.flen = u.flen ∧ ∀ k, 1 ≤ k → Memory.read t.fb k = Memory.read u.fb k) ∧
  (∀ (s t u : State) (a b ty dst src : Byte) (d : List Byte), exec (.buildExt a ty dst src d) s = .next t →
    exec (.buildExt b ty dst src d) s = .next u → t.flen = u.flen ∧ ∀ k, 1 ≤ k → Memory.read t.fb k = Memory.read u.fb k) ∧
  ∀ (s t u : State) (a b : Byte), exec (.buildCh a) s = .next t → exec (.buildCh b) s = .next u →
    t.flen = u.flen ∧ Memory.read t.fb 0 = a ∧ ∀ k, 1 ≤ k → Memory.read t.fb k = Memory.read u.fb k

/-! ## PUSH -/

/-- `PUSH` (43_parser.md R114). While the ring has room every byte is appended and nothing else changes; when it has not, the oldest
bytes are dropped, as many as do not fit, the parser resynchronizes, `OVF` is set and the response counts the dropped bytes. In
both cases the cells written are those at the write cursor and after it, one for each byte. -/
def Obligations.PushAppendsAndDropsOldest : Prop :=
  (∀ (n : Byte) (d rest : List Byte), d.length = n.toNat → decode (0x40 :: n :: (d ++ rest)) = .command (.push d) rest) ∧
  (∀ (s : State) (d : List Byte), Memory.wf s.rb = true → s.count + d.length ≤ s.cfg.ringN → ∃ t,
    exec (.push d) s = .next t ∧ t = { s with rb := t.rb, count := s.count + d.length, resp := some .ok } ∧
    pending t = pending s ++ d ∧
    ∀ a, (∀ j, j < d.length → a ≠ (s.head + (s.count + j)) % s.cfg.ringN) → Memory.read t.rb a = Memory.read s.rb a) ∧
  ∀ (s : State) (d : List Byte) (k : Nat), Memory.wf s.rb = true → s.count ≤ s.cfg.ringN → 0 < k →
    s.count + d.length = s.cfg.ringN + k → ∃ t,
    exec (.push d) s = .next t ∧
    t = { s with rb := t.rb, head := (s.head + k) % s.cfg.ringN, count := s.cfg.ringN, phase := .seek, dlen := 0, ovf := true, resp := some (.bufferOverflow (BitVec.ofNat 16 k)) } ∧
    pending t = (pending s ++ d).drop k ∧
    ∀ a, (∀ j, j < d.length → a ≠ (s.head + (s.count + j)) % s.cfg.ringN) → Memory.read t.rb a = Memory.read s.rb a

/-! ## NEXT -/

/-- `NEXT` when no pending byte is `SYNC` (43_parser.md R117): all are discarded and counted, the answer is `NONE`. -/
def Obligations.NextDiscardsNoise : Prop :=
  ∀ s : State, Inv s → (∀ b ∈ pending s, b ≠ s.cfg.sync) →
    exec .next s = .next { s with head := (s.head + s.count) % s.cfg.ringN, count := 0, skipped := BitVec.ofNat 16 s.count, resp := some (.noFrame (BitVec.ofNat 16 s.count)) }

/-- `NEXT` when only the sync byte of a candidate is pending (43_parser.md R118): `NONE`, and the sync byte is kept. -/
def Obligations.NextWaitsForLength : Prop :=
  ∀ (s : State) (noise : List Byte), Inv s → pending s = noise ++ [s.cfg.sync] → (∀ b ∈ noise, b ≠ s.cfg.sync) →
    exec .next s = .next { s with head := (s.head + noise.length) % s.cfg.ringN, count := 1, phase := .waitLen, dlen := 0, skipped := BitVec.ofNat 16 noise.length, resp := some (.noFrame (BitVec.ofNat 16 noise.length)) }

/-- `NEXT` on a candidate whose length byte is below `MIN_LEN` or above `MAX_LEN` (43_parser.md R119): `InvalidLength`, exactly the sync
byte is dropped, the length byte stays; a length byte within the bounds is never answered `InvalidLength`. -/
def Obligations.NextRejectsIllegalLength : Prop :=
  (∀ (s : State) (noise tail : List Byte) (len : Byte), Inv s → HasCandidate s noise len tail → ¬ LegalLength s.cfg len → ∃ t,
    exec .next s = .next t ∧ pending t = len :: tail ∧
    t = { s with head := (s.head + (noise.length + 1)) % s.cfg.ringN, count := s.count - (noise.length + 1), phase := .seek, dlen := 0, skipped := BitVec.ofNat 16 noise.length, resp := some (.invalidLength (BitVec.ofNat 16 noise.length) len) }) ∧
  ∀ (s : State) (noise tail : List Byte) (len : Byte), Inv s → HasCandidate s noise len tail → LegalLength s.cfg len → ∃ t,
    exec .next s = .next t ∧ ∀ sk l, t.resp ≠ some (.invalidLength sk l)

/-- `NEXT` on a candidate whose bytes are not all pending (43_parser.md R120): `NONE`, the parser waits in `WAIT_PAYLOAD` with the
length latched, and every byte of the candidate is kept. -/
def Obligations.NextWaitsForPayload : Prop :=
  ∀ (s : State) (noise tail : List Byte) (len : Byte), Inv s → HasCandidate s noise len tail → LegalLength s.cfg len →
    tail.length < len.toNat → ∃ t,
    exec .next s = .next t ∧ pending t = s.cfg.sync :: len :: tail ∧
    t = { s with head := (s.head + noise.length) % s.cfg.ringN, count := s.count - noise.length, phase := .waitPayload, dlen := len, skipped := BitVec.ofNat 16 noise.length, resp := some (.noFrame (BitVec.ofNat 16 noise.length)) }

/-- `NEXT` on a complete candidate whose trailing byte is not the checksum of its covered range (43_parser.md R121):
`ChecksumMismatch`, exactly the sync byte is dropped, neither `FB`, `FLEN` nor `CH` is written. -/
def Obligations.NextRejectsBadChecksum : Prop :=
  ∀ (s : State) (noise tail : List Byte) (len : Byte), Inv s → HasCandidate s noise len tail → LegalLength s.cfg len →
    len.toNat ≤ tail.length → ¬ ChecksumMatches s.cfg len tail → ∃ t,
    exec .next s = .next t ∧ pending t = len :: tail ∧
    t = { s with head := (s.head + (noise.length + 1)) % s.cfg.ringN, count := s.count - (noise.length + 1), phase := .seek, dlen := 0, skipped := BitVec.ofNat 16 noise.length, resp := some (.checksumMismatch (BitVec.ofNat 16 noise.length) (crc8 s.cfg (tail.take (len.toNat - 1))) (tail.getD (len.toNat - 1) 0)) }

/-- `NEXT` on a candidate whose checksum matches (43_parser.md R122): whatever the type, the frame is copied to `FB` over a zero fill,
`FLEN` is its size, it is removed from the ring whole, and the frame in `FB` is valid; the answer is the frame, or that its type is unknown,
or that its window is too short. -/
def Obligations.NextConsumesValidFrame : Prop :=
  ∀ (s : State) (noise tail : List Byte) (len : Byte), Inv s → HasCandidate s noise len tail → LegalLength s.cfg len →
    ChecksumMatches s.cfg len tail → ∃ t,
    exec .next s = .next t ∧ pending t = tail.drop len.toNat ∧
    (∀ k, Memory.read t.fb k = (s.cfg.sync :: len :: tail.take len.toNat).getD k 0) ∧
    frameValid t.cfg (currentFrame t) = true ∧ Memory.read t.fb 0 = s.cfg.sync ∧
    (∃ r, t.resp = some r ∧ r.code ∈ [.frameChannels, .frameRaw, .unknownPacketType, .bufferTooSmall]) ∧
    t = { s with fb := t.fb, ch := t.ch, resp := t.resp, flen := BitVec.ofNat 8 (len.toNat + 2), head := (s.head + (noise.length + (len.toNat + 2))) % s.cfg.ringN, count := s.count - (noise.length + (len.toNat + 2)), phase := .seek, dlen := 0, skipped := BitVec.ofNat 16 noise.length }

/-- `NEXT` on a valid frame of a type that is not in `TYPE_TABLE` (43_parser.md R126): `UnknownPacketType`, the frame consumed and in
`FB`, `CH` not written. -/
def Obligations.NextReportsUnknownType : Prop :=
  ∀ (s : State) (noise tail : List Byte) (len : Byte), Inv s → HasCandidate s noise len tail → LegalLength s.cfg len →
    ChecksumMatches s.cfg len tail → lookupType s.cfg.typeTable (tail.getD 0 0) = none → ∃ t,
    exec .next s = .next t ∧ t.ch = s.ch ∧ currentFrame t = s.cfg.sync :: len :: tail.take len.toNat ∧
    pending t = tail.drop len.toNat ∧ t.resp = some (.unknownPacketType (BitVec.ofNat 16 noise.length) (tail.getD 0 0))

/-- `NEXT` on a valid frame of a known type (43_parser.md R127 to R129). A payload window shorter than the type's `LEN`, or no room for
the addresses, is `BufferTooSmall` with `CH` not written; otherwise, and whether or not the window is longer than `LEN`, a
packed-channels frame loads `CH` from offsets 3 to 24 and answers `FRAME_CHANNELS`, any other answers `FRAME_RAW` and leaves `CH`. In
every case the frame is consumed and in `FB`. -/
def Obligations.NextDispatchesKnownType : Prop :=
  ∀ (s : State) (noise tail : List Byte) (len : Byte) (row : TypeRow), Inv s → HasCandidate s noise len tail →
    LegalLength s.cfg len → ChecksumMatches s.cfg len tail → lookupType s.cfg.typeTable (tail.getD 0 0) = some row → ∃ t,
    exec .next s = .next t ∧ currentFrame t = s.cfg.sync :: len :: tail.take len.toNat ∧ pending t = tail.drop len.toNat ∧
    (len.toNat < kindOverhead row.kind + row.len.toNat → t.ch = s.ch ∧
      t.resp = some (.frameTooShort (BitVec.ofNat 16 noise.length) (tail.getD 0 0) row.len (BitVec.ofNat 8 (len.toNat - kindOverhead row.kind)))) ∧
    (kindOverhead row.kind + row.len.toNat ≤ len.toNat → tail.getD 0 0 = s.cfg.typeRC →
      t.ch = unpackChannels ((tail.drop 1).take 22) ∧
      t.resp = some (.frameChannels (BitVec.ofNat 16 noise.length) s.cfg.typeRC 0 3 (BitVec.ofNat 8 (len.toNat - 2)))) ∧
    (kindOverhead row.kind + row.len.toNat ≤ len.toNat → tail.getD 0 0 ≠ s.cfg.typeRC → t.ch = s.ch ∧
      t.resp = some (.frameRaw (BitVec.ofNat 16 noise.length) (tail.getD 0 0) (match row.kind with | .simple => 0 | .extended => 1) (match row.kind with | .simple => 3 | .extended => 5) (BitVec.ofNat 8 (len.toNat - kindOverhead row.kind))))

/-- `SKIPPED` (10_state.md R27; 43_parser.md R117): after a `NEXT` it is the number of bytes ahead of the first sync byte, whatever the
outcome, and the response carries it; those bytes are gone from the ring; it never passes `RING_N`; no other command but `RESET`
writes it; 0 at reset. -/
def Obligations.SkippedCountsNoise : Prop :=
  (∀ (s t : State) (noise rest : List Byte), Inv s → pending s = noise ++ rest → (∀ b ∈ noise, b ≠ s.cfg.sync) →
    (∀ b, rest.head? = some b → b = s.cfg.sync) → exec .next s = .next t →
    t.skipped.toNat = noise.length ∧ t.skipped.toNat ≤ t.cfg.ringN ∧ (∃ r, t.resp = some r ∧ skippedField r = some t.skipped) ∧
    ∃ k, pending t = rest.drop k) ∧
  (∀ (i : Instr) (s t : State), i ≠ .next → i ≠ .reset → exec i s = .next t → t.skipped = s.skipped) ∧ State.reset.skipped = 0

/-- `NEXT` writes `CH` only when it answers `FRAME_CHANNELS`, and neither `FB` nor `FLEN` when it answers `NONE`, `InvalidLength` or
`ChecksumMismatch` (70_reset_and_hazards.md section 2). -/
def Obligations.NextWritesOnlyWhatItYields : Prop :=
  ∀ s t : State, exec .next s = .next t →
    ((∀ sk ty kind poff plen, t.resp ≠ some (.frameChannels sk ty kind poff plen)) → t.ch = s.ch) ∧
    ((∃ sk, t.resp = some (.noFrame sk)) ∨ (∃ sk len, t.resp = some (.invalidLength sk len)) ∨
      (∃ sk a b, t.resp = some (.checksumMismatch sk a b)) → t.fb = s.fb ∧ t.flen = s.flen)

/-- A `NEXT` straight after one that answered `NONE` answers `NONE(0)` and changes nothing but `SKIPPED` (20_memory.md section 3,
43_parser.md section 4, which the spec marks as derived). -/
def Obligations.NextAfterNoneIsIdle : Prop :=
  ∀ (s t : State) (k : Half), exec .next s = .next t → t.resp = some (.noFrame k) →
    exec .next t = .next { t with skipped := 0, resp := some (.noFrame 0) }

/-- The loop of `NEXT` ends within `COUNT + 3` turns in every state (43_parser.md section 4, which the spec marks as derived): more turns
change nothing, and the bound is never the reason for a stop (log 12). -/
def Obligations.NextLoopIsBounded : Prop :=
  ∀ (s : State) (n : Nat), s.count + 3 ≤ n → nextLoop n s = nextLoop (s.count + 3) s ∧ nextLoop n s ≠ .fault .turnBoundExceeded

/-- Order and uniqueness (43_parser.md section 4; 20_memory.md section 5): a `NEXT` removes a run of the oldest pending bytes and adds none,
and a frame it yields is the last part of what it removed. -/
def Obligations.NextTakesOldestBytesInOrder : Prop :=
  ∀ s t : State, Inv s → exec .next s = .next t → ∃ k, k ≤ s.count ∧ pending t = (pending s).drop k ∧
    (∀ r, t.resp = some r → r.code ∈ [.frameChannels, .frameRaw, .unknownPacketType, .bufferTooSmall] →
      ∃ j, j < k ∧ currentFrame t = ((pending s).drop j).take (k - j))

/-- After a `NEXT` that answers `NONE` at most `MAX_FRAME - 1` bytes are pending, so a `PUSH` of at most `RING_N - MAX_FRAME + 1` bytes
does not overflow (70_reset_and_hazards.md section 2, which the spec marks as derived). -/
def Obligations.DrainedRingHasRoom : Prop :=
  ∀ (s t : State) (k : Half), Inv s → exec .next s = .next t → t.resp = some (.noFrame k) →
    t.count ≤ t.cfg.maxFrame - 1 ∧
    ∀ d : List Byte, d.length ≤ t.cfg.ringN - t.cfg.maxFrame + 1 → ∃ u, exec (.push d) t = .next u ∧ u.resp = some .ok

/-- Chunking does not matter (43_parser.md section 4, which the spec marks as derived), its core: an outcome other than `NONE` is decided
by bytes already pending, so a `PUSH` that does not overflow may stand before or after that `NEXT`. -/
def Obligations.PushCommutesWithDecidedNext : Prop :=
  ∀ (s t : State) (d : List Byte), Inv s → s.count + d.length ≤ s.cfg.ringN → exec .next s = .next t →
    (∀ k, t.resp ≠ some (.noFrame k)) → ∃ s1 t1 t2, exec (.push d) s = .next s1 ∧ exec .next s1 = .next t1 ∧
      exec (.push d) t = .next t2 ∧ t1.resp = t.resp ∧ t1 = { t2 with resp := t.resp }

/-- Partial delivery (43_parser.md section 4, which the spec marks as derived): a valid frame pushed in two parts, cut anywhere, with a
`NEXT` between them, yields `NONE`, then the frame, then `NONE`, and leaves the frame in `FB`. -/
def Obligations.SplitFrameIsDeliveredOnce : Prop :=
  ∀ (s : State) (a b : List Byte), Inv s → s.count = 0 → b ≠ [] → frameValid s.cfg (a ++ b) = true →
    (a ++ b).getD 0 0 = s.cfg.sync → ∃ s1 s2 s3 s4 s5, exec (.push a) s = .next s1 ∧ s1.resp = some .ok ∧
      exec .next s1 = .next s2 ∧ s2.resp = some (.noFrame 0) ∧ exec (.push b) s2 = .next s3 ∧ s3.resp = some .ok ∧
      exec .next s3 = .next s4 ∧ currentFrame s4 = a ++ b ∧ s4.count = 0 ∧
      (∀ r, s4.resp = some r → r.code ∈ [.frameChannels, .frameRaw, .unknownPacketType, .bufferTooSmall]) ∧
      exec .next s4 = .next s5 ∧ s5.resp = some (.noFrame 0)

/-- Loop-back of a channels frame (42_frame_build.md section 3, which the spec marks as derived): built with `SYNC`, pushed into an empty
ring and parsed, it yields `FRAME_CHANNELS` with the channel values it was built from, and then `NONE`. -/
def Obligations.ChannelsFrameLoopsBack : Prop :=
  ∀ s : State, Inv s → s.count = 0 → ∃ t u v w, exec (.buildCh s.cfg.sync) s = .next t ∧
    exec (.push (currentFrame t)) t = .next u ∧ exec .next u = .next v ∧
    v.resp = some (.frameChannels 0 s.cfg.typeRC 0 3 22) ∧ v.ch = s.ch ∧ v.count = 0 ∧
    exec .next v = .next w ∧ w.resp = some (.noFrame 0)

/-! ## The whole machine -/

/-- The invariants of 10_state.md section 4 hold at reset, for every parameter set and so for `State.reset`. -/
def Obligations.ResetMeetsInvariants : Prop := (∀ cfg : Config, Inv (State.resetWith cfg)) ∧ Inv State.reset

/-- Every step keeps the invariants of 10_state.md section 4 (I1 to I7, which the spec marks as derived) and the canonical form of the
memories. -/
def Obligations.StepKeepsInvariants : Prop := ∀ s t : State, Inv s → step s = .next t → Inv t

/-- Every command of every state of the hardware is answered (60_exceptions.md section 1): a next state and a response; no command faults
the block. -/
def Obligations.EveryCommandIsAnswered : Prop :=
  (∀ (i : Instr) (s : State), Inv s → Answered (exec i s)) ∧ ∀ (s : State) (r : Fault), Inv s → step s ≠ .fault r

/-- Bytes of `RB` outside the pending window are not observable by any command (10_state.md section 2): two states that differ only in
such cells answer alike and go on differing only in such cells. So the model's choice for unwritten cells (log 6) has no effect. -/
def Obligations.RingCellsOutsideWindowAreUnobservable : Prop :=
  ∀ (i : Instr) (s : State) (r : Memory), Inv s → Memory.wf r = true → pending { s with rb := r } = pending s →
    ∃ t r', exec i s = .next t ∧ exec i { s with rb := r } = .next { t with rb := r' } ∧ Memory.wf r' = true ∧
      pending { t with rb := r' } = pending t
end

