-- ==== Sys2Proof/Laws/Config.lean ====
section
/-! SUPPORT. What the constraints of spec/00_scope.md R10 give of a configuration. -/

namespace Sys2Proof

theorem Config.maxFrame_ge (cfg : Config) : 26 ≤ cfg.maxFrame := by
  have := cfg.legal; simp [Params.isLegal] at this; omega

theorem Config.maxFrame_le (cfg : Config) : cfg.maxFrame ≤ 255 := by
  have := cfg.legal; simp [Params.isLegal] at this; omega

theorem Config.maxFrame_le_ringN (cfg : Config) : cfg.maxFrame ≤ cfg.ringN := by
  have := cfg.legal; simp [Params.isLegal] at this; omega

theorem Config.ringN_le (cfg : Config) : cfg.ringN ≤ 65535 := by
  have := cfg.legal; simp [Params.isLegal] at this; omega

theorem Config.ringN_pos (cfg : Config) : 0 < cfg.ringN := by
  have := cfg.maxFrame_ge; have := cfg.maxFrame_le_ringN; omega

theorem Config.lookup_typeRC (cfg : Config) : lookupType cfg.typeTable cfg.typeRC = some ⟨cfg.typeRC, .simple, 22⟩ := by
  have := cfg.legal; simp [Params.isLegal] at this; tauto

theorem Config.lenDeviceInfo_le (cfg : Config) : cfg.lenDeviceInfo.toNat + Config.ovhExt ≤ cfg.maxLen := by
  have := cfg.legal; simp [Params.isLegal] at this; omega

/-- The device-info row, where the table has one: its `LEN` is `LEN_DEVICE_INFO`. -/
theorem Config.lookup_deviceInfo (cfg : Config) (t : Byte) (h : cfg.deviceInfoTag = some t) :
    t ≠ cfg.typeRC ∧ ∃ row, lookupType cfg.typeTable t = some row ∧ row.len = cfg.lenDeviceInfo := by
  have hd : cfg.deviceInfoAgrees = true := by have := cfg.legal; simp only [Params.isLegal, Bool.and_eq_true] at this; exact this.2
  simpa [Params.deviceInfoAgrees, h] using hd

end Sys2Proof
end

