-- ==== Sys2Proof/Laws/Conditions.lean ====
section
/-! SUPPORT. The Boolean tests of the meanings as propositions, so that a proof rewrites with the test and does not unfold it. -/

namespace Sys2Proof.Machine

theorem windowTooShort_iff (n : Nat) : windowTooShort n = true ↔ n < 22 := by simp [windowTooShort]

theorem lengthIllegal_iff (cfg : Config) (len : Byte) : lengthIllegal cfg len = true ↔ ¬ LegalLength cfg len := by
  have : Config.minLen = 2 := rfl
  simp only [lengthIllegal, LegalLength, Bool.or_eq_true, decide_eq_true_eq]
  omega

theorem candidateComplete_iff (s : State) : candidateComplete s = true ↔ 2 + s.dlen.toNat ≤ s.count := by
  simp [candidateComplete]

theorem candidateComplete_false_iff (s : State) : candidateComplete s = false ↔ s.count < 2 + s.dlen.toNat := by
  simp [candidateComplete]

theorem chanIndex_of_lt (idx : Byte) (h : idx.toNat < 16) : chanIndex idx = some ⟨idx.toNat, h⟩ := by simp [chanIndex, h]

theorem chanIndex_of_gt (idx : Byte) (h : 15 < idx.toNat) : chanIndex idx = none := by simp [chanIndex]; omega

/-- A legal length byte is small enough for a frame in `FB` (spec/30_encoding.md R63). -/
theorem LegalLength.bounds (cfg : Config) (len : Byte) (h : LegalLength cfg len) :
    2 ≤ len.toNat ∧ len.toNat + 2 ≤ cfg.maxFrame := by
  have := cfg.maxFrame_ge
  have h1 : 2 ≤ len.toNat := h.1
  have h2 : len.toNat ≤ cfg.maxFrame - 2 := h.2
  omega

end Sys2Proof.Machine
end

