-- ==== Sys2Proof/Laws/Decode.lean ====
section
/-! SUPPORT. Laws of the pieces of the decoder: two-byte fields, and counted data (spec/30_encoding.md R70, R73). -/

namespace Sys2Proof

theorem half_eq_ofNat (lo hi : Byte) : half lo hi = BitVec.ofNat 16 (lo.toNat + 256 * hi.toNat) := by
  apply BitVec.eq_of_toNat_eq
  have := lo.isLt
  have := hi.isLt
  have e : (hi ++ lo : BitVec 16).toNat = hi.toNat <<< 8 ||| lo.toNat := BitVec.toNat_append hi lo
  rw [half, e, BitVec.toNat_ofNat, Nat.shiftLeft_eq, Nat.mul_comm, ← Nat.two_pow_add_eq_or_of_lt (i := 8) lo.isLt]
  omega

theorem loByte_eq_ofNat (v : Half) : loByte v = BitVec.ofNat 8 v.toNat := by
  apply BitVec.eq_of_toNat_eq; simp [loByte]

theorem hiByte_eq_ofNat (v : Half) : hiByte v = BitVec.ofNat 8 (v.toNat / 256) := by
  apply BitVec.eq_of_toNat_eq; simp [hiByte, Nat.shiftRight_eq_div_pow]

@[simp] theorem half_loByte_hiByte (v : Half) : half (loByte v) (hiByte v) = v := by
  rw [half_eq_ofNat, loByte_eq_ofNat, hiByte_eq_ofNat]
  apply BitVec.eq_of_toNat_eq
  have := v.isLt
  simp
  omega

@[simp] theorem loByte_half (lo hi : Byte) : loByte (half lo hi) = lo := by
  apply BitVec.eq_of_toNat_eq
  have := lo.isLt
  have := hi.isLt
  rw [loByte_eq_ofNat, half_eq_ofNat]
  simp
  omega

@[simp] theorem hiByte_half (lo hi : Byte) : hiByte (half lo hi) = hi := by
  apply BitVec.eq_of_toNat_eq
  have := lo.isLt
  have := hi.isLt
  rw [hiByte_eq_ofNat, half_eq_ofNat]
  simp
  omega

theorem takeBytes_append (d rest : List Byte) : takeBytes d.length (d ++ rest) = some (d, rest) := by
  induction d with
  | nil => rfl
  | cons b d ih => simp [takeBytes, ih]

/-- What `takeBytes` can answer: the bytes it takes are the first `n`, and nothing is lost. -/
theorem takeBytes_some (n : Nat) (bs d rest : List Byte) (h : takeBytes n bs = some (d, rest)) :
    d.length = n ∧ bs = d ++ rest := by
  induction n generalizing bs d with
  | zero =>
    simp only [takeBytes, Option.some.injEq, Prod.mk.injEq] at h
    obtain ⟨rfl, rfl⟩ := h
    simp
  | succ n ih =>
    cases bs with
    | nil => simp [takeBytes] at h
    | cons b bs =>
      simp only [takeBytes] at h
      split at h
      · rename_i d' r' h'
        simp only [Option.some.injEq, Prod.mk.injEq] at h
        obtain ⟨rfl, rfl⟩ := h
        obtain ⟨h1, h2⟩ := ih _ _ h'
        simp [h1, h2]
      · cases h

/-- A count byte followed by that many bytes. -/
theorem takeCounted_append (n : Byte) (d rest : List Byte) (h : d.length = n.toNat) :
    takeCounted (n :: (d ++ rest)) = some (d, rest) := by
  simp only [takeCounted, ← h]
  exact takeBytes_append d rest

/-- What `takeCounted` can answer. -/
theorem takeCounted_some (bs d rest : List Byte) (h : takeCounted bs = some (d, rest)) :
    d.length ≤ 255 ∧ bs = encodeCounted d ++ rest := by
  cases bs with
  | nil => simp [takeCounted] at h
  | cons n bs =>
    obtain ⟨h1, h2⟩ := takeBytes_some _ _ _ _ h
    have := n.isLt
    exact ⟨by omega, by simp [encodeCounted, h1, h2]⟩

end Sys2Proof
end

