-- ==== Sys2Proof/Laws/Memory.lean ====
section
/-! SUPPORT. Laws of the byte memories: read after write, what a write leaves alone, the canonical form, the space. -/

namespace Sys2Proof.Machine

@[simp] theorem Memory.read_zero (k : Nat) : Memory.read Memory.zero k = 0 := rfl
@[simp] theorem Memory.read_nil (k : Nat) : Memory.read [] k = 0 := rfl
@[simp] theorem Memory.wf_zero : Memory.wf Memory.zero = true := rfl
@[simp] theorem Memory.wf_nil : Memory.wf [] = true := rfl
@[simp] theorem Memory.within_zero (n : Nat) : Memory.within Memory.zero n = true := rfl
@[simp] theorem Memory.within_nil (n : Nat) : Memory.within [] n = true := rfl

theorem Memory.wf_cons (a : Nat) (b : Byte) (m : Memory) :
    Memory.wf ((a, b) :: m) = true ↔ b ≠ 0 ∧ (∀ c ∈ m, a < c.1) ∧ Memory.wf m = true := by
  have e : Memory.wf ((a, b) :: m) = (decide (b ≠ 0) && m.all (fun c => decide (a < c.1)) && Memory.wf m) := rfl
  rw [e]
  simp [and_assoc]

theorem Memory.within_cons (a : Nat) (b : Byte) (m : Memory) (n : Nat) :
    Memory.within ((a, b) :: m) n = true ↔ a < n ∧ Memory.within m n = true := by
  simp [Memory.within]

theorem Memory.read_cons (a : Nat) (b : Byte) (m : Memory) (k : Nat) :
    Memory.read ((a, b) :: m) k = if a = k then b else Memory.read m k := rfl

theorem Memory.read_of_lt (m : Memory) (k : Nat) (h : ∀ c ∈ m, k < c.1) : Memory.read m k = 0 := by
  induction m with
  | nil => rfl
  | cons c m ih =>
    obtain ⟨a, b⟩ := c
    have := h (a, b) (by simp)
    rw [Memory.read_cons, if_neg (by simp at this; omega)]
    exact ih fun c hc => h c (by simp [hc])

/-- Read after write at the same address. -/
theorem Memory.read_write_self (m : Memory) (k : Nat) (v : Byte) (h : Memory.wf m = true) :
    Memory.read (Memory.write m k v) k = v := by
  induction m with
  | nil =>
    by_cases hv : v = unlistedByte
    · simp only [Memory.write, hv, if_true]; rfl
    · simp [Memory.write, hv, Memory.read]
  | cons c m ih =>
    obtain ⟨a, b⟩ := c
    obtain ⟨_, hlt, hm⟩ := (Memory.wf_cons a b m).1 h
    have tail0 : k ≤ a → Memory.read m k = 0 := fun hk =>
      Memory.read_of_lt m k fun c hc => Nat.lt_of_le_of_lt hk (hlt c hc)
    unfold Memory.write
    split
    · rename_i hka
      split
      · rename_i hv
        rw [Memory.read_cons, if_neg (by omega), tail0 (by omega), hv]; rfl
      · simp [Memory.read_cons]
    · split
      · rename_i hka hk
        split
        · rename_i hv
          rw [tail0 (by omega), hv]; rfl
        · simp [Memory.read_cons]
      · rename_i hka hk
        rw [Memory.read_cons, if_neg (by omega), ih hm]

/-- A write leaves every other address alone. -/
theorem Memory.read_write_other (m : Memory) (k a : Nat) (v : Byte) (h : a ≠ k) :
    Memory.read (Memory.write m k v) a = Memory.read m a := by
  induction m with
  | nil =>
    unfold Memory.write
    split
    · rfl
    · simp [Memory.read, h.symm]
  | cons c m ih =>
    obtain ⟨x, b⟩ := c
    unfold Memory.write
    split
    · split
      · rfl
      · rw [Memory.read_cons, if_neg h.symm]
    · split
      · rename_i hk
        split
        · rw [Memory.read_cons, if_neg (by omega)]
        · rw [Memory.read_cons, if_neg h.symm, Memory.read_cons, if_neg (by omega)]
      · rw [Memory.read_cons, Memory.read_cons, ih]

theorem Memory.mem_write_of_lt (m : Memory) (k x : Nat) (v : Byte) (hk : x < k) (h : ∀ c ∈ m, x < c.1) :
    ∀ c ∈ Memory.write m k v, x < c.1 := by
  induction m with
  | nil =>
    unfold Memory.write
    split <;> simp [hk]
  | cons c m ih =>
    obtain ⟨a, b⟩ := c
    have ha := h (a, b) (by simp)
    have hm : ∀ c ∈ m, x < c.1 := fun c hc => h c (by simp [hc])
    unfold Memory.write
    split
    · split
      · exact h
      · rintro c (_ | ⟨_, hc⟩)
        · exact hk
        · exact h c hc
    · split
      · split
        · exact hm
        · rintro c (_ | ⟨_, hc⟩)
          · exact hk
          · exact hm c hc
      · rintro c (_ | ⟨_, hc⟩)
        · exact ha
        · exact ih hm c hc

/-- A write keeps the canonical form. -/
theorem Memory.wf_write (m : Memory) (k : Nat) (v : Byte) (h : Memory.wf m = true) :
    Memory.wf (Memory.write m k v) = true := by
  induction m with
  | nil =>
    unfold Memory.write
    split
    · rfl
    · rename_i hv
      exact (Memory.wf_cons k v []).2 ⟨hv, by simp, rfl⟩
  | cons c m ih =>
    obtain ⟨a, b⟩ := c
    obtain ⟨hb, hlt, hm⟩ := (Memory.wf_cons a b m).1 h
    unfold Memory.write
    split
    · rename_i hka
      split
      · exact h
      · rename_i hv
        refine (Memory.wf_cons k v _).2 ⟨hv, ?_, h⟩
        rintro c (_ | ⟨_, hc⟩)
        · exact hka
        · exact Nat.lt_trans hka (hlt c hc)
    · split
      · rename_i hk
        split
        · exact hm
        · rename_i hv
          exact (Memory.wf_cons k v m).2 ⟨hv, by simpa [hk] using hlt, hm⟩
      · exact (Memory.wf_cons a b _).2 ⟨hb, Memory.mem_write_of_lt m k a v (by omega) hlt, ih hm⟩

/-- A write below `n` keeps a memory within `n`. -/
theorem Memory.within_write (m : Memory) (k n : Nat) (v : Byte) (hk : k < n) (h : Memory.within m n = true) :
    Memory.within (Memory.write m k v) n = true := by
  induction m with
  | nil =>
    unfold Memory.write
    split
    · rfl
    · exact (Memory.within_cons k v [] n).2 ⟨hk, rfl⟩
  | cons c m ih =>
    obtain ⟨a, b⟩ := c
    obtain ⟨ha, hm⟩ := (Memory.within_cons a b m n).1 h
    unfold Memory.write
    split
    · split
      · exact h
      · exact (Memory.within_cons k v _ n).2 ⟨hk, h⟩
    · split
      · split
        · exact hm
        · exact (Memory.within_cons k v m n).2 ⟨hk, hm⟩
      · exact (Memory.within_cons a b _ n).2 ⟨ha, ih hm⟩

theorem Memory.wf_writeBytes (m : Memory) (k : Nat) (bs : List Byte) (h : Memory.wf m = true) :
    Memory.wf (Memory.writeBytes m k bs) = true := by
  induction bs generalizing m k with
  | nil => exact h
  | cons b bs ih => exact ih _ _ (Memory.wf_write m k b h)

theorem Memory.within_writeBytes (m : Memory) (k n : Nat) (bs : List Byte) (hk : k + bs.length ≤ n)
    (h : Memory.within m n = true) : Memory.within (Memory.writeBytes m k bs) n = true := by
  induction bs generalizing m k with
  | nil => exact h
  | cons b bs ih =>
    simp only [List.length_cons] at hk
    exact ih _ _ (by omega) (Memory.within_write m k n b (by omega) h)

/-- `MemWrite` leaves every address outside its bytes alone. -/
theorem Memory.read_writeBytes_outside (m : Memory) (k a : Nat) (bs : List Byte) (h : a < k ∨ k + bs.length ≤ a) :
    Memory.read (Memory.writeBytes m k bs) a = Memory.read m a := by
  induction bs generalizing m k with
  | nil => rfl
  | cons b bs ih =>
    simp only [List.length_cons] at h
    rw [Memory.writeBytes, ih _ _ (by omega), Memory.read_write_other _ _ _ _ (by omega)]

/-- `MemWrite` stores each byte at its offset. -/
theorem Memory.read_writeBytes_inside (m : Memory) (k j : Nat) (bs : List Byte) (hm : Memory.wf m = true) (h : j < bs.length) :
    Memory.read (Memory.writeBytes m k bs) (k + j) = bs.getD j 0 := by
  induction bs generalizing m k j with
  | nil => simp at h
  | cons b bs ih =>
    rw [Memory.writeBytes]
    cases j with
    | zero =>
      rw [Memory.read_writeBytes_outside _ _ _ _ (by omega), Nat.add_zero, Memory.read_write_self _ _ _ hm]
      simp
    | succ j =>
      simp only [List.length_cons] at h
      have := ih (Memory.write m k b) (k + 1) j (Memory.wf_write m k b hm) (by omega)
      rw [show k + (j + 1) = k + 1 + j by omega, this]
      simp

/-- What `FB` reads as after a frame has been written over a zero fill. -/
theorem Memory.read_frame (f : List Byte) (k : Nat) :
    Memory.read (Memory.writeBytes Memory.zero 0 f) k = f.getD k 0 := by
  by_cases h : k < f.length
  · simpa using Memory.read_writeBytes_inside Memory.zero 0 k f rfl h
  · rw [Memory.read_writeBytes_outside _ _ _ _ (by omega)]
    simp [List.getD_eq_getElem?_getD, List.getElem?_eq_none (by omega : f.length ≤ k)]

@[simp] theorem Memory.length_readBytes (m : Memory) (k n : Nat) : (Memory.readBytes m k n).length = n := by
  induction n generalizing k with
  | zero => rfl
  | succ n ih => simp [Memory.readBytes, ih]

theorem Memory.getElem_readBytes (m : Memory) (k n j : Nat) (h : j < (Memory.readBytes m k n).length) :
    (Memory.readBytes m k n)[j] = Memory.read m (k + j) := by
  induction n generalizing k j with
  | zero => simp at h
  | succ n ih =>
    cases j with
    | zero => simp [Memory.readBytes]
    | succ j =>
      simp only [Memory.readBytes, List.getElem_cons_succ]
      rw [ih (k + 1) j]
      congr 1; omega

/-- Reading a frame back gives the frame. -/
theorem Memory.readBytes_frame (f : List Byte) :
    Memory.readBytes (Memory.writeBytes Memory.zero 0 f) 0 f.length = f := by
  apply List.ext_getElem (by simp)
  intro j h1 h2
  rw [Memory.getElem_readBytes, Memory.read_frame, Nat.zero_add]
  simp [List.getD_eq_getElem?_getD, h2]

end Sys2Proof.Machine
end

