-- ==== Sys2Proof/Laws/State.lean ====
section
/-! SUPPORT. What each state update leaves in each field: one lemma per field per update. -/

namespace Sys2Proof.Machine

section respond
@[simp] theorem respond_cfg (r : Response) (s : State) : (respond r s).cfg = s.cfg := rfl
@[simp] theorem respond_crc (r : Response) (s : State) : (respond r s).crc = s.crc := rfl
@[simp] theorem respond_ch (r : Response) (s : State) : (respond r s).ch = s.ch := rfl
@[simp] theorem respond_fb (r : Response) (s : State) : (respond r s).fb = s.fb := rfl
@[simp] theorem respond_flen (r : Response) (s : State) : (respond r s).flen = s.flen := rfl
@[simp] theorem respond_rb (r : Response) (s : State) : (respond r s).rb = s.rb := rfl
@[simp] theorem respond_head (r : Response) (s : State) : (respond r s).head = s.head := rfl
@[simp] theorem respond_count (r : Response) (s : State) : (respond r s).count = s.count := rfl
@[simp] theorem respond_phase (r : Response) (s : State) : (respond r s).phase = s.phase := rfl
@[simp] theorem respond_dlen (r : Response) (s : State) : (respond r s).dlen = s.dlen := rfl
@[simp] theorem respond_ovf (r : Response) (s : State) : (respond r s).ovf = s.ovf := rfl
@[simp] theorem respond_skipped (r : Response) (s : State) : (respond r s).skipped = s.skipped := rfl
@[simp] theorem respond_cmds (r : Response) (s : State) : (respond r s).cmds = s.cmds := rfl
@[simp] theorem respond_resp (r : Response) (s : State) : (respond r s).resp = some r := rfl
end respond

section raiseError
@[simp] theorem raiseError_cfg (r : Response) (s : State) : (raiseError r s).cfg = s.cfg := rfl
@[simp] theorem raiseError_crc (r : Response) (s : State) : (raiseError r s).crc = s.crc := rfl
@[simp] theorem raiseError_ch (r : Response) (s : State) : (raiseError r s).ch = s.ch := rfl
@[simp] theorem raiseError_fb (r : Response) (s : State) : (raiseError r s).fb = s.fb := rfl
@[simp] theorem raiseError_flen (r : Response) (s : State) : (raiseError r s).flen = s.flen := rfl
@[simp] theorem raiseError_rb (r : Response) (s : State) : (raiseError r s).rb = s.rb := rfl
@[simp] theorem raiseError_head (r : Response) (s : State) : (raiseError r s).head = s.head := rfl
@[simp] theorem raiseError_count (r : Response) (s : State) : (raiseError r s).count = s.count := rfl
@[simp] theorem raiseError_phase (r : Response) (s : State) : (raiseError r s).phase = s.phase := rfl
@[simp] theorem raiseError_dlen (r : Response) (s : State) : (raiseError r s).dlen = s.dlen := rfl
@[simp] theorem raiseError_ovf (r : Response) (s : State) : (raiseError r s).ovf = s.ovf := rfl
@[simp] theorem raiseError_skipped (r : Response) (s : State) : (raiseError r s).skipped = s.skipped := rfl
@[simp] theorem raiseError_cmds (r : Response) (s : State) : (raiseError r s).cmds = s.cmds := rfl
@[simp] theorem raiseError_resp (r : Response) (s : State) : (raiseError r s).resp = some r := rfl
end raiseError

section illegalOpcode
@[simp] theorem illegalOpcode_cfg (op : Byte) (s : State) : (illegalOpcode op s).cfg = s.cfg := rfl
@[simp] theorem illegalOpcode_crc (op : Byte) (s : State) : (illegalOpcode op s).crc = s.crc := rfl
@[simp] theorem illegalOpcode_ch (op : Byte) (s : State) : (illegalOpcode op s).ch = s.ch := rfl
@[simp] theorem illegalOpcode_fb (op : Byte) (s : State) : (illegalOpcode op s).fb = s.fb := rfl
@[simp] theorem illegalOpcode_flen (op : Byte) (s : State) : (illegalOpcode op s).flen = s.flen := rfl
@[simp] theorem illegalOpcode_rb (op : Byte) (s : State) : (illegalOpcode op s).rb = s.rb := rfl
@[simp] theorem illegalOpcode_head (op : Byte) (s : State) : (illegalOpcode op s).head = s.head := rfl
@[simp] theorem illegalOpcode_count (op : Byte) (s : State) : (illegalOpcode op s).count = s.count := rfl
@[simp] theorem illegalOpcode_phase (op : Byte) (s : State) : (illegalOpcode op s).phase = s.phase := rfl
@[simp] theorem illegalOpcode_dlen (op : Byte) (s : State) : (illegalOpcode op s).dlen = s.dlen := rfl
@[simp] theorem illegalOpcode_ovf (op : Byte) (s : State) : (illegalOpcode op s).ovf = s.ovf := rfl
@[simp] theorem illegalOpcode_skipped (op : Byte) (s : State) : (illegalOpcode op s).skipped = s.skipped := rfl
@[simp] theorem illegalOpcode_cmds (op : Byte) (s : State) : (illegalOpcode op s).cmds = s.cmds := rfl
@[simp] theorem illegalOpcode_resp (op : Byte) (s : State) : (illegalOpcode op s).resp = some (.illegalCommand op) := rfl
end illegalOpcode

section withCmds
@[simp] theorem withCmds_cfg (s : State) (bs : List Byte) : (s.withCmds bs).cfg = s.cfg := rfl
@[simp] theorem withCmds_crc (s : State) (bs : List Byte) : (s.withCmds bs).crc = s.crc := rfl
@[simp] theorem withCmds_ch (s : State) (bs : List Byte) : (s.withCmds bs).ch = s.ch := rfl
@[simp] theorem withCmds_fb (s : State) (bs : List Byte) : (s.withCmds bs).fb = s.fb := rfl
@[simp] theorem withCmds_flen (s : State) (bs : List Byte) : (s.withCmds bs).flen = s.flen := rfl
@[simp] theorem withCmds_rb (s : State) (bs : List Byte) : (s.withCmds bs).rb = s.rb := rfl
@[simp] theorem withCmds_head (s : State) (bs : List Byte) : (s.withCmds bs).head = s.head := rfl
@[simp] theorem withCmds_count (s : State) (bs : List Byte) : (s.withCmds bs).count = s.count := rfl
@[simp] theorem withCmds_phase (s : State) (bs : List Byte) : (s.withCmds bs).phase = s.phase := rfl
@[simp] theorem withCmds_dlen (s : State) (bs : List Byte) : (s.withCmds bs).dlen = s.dlen := rfl
@[simp] theorem withCmds_ovf (s : State) (bs : List Byte) : (s.withCmds bs).ovf = s.ovf := rfl
@[simp] theorem withCmds_skipped (s : State) (bs : List Byte) : (s.withCmds bs).skipped = s.skipped := rfl
@[simp] theorem withCmds_cmds (s : State) (bs : List Byte) : (s.withCmds bs).cmds = bs := rfl
@[simp] theorem withCmds_resp (s : State) (bs : List Byte) : (s.withCmds bs).resp = s.resp := rfl
end withCmds

section resync
@[simp] theorem resync_cfg (s : State) : (resync s).cfg = s.cfg := rfl
@[simp] theorem resync_crc (s : State) : (resync s).crc = s.crc := rfl
@[simp] theorem resync_ch (s : State) : (resync s).ch = s.ch := rfl
@[simp] theorem resync_fb (s : State) : (resync s).fb = s.fb := rfl
@[simp] theorem resync_flen (s : State) : (resync s).flen = s.flen := rfl
@[simp] theorem resync_rb (s : State) : (resync s).rb = s.rb := rfl
@[simp] theorem resync_head (s : State) : (resync s).head = s.head := rfl
@[simp] theorem resync_count (s : State) : (resync s).count = s.count := rfl
@[simp] theorem resync_phase (s : State) : (resync s).phase = .seek := rfl
@[simp] theorem resync_dlen (s : State) : (resync s).dlen = 0 := rfl
@[simp] theorem resync_ovf (s : State) : (resync s).ovf = s.ovf := rfl
@[simp] theorem resync_skipped (s : State) : (resync s).skipped = s.skipped := rfl
@[simp] theorem resync_cmds (s : State) : (resync s).cmds = s.cmds := rfl
@[simp] theorem resync_resp (s : State) : (resync s).resp = s.resp := rfl
end resync

section dropBytes
@[simp] theorem dropBytes_cfg (k : Nat) (s : State) : (dropBytes k s).cfg = s.cfg := rfl
@[simp] theorem dropBytes_crc (k : Nat) (s : State) : (dropBytes k s).crc = s.crc := rfl
@[simp] theorem dropBytes_ch (k : Nat) (s : State) : (dropBytes k s).ch = s.ch := rfl
@[simp] theorem dropBytes_fb (k : Nat) (s : State) : (dropBytes k s).fb = s.fb := rfl
@[simp] theorem dropBytes_flen (k : Nat) (s : State) : (dropBytes k s).flen = s.flen := rfl
@[simp] theorem dropBytes_rb (k : Nat) (s : State) : (dropBytes k s).rb = s.rb := rfl
@[simp] theorem dropBytes_head (k : Nat) (s : State) : (dropBytes k s).head = ringIndex s k := rfl
@[simp] theorem dropBytes_count (k : Nat) (s : State) : (dropBytes k s).count = s.count - k := rfl
@[simp] theorem dropBytes_phase (k : Nat) (s : State) : (dropBytes k s).phase = s.phase := rfl
@[simp] theorem dropBytes_dlen (k : Nat) (s : State) : (dropBytes k s).dlen = s.dlen := rfl
@[simp] theorem dropBytes_ovf (k : Nat) (s : State) : (dropBytes k s).ovf = s.ovf := rfl
@[simp] theorem dropBytes_skipped (k : Nat) (s : State) : (dropBytes k s).skipped = s.skipped := rfl
@[simp] theorem dropBytes_cmds (k : Nat) (s : State) : (dropBytes k s).cmds = s.cmds := rfl
@[simp] theorem dropBytes_resp (k : Nat) (s : State) : (dropBytes k s).resp = s.resp := rfl
end dropBytes

section appendByte
@[simp] theorem appendByte_cfg (b : Byte) (s : State) : (appendByte b s).cfg = s.cfg := rfl
@[simp] theorem appendByte_crc (b : Byte) (s : State) : (appendByte b s).crc = s.crc := rfl
@[simp] theorem appendByte_ch (b : Byte) (s : State) : (appendByte b s).ch = s.ch := rfl
@[simp] theorem appendByte_fb (b : Byte) (s : State) : (appendByte b s).fb = s.fb := rfl
@[simp] theorem appendByte_flen (b : Byte) (s : State) : (appendByte b s).flen = s.flen := rfl
@[simp] theorem appendByte_rb (b : Byte) (s : State) : (appendByte b s).rb = Memory.write s.rb (ringIndex s s.count) b := rfl
@[simp] theorem appendByte_head (b : Byte) (s : State) : (appendByte b s).head = s.head := rfl
@[simp] theorem appendByte_count (b : Byte) (s : State) : (appendByte b s).count = s.count + 1 := rfl
@[simp] theorem appendByte_phase (b : Byte) (s : State) : (appendByte b s).phase = s.phase := rfl
@[simp] theorem appendByte_dlen (b : Byte) (s : State) : (appendByte b s).dlen = s.dlen := rfl
@[simp] theorem appendByte_ovf (b : Byte) (s : State) : (appendByte b s).ovf = s.ovf := rfl
@[simp] theorem appendByte_skipped (b : Byte) (s : State) : (appendByte b s).skipped = s.skipped := rfl
@[simp] theorem appendByte_cmds (b : Byte) (s : State) : (appendByte b s).cmds = s.cmds := rfl
@[simp] theorem appendByte_resp (b : Byte) (s : State) : (appendByte b s).resp = s.resp := rfl
end appendByte

section setOvf
@[simp] theorem setOvf_cfg (s : State) : (setOvf s).cfg = s.cfg := rfl
@[simp] theorem setOvf_crc (s : State) : (setOvf s).crc = s.crc := rfl
@[simp] theorem setOvf_ch (s : State) : (setOvf s).ch = s.ch := rfl
@[simp] theorem setOvf_fb (s : State) : (setOvf s).fb = s.fb := rfl
@[simp] theorem setOvf_flen (s : State) : (setOvf s).flen = s.flen := rfl
@[simp] theorem setOvf_rb (s : State) : (setOvf s).rb = s.rb := rfl
@[simp] theorem setOvf_head (s : State) : (setOvf s).head = s.head := rfl
@[simp] theorem setOvf_count (s : State) : (setOvf s).count = s.count := rfl
@[simp] theorem setOvf_phase (s : State) : (setOvf s).phase = s.phase := rfl
@[simp] theorem setOvf_dlen (s : State) : (setOvf s).dlen = s.dlen := rfl
@[simp] theorem setOvf_ovf (s : State) : (setOvf s).ovf = true := rfl
@[simp] theorem setOvf_skipped (s : State) : (setOvf s).skipped = s.skipped := rfl
@[simp] theorem setOvf_cmds (s : State) : (setOvf s).cmds = s.cmds := rfl
@[simp] theorem setOvf_resp (s : State) : (setOvf s).resp = s.resp := rfl
end setOvf

section clearOvf
@[simp] theorem clearOvf_cfg (s : State) : (clearOvf s).cfg = s.cfg := rfl
@[simp] theorem clearOvf_crc (s : State) : (clearOvf s).crc = s.crc := rfl
@[simp] theorem clearOvf_ch (s : State) : (clearOvf s).ch = s.ch := rfl
@[simp] theorem clearOvf_fb (s : State) : (clearOvf s).fb = s.fb := rfl
@[simp] theorem clearOvf_flen (s : State) : (clearOvf s).flen = s.flen := rfl
@[simp] theorem clearOvf_rb (s : State) : (clearOvf s).rb = s.rb := rfl
@[simp] theorem clearOvf_head (s : State) : (clearOvf s).head = s.head := rfl
@[simp] theorem clearOvf_count (s : State) : (clearOvf s).count = s.count := rfl
@[simp] theorem clearOvf_phase (s : State) : (clearOvf s).phase = s.phase := rfl
@[simp] theorem clearOvf_dlen (s : State) : (clearOvf s).dlen = s.dlen := rfl
@[simp] theorem clearOvf_ovf (s : State) : (clearOvf s).ovf = false := rfl
@[simp] theorem clearOvf_skipped (s : State) : (clearOvf s).skipped = s.skipped := rfl
@[simp] theorem clearOvf_cmds (s : State) : (clearOvf s).cmds = s.cmds := rfl
@[simp] theorem clearOvf_resp (s : State) : (clearOvf s).resp = s.resp := rfl
end clearOvf

section clearSkipped
@[simp] theorem clearSkipped_cfg (s : State) : (clearSkipped s).cfg = s.cfg := rfl
@[simp] theorem clearSkipped_crc (s : State) : (clearSkipped s).crc = s.crc := rfl
@[simp] theorem clearSkipped_ch (s : State) : (clearSkipped s).ch = s.ch := rfl
@[simp] theorem clearSkipped_fb (s : State) : (clearSkipped s).fb = s.fb := rfl
@[simp] theorem clearSkipped_flen (s : State) : (clearSkipped s).flen = s.flen := rfl
@[simp] theorem clearSkipped_rb (s : State) : (clearSkipped s).rb = s.rb := rfl
@[simp] theorem clearSkipped_head (s : State) : (clearSkipped s).head = s.head := rfl
@[simp] theorem clearSkipped_count (s : State) : (clearSkipped s).count = s.count := rfl
@[simp] theorem clearSkipped_phase (s : State) : (clearSkipped s).phase = s.phase := rfl
@[simp] theorem clearSkipped_dlen (s : State) : (clearSkipped s).dlen = s.dlen := rfl
@[simp] theorem clearSkipped_ovf (s : State) : (clearSkipped s).ovf = s.ovf := rfl
@[simp] theorem clearSkipped_skipped (s : State) : (clearSkipped s).skipped = 0 := rfl
@[simp] theorem clearSkipped_cmds (s : State) : (clearSkipped s).cmds = s.cmds := rfl
@[simp] theorem clearSkipped_resp (s : State) : (clearSkipped s).resp = s.resp := rfl
end clearSkipped

section countSkipped
@[simp] theorem countSkipped_cfg (s : State) : (countSkipped s).cfg = s.cfg := rfl
@[simp] theorem countSkipped_crc (s : State) : (countSkipped s).crc = s.crc := rfl
@[simp] theorem countSkipped_ch (s : State) : (countSkipped s).ch = s.ch := rfl
@[simp] theorem countSkipped_fb (s : State) : (countSkipped s).fb = s.fb := rfl
@[simp] theorem countSkipped_flen (s : State) : (countSkipped s).flen = s.flen := rfl
@[simp] theorem countSkipped_rb (s : State) : (countSkipped s).rb = s.rb := rfl
@[simp] theorem countSkipped_head (s : State) : (countSkipped s).head = s.head := rfl
@[simp] theorem countSkipped_count (s : State) : (countSkipped s).count = s.count := rfl
@[simp] theorem countSkipped_phase (s : State) : (countSkipped s).phase = s.phase := rfl
@[simp] theorem countSkipped_dlen (s : State) : (countSkipped s).dlen = s.dlen := rfl
@[simp] theorem countSkipped_ovf (s : State) : (countSkipped s).ovf = s.ovf := rfl
@[simp] theorem countSkipped_skipped (s : State) : (countSkipped s).skipped = s.skipped + 1 := rfl
@[simp] theorem countSkipped_cmds (s : State) : (countSkipped s).cmds = s.cmds := rfl
@[simp] theorem countSkipped_resp (s : State) : (countSkipped s).resp = s.resp := rfl
end countSkipped

section writeChan
@[simp] theorem writeChan_cfg (i : Fin 16) (x : Chan) (s : State) : (writeChan i x s).cfg = s.cfg := rfl
@[simp] theorem writeChan_crc (i : Fin 16) (x : Chan) (s : State) : (writeChan i x s).crc = s.crc := rfl
@[simp] theorem writeChan_ch (i : Fin 16) (x : Chan) (s : State) : (writeChan i x s).ch = s.ch.set i x := rfl
@[simp] theorem writeChan_fb (i : Fin 16) (x : Chan) (s : State) : (writeChan i x s).fb = s.fb := rfl
@[simp] theorem writeChan_flen (i : Fin 16) (x : Chan) (s : State) : (writeChan i x s).flen = s.flen := rfl
@[simp] theorem writeChan_rb (i : Fin 16) (x : Chan) (s : State) : (writeChan i x s).rb = s.rb := rfl
@[simp] theorem writeChan_head (i : Fin 16) (x : Chan) (s : State) : (writeChan i x s).head = s.head := rfl
@[simp] theorem writeChan_count (i : Fin 16) (x : Chan) (s : State) : (writeChan i x s).count = s.count := rfl
@[simp] theorem writeChan_phase (i : Fin 16) (x : Chan) (s : State) : (writeChan i x s).phase = s.phase := rfl
@[simp] theorem writeChan_dlen (i : Fin 16) (x : Chan) (s : State) : (writeChan i x s).dlen = s.dlen := rfl
@[simp] theorem writeChan_ovf (i : Fin 16) (x : Chan) (s : State) : (writeChan i x s).ovf = s.ovf := rfl
@[simp] theorem writeChan_skipped (i : Fin 16) (x : Chan) (s : State) : (writeChan i x s).skipped = s.skipped := rfl
@[simp] theorem writeChan_cmds (i : Fin 16) (x : Chan) (s : State) : (writeChan i x s).cmds = s.cmds := rfl
@[simp] theorem writeChan_resp (i : Fin 16) (x : Chan) (s : State) : (writeChan i x s).resp = s.resp := rfl
end writeChan

section writeFrame
@[simp] theorem writeFrame_cfg (f : List Byte) (s : State) : (writeFrame f s).cfg = s.cfg := rfl
@[simp] theorem writeFrame_crc (f : List Byte) (s : State) : (writeFrame f s).crc = s.crc := rfl
@[simp] theorem writeFrame_ch (f : List Byte) (s : State) : (writeFrame f s).ch = s.ch := rfl
@[simp] theorem writeFrame_fb (f : List Byte) (s : State) : (writeFrame f s).fb = Memory.writeBytes Memory.zero 0 f := rfl
@[simp] theorem writeFrame_flen (f : List Byte) (s : State) : (writeFrame f s).flen = BitVec.ofNat 8 f.length := rfl
@[simp] theorem writeFrame_rb (f : List Byte) (s : State) : (writeFrame f s).rb = s.rb := rfl
@[simp] theorem writeFrame_head (f : List Byte) (s : State) : (writeFrame f s).head = s.head := rfl
@[simp] theorem writeFrame_count (f : List Byte) (s : State) : (writeFrame f s).count = s.count := rfl
@[simp] theorem writeFrame_phase (f : List Byte) (s : State) : (writeFrame f s).phase = s.phase := rfl
@[simp] theorem writeFrame_dlen (f : List Byte) (s : State) : (writeFrame f s).dlen = s.dlen := rfl
@[simp] theorem writeFrame_ovf (f : List Byte) (s : State) : (writeFrame f s).ovf = s.ovf := rfl
@[simp] theorem writeFrame_skipped (f : List Byte) (s : State) : (writeFrame f s).skipped = s.skipped := rfl
@[simp] theorem writeFrame_cmds (f : List Byte) (s : State) : (writeFrame f s).cmds = s.cmds := rfl
@[simp] theorem writeFrame_resp (f : List Byte) (s : State) : (writeFrame f s).resp = s.resp := rfl
end writeFrame

section hardReset
@[simp] theorem hardReset_cfg (s : State) : (hardReset s).cfg = s.cfg := rfl
@[simp] theorem hardReset_crc (s : State) : (hardReset s).crc = s.cfg.crcInit := rfl
@[simp] theorem hardReset_ch (s : State) : (hardReset s).ch = Vector.replicate 16 0 := rfl
@[simp] theorem hardReset_fb (s : State) : (hardReset s).fb = Memory.zero := rfl
@[simp] theorem hardReset_flen (s : State) : (hardReset s).flen = 0 := rfl
@[simp] theorem hardReset_rb (s : State) : (hardReset s).rb = s.rb := rfl
@[simp] theorem hardReset_head (s : State) : (hardReset s).head = 0 := rfl
@[simp] theorem hardReset_count (s : State) : (hardReset s).count = 0 := rfl
@[simp] theorem hardReset_phase (s : State) : (hardReset s).phase = .seek := rfl
@[simp] theorem hardReset_dlen (s : State) : (hardReset s).dlen = 0 := rfl
@[simp] theorem hardReset_ovf (s : State) : (hardReset s).ovf = false := rfl
@[simp] theorem hardReset_skipped (s : State) : (hardReset s).skipped = 0 := rfl
@[simp] theorem hardReset_cmds (s : State) : (hardReset s).cmds = s.cmds := rfl
@[simp] theorem hardReset_resp (s : State) : (hardReset s).resp = s.resp := rfl
end hardReset

section resetWith
@[simp] theorem resetWith_cfg (cfg : Config) : (State.resetWith cfg).cfg = cfg := rfl
@[simp] theorem resetWith_crc (cfg : Config) : (State.resetWith cfg).crc = cfg.crcInit := rfl
@[simp] theorem resetWith_ch (cfg : Config) : (State.resetWith cfg).ch = Vector.replicate 16 0 := rfl
@[simp] theorem resetWith_fb (cfg : Config) : (State.resetWith cfg).fb = [] := rfl
@[simp] theorem resetWith_flen (cfg : Config) : (State.resetWith cfg).flen = 0 := rfl
@[simp] theorem resetWith_rb (cfg : Config) : (State.resetWith cfg).rb = [] := rfl
@[simp] theorem resetWith_head (cfg : Config) : (State.resetWith cfg).head = 0 := rfl
@[simp] theorem resetWith_count (cfg : Config) : (State.resetWith cfg).count = 0 := rfl
@[simp] theorem resetWith_phase (cfg : Config) : (State.resetWith cfg).phase = .seek := rfl
@[simp] theorem resetWith_dlen (cfg : Config) : (State.resetWith cfg).dlen = 0 := rfl
@[simp] theorem resetWith_ovf (cfg : Config) : (State.resetWith cfg).ovf = false := rfl
@[simp] theorem resetWith_skipped (cfg : Config) : (State.resetWith cfg).skipped = 0 := rfl
@[simp] theorem resetWith_cmds (cfg : Config) : (State.resetWith cfg).cmds = [] := rfl
@[simp] theorem resetWith_resp (cfg : Config) : (State.resetWith cfg).resp = none := rfl
end resetWith

end Sys2Proof.Machine
end

