-- ==== Sys2Proof/Laws/Frame.lean ====
section
/-! SUPPORT. Laws of frames in `FB`: the size of a built frame, what `build` can do, reading a written frame back
(spec/42_frame_build.md R100, R101). -/

namespace Sys2Proof.Machine

theorem frameLength_simple (d : List Byte) : frameLength [] d = d.length + 2 := rfl

theorem frameLength_ext (dst src : Byte) (d : List Byte) : frameLength [dst, src] d = d.length + 4 := rfl

@[simp] theorem length_frameBytes (cfg : Config) (sync ty : Byte) (addr d : List Byte) :
    (frameBytes cfg sync ty addr d).length = frameLength addr d + 2 := by
  have : Config.ovhSimple = 2 := rfl
  simp [frameBytes, frameLength]
  omega

/-- A frame as sync, length, covered range, trailer. -/
theorem frameBytes_eq (cfg : Config) (sync ty : Byte) (addr d : List Byte) :
    frameBytes cfg sync ty addr d =
      sync :: BitVec.ofNat 8 (frameLength addr d) :: (([ty] ++ addr ++ d) ++ [crc8 cfg ([ty] ++ addr ++ d)]) := rfl

/-- What `build` can do: refuse a frame that does not fit, with nothing written, or write the frame. -/
theorem build_cases (sync ty : Byte) (addr d : List Byte) (s : State) :
    (s.cfg.maxLen < frameLength addr d ∧ build sync ty addr d s = raiseError .bufferTooSmall s) ∨
    (frameLength addr d ≤ s.cfg.maxLen ∧ build sync ty addr d s =
      respond (.okFlen (BitVec.ofNat 8 (frameLength addr d + 2))) (writeFrame (frameBytes s.cfg sync ty addr d) s)) := by
  unfold build
  split
  · exact .inl ⟨‹_›, rfl⟩
  · exact .inr ⟨by omega, rfl⟩

/-- `build` writes `FB`, `FLEN` and the response, nothing else. -/
theorem build_frame (sync ty : Byte) (addr d : List Byte) (s : State) :
    build sync ty addr d s =
      { s with
        fb := (build sync ty addr d s).fb
        flen := (build sync ty addr d s).flen
        resp := (build sync ty addr d s).resp } := by
  rcases build_cases sync ty addr d s with ⟨_, e⟩ | ⟨_, e⟩ <;> rw [e] <;> rfl

/-- A frame written to `FB` reads back. -/
theorem currentFrame_writeFrame (f : List Byte) (s : State) (h : f.length ≤ 255) : currentFrame (writeFrame f s) = f := by
  have e : (writeFrame f s).flen.toNat = f.length := by simp; omega
  rw [currentFrame, e]
  exact Memory.readBytes_frame f

/-- The frame in `FB` depends on `fb` and `flen` alone. -/
theorem currentFrame_congr (s t : State) (hf : t.fb = s.fb) (hl : t.flen = s.flen) : currentFrame t = currentFrame s := by
  rw [currentFrame, currentFrame, hf, hl]

@[simp] theorem length_packChannels (chans : Vector Chan 16) : (packChannels chans).length = 22 := by simp [packChannels]

end Sys2Proof.Machine
end

