-- ==== Sys2Proof/Laws/Ring.lean ====
section
/-! SUPPORT. Laws of the ring: the pending bytes under `drop`, `append` and `PUSH` (spec/00_scope.md R15; spec/43_parser.md R114). -/

namespace Sys2Proof.Machine

theorem ringIndex_lt (s : State) (k : Nat) : ringIndex s k < s.cfg.ringN := Nat.mod_lt _ s.cfg.ringN_pos

theorem ringIndex_zero (s : State) (h : s.head < s.cfg.ringN) : ringIndex s 0 = s.head := by
  simp [ringIndex, Nat.mod_eq_of_lt h]

/-- Two offsets less than `RING_N` apart address different cells. -/
theorem ringIndex_ne (s : State) (i j : Nat) (h : i < j) (hj : j < i + s.cfg.ringN) : ringIndex s i ≠ ringIndex s j := by
  intro e
  have e' : (s.head + i) ≡ (s.head + j) [MOD s.cfg.ringN] := e
  have e2 : i ≡ j [MOD s.cfg.ringN] := Nat.ModEq.add_left_cancel' _ e'
  have := (Nat.modEq_iff_dvd' (le_of_lt h)).1 e2
  have := Nat.le_of_dvd (by omega) this
  omega

@[simp] theorem ringIndex_dropBytes (k j : Nat) (s : State) : ringIndex (dropBytes k s) j = ringIndex s (k + j) := by
  simp [ringIndex, Nat.add_assoc]

@[simp] theorem ringByte_dropBytes (k j : Nat) (s : State) : ringByte (dropBytes k s) j = ringByte s (k + j) := by
  simp [ringByte]

@[simp] theorem length_ringRead (s : State) (k n : Nat) : (ringRead s k n).length = n := by simp [ringRead]

@[simp] theorem length_pending (s : State) : (pending s).length = s.count := by simp [pending]

theorem getElem_ringRead (s : State) (k n j : Nat) (h : j < (ringRead s k n).length) :
    (ringRead s k n)[j] = ringByte s (k + j) := by simp [ringRead]

theorem getElem_pending (s : State) (j : Nat) (h : j < (pending s).length) : (pending s)[j] = ringByte s j := by
  simp [pending, getElem_ringRead]

theorem getElem?_pending (s : State) (j : Nat) (h : j < s.count) : (pending s)[j]? = some (ringByte s j) := by
  rw [List.getElem?_eq_getElem (by simpa using h), getElem_pending]

/-- `MemRead(RB, k, n)` of pending bytes is a run of the pending bytes. -/
theorem ringRead_eq_pending (s : State) (k n : Nat) (h : k + n ≤ s.count) : ringRead s k n = ((pending s).drop k).take n := by
  apply List.ext_getElem
  · simp; omega
  · intro j h1 h2
    rw [getElem_ringRead]
    simp [getElem_pending]

/-- The pending bytes depend on `cfg`, `rb`, `head`, `count` alone. -/
theorem pending_congr (s t : State) (hc : t.cfg = s.cfg) (hr : t.rb = s.rb) (hh : t.head = s.head) (hn : t.count = s.count) :
    pending t = pending s := by
  simp only [pending, ringRead, ringByte, ringIndex, hc, hr, hh, hn]

/-- `drop(k)` removes the `k` oldest pending bytes. -/
theorem pending_dropBytes (k : Nat) (s : State) : pending (dropBytes k s) = (pending s).drop k := by
  apply List.ext_getElem (by simp)
  intro j h1 h2
  rw [getElem_pending, ringByte_dropBytes, List.getElem_drop, getElem_pending]

/-- The byte appended is the newest pending byte. -/
theorem ringByte_append_self (b : Byte) (s : State) (h : Memory.wf s.rb = true) : ringByte (appendByte b s) s.count = b := by
  have e : ringIndex (appendByte b s) s.count = ringIndex s s.count := rfl
  rw [ringByte, e, appendByte_rb, Memory.read_write_self _ _ _ h]

/-- An append leaves the other pending bytes alone. -/
theorem ringByte_append_other (b : Byte) (s : State) (j : Nat) (hj : j < s.count) (hc : s.count < s.cfg.ringN) :
    ringByte (appendByte b s) j = ringByte s j := by
  have e : ringIndex (appendByte b s) j = ringIndex s j := rfl
  rw [ringByte, e, appendByte_rb, Memory.read_write_other _ _ _ _ (ringIndex_ne s j s.count hj (by omega))]
  rfl

/-- `append(b)` adds one newest pending byte. -/
theorem pending_appendByte (b : Byte) (s : State) (h : Memory.wf s.rb = true) (hc : s.count < s.cfg.ringN) :
    pending (appendByte b s) = pending s ++ [b] := by
  apply List.ext_getElem (by simp)
  intro j h1 h2
  simp only [length_pending, appendByte_count] at h1
  rw [getElem_pending]
  by_cases hj : j < s.count
  · rw [ringByte_append_other b s j hj hc, List.getElem_append_left (by simpa using hj), getElem_pending]
  · have : j = s.count := by omega
    subst this
    rw [ringByte_append_self b s h, List.getElem_append_right (by simp)]
    simp

/-- What one byte of a `PUSH` can do: append, or drop the oldest byte, abandon the candidate and append. -/
theorem pushByte_cases (b : Byte) (s : State) (n : Nat) :
    (s.count = s.cfg.ringN ∧ pushByte b s n = (appendByte b (resync (dropBytes 1 s)), n + 1)) ∨
    (s.count ≠ s.cfg.ringN ∧ pushByte b s n = (appendByte b s, n)) := by
  unfold pushByte
  split
  · exact .inl ⟨‹_›, rfl⟩
  · exact .inr ⟨‹_›, rfl⟩

end Sys2Proof.Machine
end

