-- ==== Sys2Proof/Laws/Parser.lean ====
section
/-! SUPPORT. What one byte of `PUSH` and one turn of `NEXT` can do (spec/43_parser.md R114 to R129). A proof about `NEXT` cites these and
does not unfold the turns. -/

namespace Sys2Proof.Machine

/-- Two chunks pushed in one command or one after the other. -/
theorem pushBytes_append (a b : List Byte) (s : State) (n : Nat) :
    pushBytes (a ++ b) s n = pushBytes b (pushBytes a s n).1 (pushBytes a s n).2 := by
  induction a generalizing s n with
  | nil => rfl
  | cons x a ih => simp only [List.cons_append, pushBytes, ih]

/-- What the loop of `PUSH` leaves alone. -/
theorem pushBytes_frame (d : List Byte) (s : State) (n : Nat) :
    (pushBytes d s n).1 =
      { s with
        rb := (pushBytes d s n).1.rb
        head := (pushBytes d s n).1.head
        count := (pushBytes d s n).1.count
        phase := (pushBytes d s n).1.phase
        dlen := (pushBytes d s n).1.dlen } := by
  induction d generalizing s n with
  | nil => rfl
  | cons b d ih =>
    simp only [pushBytes]
    rw [ih]
    rcases pushByte_cases b s n with ⟨_, e⟩ | ⟨_, e⟩ <;> rw [e] <;> rfl

/-- What a `PUSH` can answer. -/
theorem execPush_cases (d : List Byte) (s : State) :
    ((pushBytes d s 0).2 = 0 ∧ execPush d s = .next (respond .ok (pushBytes d s 0).1)) ∨
    (∃ k, (pushBytes d s 0).2 = k + 1 ∧
      execPush d s = .next (raiseError (.bufferOverflow (BitVec.ofNat 16 (k + 1))) (setOvf (pushBytes d s 0).1))) := by
  unfold execPush
  split
  · rename_i t e; exact .inl ⟨by rw [e], by rw [e]⟩
  · rename_i t k e; exact .inr ⟨k, by rw [e], by rw [e]⟩

theorem nextLoop_succ (n : Nat) (s : State) :
    nextLoop (n + 1) s = match nextTurn s with | .done r => r | .again t => nextLoop n t := rfl

/-- The turn in `SEEK` (transitions 1, 3 and 2 of R116). -/
theorem seekTurn_cases (s : State) :
    (s.count = 0 ∧ seekTurn s = .done (.next (respond (.noFrame s.skipped) s))) ∨
    (0 < s.count ∧ ringByte s 0 = s.cfg.sync ∧ seekTurn s = .again { s with phase := .waitLen }) ∨
    (0 < s.count ∧ ringByte s 0 ≠ s.cfg.sync ∧ seekTurn s = .again (countSkipped (dropBytes 1 s))) := by
  unfold seekTurn
  split
  · exact .inl ⟨‹_›, rfl⟩
  · split
    · exact .inr (.inl ⟨by omega, ‹_›, rfl⟩)
    · exact .inr (.inr ⟨by omega, ‹_›, rfl⟩)

/-- The turn in `WAIT_LEN` (transitions 4, 5 and 6 of R116). -/
theorem lengthTurn_cases (s : State) :
    (s.count < 2 ∧ lengthTurn s = .done (.next (respond (.noFrame s.skipped) s))) ∨
    (2 ≤ s.count ∧ ¬ LegalLength s.cfg (ringByte s 1) ∧
      lengthTurn s = .done (.next (raiseError (.invalidLength s.skipped (ringByte s 1)) (resync (dropBytes 1 s))))) ∨
    (2 ≤ s.count ∧ LegalLength s.cfg (ringByte s 1) ∧
      lengthTurn s = .again { s with dlen := ringByte s 1, phase := .waitPayload }) := by
  unfold lengthTurn
  split
  · exact .inl ⟨‹_›, rfl⟩
  · split
    · rename_i h; exact .inr (.inl ⟨by omega, (lengthIllegal_iff _ _).1 h, rfl⟩)
    · rename_i h
      exact .inr (.inr ⟨by omega, by by_contra hc; exact h ((lengthIllegal_iff _ _).2 hc), rfl⟩)

/-- The turn in `WAIT_PAYLOAD` (transitions 7, 8 and 9 of R116). -/
theorem payloadTurn_cases (s : State) :
    (s.count < 2 + s.dlen.toNat ∧ payloadTurn s = .done (.next (respond (.noFrame s.skipped) s))) ∨
    (2 + s.dlen.toNat ≤ s.count ∧ candidateCrc s ≠ candidateTrailer s ∧ payloadTurn s = .done (.next
      (raiseError (.checksumMismatch s.skipped (candidateCrc s) (candidateTrailer s)) (resync (dropBytes 1 s))))) ∨
    (2 + s.dlen.toNat ≤ s.count ∧ candidateCrc s = candidateTrailer s ∧
      payloadTurn s = .done (acceptFrame (ringRead s 0 (s.dlen.toNat + 2)) s.dlen.toNat s)) := by
  unfold payloadTurn
  split
  · rename_i h; exact .inl ⟨(candidateComplete_false_iff s).1 h, rfl⟩
  · rename_i h
    have h' : 2 + s.dlen.toNat ≤ s.count := by
      by_contra hc; exact h ((candidateComplete_false_iff s).2 (by omega))
    split
    · rename_i hc; exact .inr (.inl ⟨h', hc, rfl⟩)
    · rename_i hc; exact .inr (.inr ⟨h', by simpa using hc, rfl⟩)

/-- Acceptance within the bounds of `MemRead` and `MemWrite`. -/
theorem acceptFrame_of_fits (f : List Byte) (len : Nat) (s : State) (h2 : 2 < f.length) (h : f.length ≤ s.cfg.maxFrame) :
    acceptFrame f len s = .next (dispatchFrame f (f.getD 2 0) len (resync (dropBytes (len + 2) (writeFrame f s)))) := by
  unfold acceptFrame
  rw [List.getElem?_eq_getElem h2]
  simp [h, List.getD_eq_getElem?_getD, h2]

/-- What acceptance can answer. -/
theorem acceptFrame_cases (f : List Byte) (len : Nat) (s : State) :
    acceptFrame f len s = .fault .candidateOutOfBounds ∨
    (2 < f.length ∧ f.length ≤ s.cfg.maxFrame ∧
      acceptFrame f len s = .next (dispatchFrame f (f.getD 2 0) len (resync (dropBytes (len + 2) (writeFrame f s))))) := by
  by_cases h : 2 < f.length ∧ f.length ≤ s.cfg.maxFrame
  · exact .inr ⟨h.1, h.2, acceptFrame_of_fits f len s h.1 h.2⟩
  · refine .inl ?_
    unfold acceptFrame
    split
    · rename_i ty h2 h3
      have := (List.getElem?_eq_some_iff.1 h2).1
      simp only [decide_eq_true_eq] at h3
      exact absurd ⟨this, h3⟩ h
    · rfl

/-- What the dispatch on the type can do (R126 to R129). -/
theorem dispatchFrame_cases (f : List Byte) (ty : Byte) (len : Nat) (s : State) :
    (lookupType s.cfg.typeTable ty = none ∧ dispatchFrame f ty len s = raiseError (.unknownPacketType s.skipped ty) s) ∨
    ∃ row, lookupType s.cfg.typeTable ty = some row ∧
      ((len < kindOverhead row.kind + row.len.toNat ∧ dispatchFrame f ty len s = raiseError
        (.frameTooShort s.skipped ty row.len (BitVec.ofNat 8 (len - kindOverhead row.kind))) s) ∨
      (kindOverhead row.kind + row.len.toNat ≤ len ∧ ty = s.cfg.typeRC ∧ dispatchFrame f ty len s =
        respond (.frameChannels s.skipped ty 0 3 (BitVec.ofNat 8 (len - 2)))
          { s with ch := unpackChannels ((f.drop 3).take Config.rcLen) }) ∨
      (kindOverhead row.kind + row.len.toNat ≤ len ∧ ty ≠ s.cfg.typeRC ∧ dispatchFrame f ty len s =
        respond (.frameRaw s.skipped ty (kindByte row.kind) (kindOffset row.kind)
          (BitVec.ofNat 8 (len - kindOverhead row.kind))) s)) := by
  unfold dispatchFrame
  split
  · rename_i e; exact .inl ⟨e, rfl⟩
  · rename_i row e
    refine .inr ⟨row, e, ?_⟩
    split
    · exact .inl ⟨by omega, rfl⟩
    · split
      · exact .inr (.inl ⟨by omega, ‹_›, rfl⟩)
      · exact .inr (.inr ⟨by omega, ‹_›, rfl⟩)

/-- The dispatch writes `CH` and the response, nothing else. -/
theorem dispatchFrame_frame (f : List Byte) (ty : Byte) (len : Nat) (s : State) :
    dispatchFrame f ty len s =
      { s with
        ch := (dispatchFrame f ty len s).ch
        resp := (dispatchFrame f ty len s).resp } := by
  rcases dispatchFrame_cases f ty len s with ⟨_, e⟩ | ⟨row, _, ⟨_, e⟩ | ⟨_, _, e⟩ | ⟨_, _, e⟩⟩ <;> rw [e] <;> rfl

/-- What the loop of `NEXT` leaves alone: `CRC`, `RB`, `OVF`, the parameters, the command stream. -/
theorem nextLoop_frame (n : Nat) (s t : State) (h : nextLoop n s = .next t) :
    t =
      { s with
        ch := t.ch
        fb := t.fb
        flen := t.flen
        head := t.head
        count := t.count
        phase := t.phase
        dlen := t.dlen
        skipped := t.skipped
        resp := t.resp } := by
  induction n generalizing s with
  | zero => cases h
  | succ n ih =>
    rw [nextLoop_succ] at h
    unfold nextTurn at h
    cases hp : s.phase <;> rw [hp] at h <;> simp only at h
    · rcases seekTurn_cases s with ⟨_, e⟩ | ⟨_, _, e⟩ | ⟨_, _, e⟩ <;> rw [e] at h <;> simp only at h
      · cases h; rfl
      · rw [ih _ h]
      · rw [ih _ h]; rfl
    · rcases lengthTurn_cases s with ⟨_, e⟩ | ⟨_, _, e⟩ | ⟨_, _, e⟩ <;> rw [e] at h <;> simp only at h
      · cases h; rfl
      · cases h; rfl
      · rw [ih _ h]
    · rcases payloadTurn_cases s with ⟨_, e⟩ | ⟨_, _, e⟩ | ⟨_, _, e⟩ <;> rw [e] at h <;> simp only at h
      · cases h; rfl
      · cases h; rfl
      · rcases acceptFrame_cases (ringRead s 0 (s.dlen.toNat + 2)) s.dlen.toNat s with e | ⟨_, _, e⟩ <;> rw [e] at h
        · cases h
        · have h' := Host.Outcome.next.inj h
          rw [dispatchFrame_frame] at h'
          rw [← h']
          rfl

end Sys2Proof.Machine
end

