-- ==== Sys2Proof/Laws/PerInstr.lean ====
section
/-! SUPPORT. Lemmas made for each command (LAWS.json): the number of bytes of a command (spec/30_encoding.md R70). -/

namespace Sys2Proof.Laws

/-- The number of bytes of a command, format by format: Z 1, I 2, W 4, V `2 + n`, S `4 + p`, X `6 + p` (30_encoding.md R70). -/
def formatLength : Instr → Nat
  | .nop => 1
  | .reset => 1
  | .statusRead => 1
  | .clrFlags => 1
  | .crcReset => 1
  | .crcUpdate d => 2 + d.length
  | .crcRead => 1
  | .chWrite _ _ => 4
  | .chRead _ => 2
  | .pack _ => 2
  | .unpack d => 2 + d.length
  | .buildSimple _ _ d => 4 + d.length
  | .buildExt _ _ _ _ d => 6 + d.length
  | .buildCh _ => 2
  | .fbRead _ => 2
  | .push d => 2 + d.length
  | .next => 1

/-- A command has the length its format gives it, and no well-formed one is longer than `maxCommandBytes`. -/
def EncodedLength.Statement (i : Instr) : Prop :=
  (encode i).length = formatLength i ∧ (i.wf = true → (encode i).length ≤ maxCommandBytes)

/-- The lemma for a command without data. -/
theorem encodedLength_fixed (i : Instr) (n : Nat) (h : (encode i).length = n) (hf : formatLength i = n) (hn : n ≤ 261) :
    EncodedLength.Statement i := ⟨by rw [h, hf], fun _ => by rw [h]; exact hn⟩

/-- The lemma for a command with a data sequence after `n` bytes. -/
theorem encodedLength_counted (i : Instr) (d : List Byte) (n : Nat) (h : (encode i).length = d.length + n)
    (hf : formatLength i = n + d.length) (hw : i.wf = fitsCount d) (hn : n ≤ 6) : EncodedLength.Statement i := by
  refine ⟨by omega, fun hi => ?_⟩
  rw [hw] at hi
  have : d.length ≤ 255 := by simpa using hi
  rw [h]
  exact Nat.add_le_add this hn

theorem EncodedLength.nop : EncodedLength.Statement .nop := encodedLength_fixed _ 1 rfl rfl (by decide)
theorem EncodedLength.reset : EncodedLength.Statement .reset := encodedLength_fixed _ 1 rfl rfl (by decide)
theorem EncodedLength.statusRead : EncodedLength.Statement .statusRead := encodedLength_fixed _ 1 rfl rfl (by decide)
theorem EncodedLength.clrFlags : EncodedLength.Statement .clrFlags := encodedLength_fixed _ 1 rfl rfl (by decide)
theorem EncodedLength.crcReset : EncodedLength.Statement .crcReset := encodedLength_fixed _ 1 rfl rfl (by decide)
theorem EncodedLength.crcUpdate (d : List Byte) : EncodedLength.Statement (.crcUpdate d) :=
  encodedLength_counted _ d 2 rfl rfl rfl (by decide)
theorem EncodedLength.crcRead : EncodedLength.Statement .crcRead := encodedLength_fixed _ 1 rfl rfl (by decide)
theorem EncodedLength.chWrite (idx : Byte) (v : Half) : EncodedLength.Statement (.chWrite idx v) :=
  encodedLength_fixed _ 4 rfl rfl (by decide)
theorem EncodedLength.chRead (idx : Byte) : EncodedLength.Statement (.chRead idx) := encodedLength_fixed _ 2 rfl rfl (by decide)
theorem EncodedLength.pack (wlen : Byte) : EncodedLength.Statement (.pack wlen) := encodedLength_fixed _ 2 rfl rfl (by decide)
theorem EncodedLength.unpack (d : List Byte) : EncodedLength.Statement (.unpack d) :=
  encodedLength_counted _ d 2 rfl rfl rfl (by decide)
theorem EncodedLength.buildSimple (sync ty : Byte) (d : List Byte) : EncodedLength.Statement (.buildSimple sync ty d) :=
  encodedLength_counted _ d 4 rfl rfl rfl (by decide)
theorem EncodedLength.buildExt (sync ty dst src : Byte) (d : List Byte) :
    EncodedLength.Statement (.buildExt sync ty dst src d) := encodedLength_counted _ d 6 rfl rfl rfl (by decide)
theorem EncodedLength.buildCh (sync : Byte) : EncodedLength.Statement (.buildCh sync) :=
  encodedLength_fixed _ 2 rfl rfl (by decide)
theorem EncodedLength.fbRead (off : Byte) : EncodedLength.Statement (.fbRead off) := encodedLength_fixed _ 2 rfl rfl (by decide)
theorem EncodedLength.push (d : List Byte) : EncodedLength.Statement (.push d) :=
  encodedLength_counted _ d 2 rfl rfl rfl (by decide)
theorem EncodedLength.next : EncodedLength.Statement .next := encodedLength_fixed _ 1 rfl rfl (by decide)

end Sys2Proof.Laws
end

