-- ==== Sys2Proof/Laws/Pseudo.lean ====
section
/-! SUPPORT. What the pseudo-commands of spec/30_encoding.md R77 do: sequences of commands, the `CRC_UPDATE` commands of `CRC_COMPUTE`,
and the `FB_READ` commands of `FB_DUMP`. -/

namespace Sys2Proof.Machine

/-- A sequence after a sequence that is answered throughout. -/
theorem runCommands_append (is js : List Instr) (s t : State) (rs : List Response) (h : runCommands is s = some (rs, t)) :
    runCommands (is ++ js) s = (runCommands js t).map fun p => (rs ++ p.1, p.2) := by
  induction is generalizing s rs with
  | nil => cases h; simp
  | cons i is ih =>
    simp only [runCommands] at h
    split at h
    · rename_i u hu
      split at h
      · rename_i rs' v hv
        cases h
        simp only [List.cons_append, runCommands, hu, ih u rs' hv]
        cases runCommands js t <;> simp
      · cases h
    · cases h

/-- The encoding can carry each `CRC_UPDATE` of `CRC_COMPUTE`. -/
theorem crcUpdateCmds_wf (n : Nat) (bs : List Byte) (i : Instr) (h : i ∈ crcUpdateCmds n bs) : i.wf = true := by
  induction n generalizing bs with
  | zero => cases h
  | succ n ih =>
    rcases List.mem_cons.1 h with rfl | h
    · simp [Instr.wf, fitsCount]
    · exact ih _ h

/-- `n` `CRC_UPDATE` commands take in all bytes of a sequence of at most `255 * n`, and write nothing else. -/
theorem runCommands_crcUpdateCmds (n : Nat) (bs : List Byte) (s : State) (h : bs.length ≤ 255 * n) :
    ∃ rs r, runCommands (crcUpdateCmds n bs) s = some (rs, { s with crc := crcFrom s.cfg s.crc bs, resp := r }) := by
  induction n generalizing bs s with
  | zero =>
    obtain rfl : bs = [] := List.length_eq_zero_iff.1 (by omega)
    exact ⟨_, s.resp, rfl⟩
  | succ n ih =>
    obtain ⟨rs, r, e⟩ := ih (bs.drop 255) (respond .ok { s with crc := crcFrom s.cfg s.crc (bs.take 255) })
      (by rw [List.length_drop]; omega)
    refine ⟨Response.ok :: rs, r, ?_⟩
    simp only [crcUpdateCmds, runCommands, exec, execCrcUpdate, e]
    simp only [respond, crcFrom, ← List.foldl_append, List.take_append_drop]
    rfl

/-- A run of `FB_READ` commands within `MAX_FRAME` answers the bytes of `FB`, and changes no element. -/
theorem runCommands_fbReads (n a : Nat) (s : State) (h : a + n ≤ s.cfg.maxFrame) :
    ∃ rs r, runCommands ((List.range' a n).map fun k => .fbRead (BitVec.ofNat 8 k)) s = some (rs, { s with resp := r }) ∧
      readBytes rs = some (Memory.readBytes s.fb a n) := by
  induction n generalizing a s with
  | zero => exact ⟨[], s.resp, rfl, rfl⟩
  | succ n ih =>
    have hm := s.cfg.maxFrame_le
    obtain ⟨rs, r, e, hb⟩ := ih (a + 1) (respond (.okByte (Memory.read s.fb a)) s) (by show a + 1 + n ≤ s.cfg.maxFrame; omega)
    have hx : exec (.fbRead (BitVec.ofNat 8 a)) s = .next (respond (.okByte (Memory.read s.fb a)) s) := by
      have ha : (BitVec.ofNat 8 a).toNat = a := by simp; omega
      simp only [exec, execFbRead, ha]
      rw [if_neg (by omega)]
    refine ⟨.okByte (Memory.read s.fb a) :: rs, r, ?_, ?_⟩
    · simp only [List.range'_succ, List.map_cons, runCommands, hx, e]; rfl
    · simp only [readBytes, hb]; rfl

/-- `FB_DUMP` where `FLEN` is within `MAX_FRAME`: the answer is the frame in `FB`, and no element changes. -/
theorem fbDump_of_flen_le (s : State) (h : s.flen.toNat ≤ s.cfg.maxFrame) :
    ∃ r, fbDump s = some (currentFrame s, { s with resp := r }) := by
  obtain ⟨rs, r, e, hb⟩ := runCommands_fbReads s.flen.toNat 0 (respond (.okStatus (statusBytes s)) s) (by rw [Nat.zero_add]; exact h)
  refine ⟨r, ?_⟩
  have hs : shownFlen (.okStatus (statusBytes s)) = some s.flen := rfl
  simp only [fbDump, exec, execStatusRead, respond, Option.bind_some, hs, fbDumpCmds, List.range_eq_range']
  simp only [respond] at e hb
  rw [e]
  simp only [hb]
  rfl

end Sys2Proof.Machine
end

