-- ==== Sys2Proof/Tests/Slice0.lean ====
section
/-! SUPPORT. Tests. Expected values are those of spec/95_test_vectors.md (the vector's id stands in the comment) and of the encodings of
spec/30_encoding.md R70, R71, written out by hand. The last part shows, for each statement with hypotheses, a state and operands that
meet them. -/

namespace Sys2Proof.Tests

open Sys2Proof Sys2Proof.Machine

-- One test after another: each kernel evaluation would otherwise hold a thread of its own.
set_option Elab.async false

/-! ## Helpers -/

/-- Whether an outcome is a next state with a property. -/
def passes (p : State → Bool) : Result → Bool
  | .next t => p t
  | _ => false

theorem exists_of_passes (p : State → Bool) (r : Result) (h : passes p r = true) : ∃ t, r = .next t ∧ p t = true := by
  cases r with
  | next t => exact ⟨t, rfl, h⟩
  | fault _ => cases h
  | refused _ => cases h

/-- One step on the command bytes `bs`. -/
def stepOn (s : State) (bs : List Byte) : Result := step (s.withCmds bs)

/-- The bytes of the response of one step on `bs`. -/
def answers (s : State) (bs answer : List Byte) : Bool :=
  passes (fun t => decide ((t.resp.map Response.toBytes) = some answer)) (stepOn s bs)

/-- A small state: the bytes `bs` pending from ring index 0. -/
def holding (bs : List Byte) : State := { State.reset with rb := Memory.writeBytes [] 0 bs, count := bs.length }

/-- The same in a given position of the synchronizer. -/
def holdingAt (ph : Phase) (dlen : Byte) (bs : List Byte) : State := { holding bs with phase := ph, dlen := dlen }

/-- A state with all channels at one value. -/
def allChannels (x : Chan) : State := { State.reset with ch := Vector.replicate 16 x }

/-- The ping frame F3 and the frame F6. -/
def frameF3 : List Byte := [0xC8, 0x04, 0x28, 0x00, 0xEA, 0x54]
def frameF6 : List Byte := [0xC8, 0x02, 0x7F, 0x16]
/-- The payload K3 (all channels 992) and the frame F1 that carries it. -/
def payloadK3 : List Byte :=
  [0xE0, 0x03, 0x1F, 0xF8, 0xC0, 0x07, 0x3E, 0xF0, 0x81, 0x0F, 0x7C] ++
  [0xE0, 0x03, 0x1F, 0xF8, 0xC0, 0x07, 0x3E, 0xF0, 0x81, 0x0F, 0x7C]
def frameF1 : List Byte := [0xC8, 0x18, 0x16] ++ payloadK3 ++ [0xAD]

/-! ## WellFormed: an ill-formed term for each check -/

def tooLong : List Byte := List.replicate 256 0

theorem test_wf_refuses_crcUpdate : (Instr.crcUpdate tooLong).wf = false := by decide +kernel
theorem test_wf_refuses_unpack : (Instr.unpack tooLong).wf = false := by decide +kernel
theorem test_wf_refuses_buildSimple : (Instr.buildSimple 0xC8 0x14 tooLong).wf = false := by decide +kernel
theorem test_wf_refuses_buildExt : (Instr.buildExt 0xC8 0x28 0 0 tooLong).wf = false := by decide +kernel
theorem test_wf_refuses_push : (Instr.push tooLong).wf = false := by decide +kernel
theorem test_wf_accepts_longest : (Instr.push (List.replicate 255 0)).wf = true := by decide +kernel

/-! ## Decoding: one word for each command, written out from R70 and R71 -/

theorem test_decode_nop : decode [0x00] = .command .nop [] := by decide
theorem test_decode_reset : decode [0x01] = .command .reset [] := by decide
theorem test_decode_statusRead : decode [0x02] = .command .statusRead [] := by decide
theorem test_decode_clrFlags : decode [0x03] = .command .clrFlags [] := by decide
theorem test_decode_crcReset : decode [0x10] = .command .crcReset [] := by decide
theorem test_decode_crcUpdate : decode [0x11, 0x03, 0x28, 0x00, 0xEA] = .command (.crcUpdate [0x28, 0x00, 0xEA]) [] := by decide
theorem test_decode_crcRead : decode [0x12] = .command .crcRead [] := by decide
theorem test_decode_chWrite : decode [0x20, 0x03, 0xE0, 0x03] = .command (.chWrite 3 992) [] := by decide
theorem test_decode_chRead : decode [0x21, 0x10] = .command (.chRead 16) [] := by decide
theorem test_decode_pack : decode [0x22, 0x16] = .command (.pack 22) [] := by decide
theorem test_decode_unpack : decode [0x23, 0x02, 0xFF, 0x07, 0x41] = .command (.unpack [0xFF, 0x07]) [0x41] := by decide
theorem test_decode_buildSimple : decode [0x30, 0xC8, 0x7F, 0x01, 0x55] = .command (.buildSimple 0xC8 0x7F [0x55]) [] := by decide
theorem test_decode_buildExt :
    decode [0x31, 0xC8, 0x2C, 0xEE, 0xEA, 0x02, 0x01, 0x00] = .command (.buildExt 0xC8 0x2C 0xEE 0xEA [0x01, 0x00]) [] := by decide
theorem test_decode_buildCh : decode [0x32, 0xC8] = .command (.buildCh 0xC8) [] := by decide
theorem test_decode_fbRead : decode [0x33, 0x19] = .command (.fbRead 25) [] := by decide
theorem test_decode_push : decode [0x40, 0x01, 0xC8, 0x41] = .command (.push [0xC8]) [0x41] := by decide
theorem test_decode_next : decode [0x41] = .command .next [] := by decide

/-- Y8: reserved opcodes around the map are one-byte commands. -/
theorem test_decode_reserved : decode [0x04, 0x41] = .reserved 0x04 [0x41] ∧ decode [0x13] = .reserved 0x13 [] ∧
    decode [0x24] = .reserved 0x24 [] ∧ decode [0x34] = .reserved 0x34 [] ∧ decode [0x42] = .reserved 0x42 [] ∧
    decode [0x80] = .reserved 0x80 [] ∧ decode [0xFF] = .reserved 0xFF [] := by decide

/-- Incomplete commands (93 U8). -/
theorem test_decode_incomplete : decode [0x20, 0x03, 0xE0] = .needMoreBytes ∧ decode [0x21] = .needMoreBytes ∧
    decode [0x40, 0x02, 0xC8] = .needMoreBytes ∧ decode [0x30, 0xC8, 0x7F] = .needMoreBytes ∧
    decode [0x31, 0xC8, 0x28, 0x00, 0xEA] = .needMoreBytes ∧ decode [] = .idle := by decide

/-- The table's words: the first byte is bits 7..0. -/
theorem test_table_words : decodeTableWord 8 0x41 = some .next ∧ decodeTableWord 8 0x11 = some (.crcUpdate []) ∧
    decodeTableWord 32 0x03E00320 = some (.chWrite 3 992) ∧ decodeTableWord 8 0x31 = some (.buildExt 0 0 0 0 []) ∧
    decodeTableWord 8 0x04 = none := by decide +kernel

/-- A placed word runs as the very next step. -/
theorem test_placed_word_runs :
    passes (fun t => decide (t.resp = some (.noFrame 0))) (step (State.reset.withFetchWord 8 0x41)) = true := by decide +kernel

/-! ## Parameters (00_scope.md R10) -/

/-- The tag 29 may be the packed channels' in a table without a device-info row, and then the smallest frame is legal. -/
theorem test_legal_tag29 : { Params.defaults 128 0 with
    maxFrame := 26, typeRC := 0x29, typeTable := [⟨0x29, .simple, 22⟩], deviceInfoTag := none }.isLegal = true := by decide
/-- Under any tag, a device-info row has the length `LEN_DEVICE_INFO`, at most `MAX_LEN - OVH_EXT = 58`. -/
theorem test_device_info_bound : (Params.defaults 128 58).isLegal = true ∧ (Params.defaults 128 59).isLegal = false ∧
    { Params.defaults 128 58 with typeTable := [⟨0x16, .simple, 22⟩, ⟨0x2A, .extended, 59⟩], deviceInfoTag := some 0x2A }.isLegal = false ∧
    { Params.defaults 128 0 with deviceInfoTag := some 0x2D }.isLegal = false := by decide

/-! ## System commands -/

/-- Y1. -/
theorem test_nop : answers State.reset [0x00] [0x00] = true := by decide +kernel
/-- 44_system.md R141, its example. -/
theorem test_reset : passes (fun t => decide ((t.count, t.phase, t.dlen, t.ovf, t.crc) = (0, .seek, 0, false, 0)))
    (stepOn { holdingAt .waitPayload 4 [0xC8, 0x04, 0x28, 0x00, 0xEA] with ovf := true, crc := 0x54 } [0x01]) = true := by
  decide +kernel
/-- Y2, and Y3 from the state its first two commands leave. -/
theorem test_statusRead : answers State.reset [0x02] [0, 0, 0, 0, 0, 0, 0, 0] = true ∧
    answers (holdingAt .waitPayload 4 [0xC8, 0x04, 0x28]) [0x02] [0x00, 0x02, 0x03, 0x00, 0x00, 0x00, 0x04, 0x00] = true := by
  decide +kernel
/-- Y4, and O6: the high byte positions, OVF in bit 2. -/
theorem test_statusRead_fields :
    answers (holdingAt .waitPayload 4 frameF3) [0x02] [0x00, 0x03, 0x06, 0x00, 0x00, 0x00, 0x04, 0x00] = true ∧
    answers { State.reset with ovf := true, count := 0x102, skipped := 0x304, flen := 26 } [0x02]
      [0x00, 0x0C, 0x02, 0x01, 0x04, 0x03, 0x00, 0x1A] = true := by decide +kernel
/-- O6. -/
theorem test_clrFlags : passes (fun t => decide ((t.ovf, t.count, t.skipped) = (false, 6, 3)))
    (stepOn { holding frameF3 with ovf := true, skipped := 3 } [0x03]) = true := by decide +kernel
/-- Y7: an illegal command disturbs nothing (Y9). -/
theorem test_reserved : answers State.reset [0x04] [0x87, 0x04] = true ∧
    passes (fun t => decide (t = { holding [0xC8] with resp := some (.illegalCommand 0xFF) })) (stepOn (holding [0xC8]) [0xFF]) = true := by
  decide +kernel

/-! ## The checksum unit -/

/-- W2's first command. -/
theorem test_crcReset : passes (fun t => decide (t.crc = 0)) (stepOn { State.reset with crc := 0x54 } [0x10]) = true := by
  decide +kernel
/-- W2, W4. -/
theorem test_crcUpdate : passes (fun t => decide (t.crc = 0x54)) (stepOn State.reset [0x11, 0x03, 0x28, 0x00, 0xEA]) = true ∧
    passes (fun t => decide (t.crc = 0x5A)) (stepOn { State.reset with crc := 0x54 } [0x11, 0x03, 0x28, 0x00, 0xEA]) = true := by
  decide +kernel
/-- W2. -/
theorem test_crcRead : answers { State.reset with crc := 0x54 } [0x12] [0x00, 0x54] = true := by decide +kernel

/-- The published check value of "123456789", V8 (40_crc.md R89). -/
theorem test_crc8_check_value :
    crc8 Config.default [0x31, 0x32, 0x33, 0x34, 0x35, 0x36, 0x37, 0x38, 0x39] = 0xBC := by decide +kernel

/-- The table of 40_crc.md R80, row by row. -/
def tableRows : List (List Byte) :=
  [[0x00, 0xD5, 0x7F, 0xAA, 0xFE, 0x2B, 0x81, 0x54, 0x29, 0xFC, 0x56, 0x83, 0xD7, 0x02, 0xA8, 0x7D],
   [0x52, 0x87, 0x2D, 0xF8, 0xAC, 0x79, 0xD3, 0x06, 0x7B, 0xAE, 0x04, 0xD1, 0x85, 0x50, 0xFA, 0x2F]] ++
  [[0xA4, 0x71, 0xDB, 0x0E, 0x5A, 0x8F, 0x25, 0xF0, 0x8D, 0x58, 0xF2, 0x27, 0x73, 0xA6, 0x0C, 0xD9],
   [0xF6, 0x23, 0x89, 0x5C, 0x08, 0xDD, 0x77, 0xA2, 0xDF, 0x0A, 0xA0, 0x75, 0x21, 0xF4, 0x5E, 0x8B]] ++
  [[0x9D, 0x48, 0xE2, 0x37, 0x63, 0xB6, 0x1C, 0xC9, 0xB4, 0x61, 0xCB, 0x1E, 0x4A, 0x9F, 0x35, 0xE0],
   [0xCF, 0x1A, 0xB0, 0x65, 0x31, 0xE4, 0x4E, 0x9B, 0xE6, 0x33, 0x99, 0x4C, 0x18, 0xCD, 0x67, 0xB2]] ++
  [[0x39, 0xEC, 0x46, 0x93, 0xC7, 0x12, 0xB8, 0x6D, 0x10, 0xC5, 0x6F, 0xBA, 0xEE, 0x3B, 0x91, 0x44],
   [0x6B, 0xBE, 0x14, 0xC1, 0x95, 0x40, 0xEA, 0x3F, 0x42, 0x97, 0x3D, 0xE8, 0xBC, 0x69, 0xC3, 0x16]] ++
  [[0xEF, 0x3A, 0x90, 0x45, 0x11, 0xC4, 0x6E, 0xBB, 0xC6, 0x13, 0xB9, 0x6C, 0x38, 0xED, 0x47, 0x92],
   [0xBD, 0x68, 0xC2, 0x17, 0x43, 0x96, 0x3C, 0xE9, 0x94, 0x41, 0xEB, 0x3E, 0x6A, 0xBF, 0x15, 0xC0]] ++
  [[0x4B, 0x9E, 0x34, 0xE1, 0xB5, 0x60, 0xCA, 0x1F, 0x62, 0xB7, 0x1D, 0xC8, 0x9C, 0x49, 0xE3, 0x36],
   [0x19, 0xCC, 0x66, 0xB3, 0xE7, 0x32, 0x98, 0x4D, 0x30, 0xE5, 0x4F, 0x9A, 0xCE, 0x1B, 0xB1, 0x64]] ++
  [[0x72, 0xA7, 0x0D, 0xD8, 0x8C, 0x59, 0xF3, 0x26, 0x5B, 0x8E, 0x24, 0xF1, 0xA5, 0x70, 0xDA, 0x0F],
   [0x20, 0xF5, 0x5F, 0x8A, 0xDE, 0x0B, 0xA1, 0x74, 0x09, 0xDC, 0x76, 0xA3, 0xF7, 0x22, 0x88, 0x5D]] ++
  [[0xD6, 0x03, 0xA9, 0x7C, 0x28, 0xFD, 0x57, 0x82, 0xFF, 0x2A, 0x80, 0x55, 0x01, 0xD4, 0x7E, 0xAB],
   [0x84, 0x51, 0xFB, 0x2E, 0x7A, 0xAF, 0x05, 0xD0, 0xAD, 0x78, 0xD2, 0x07, 0x53, 0x86, 0x2C, 0xF9]]

theorem test_crc_table : (List.range 256).map (fun i => crcTable Config.default (BitVec.ofNat 8 i)) = tableRows.flatten := by
  decide +kernel

/-! ## The channel codec -/

/-- C1, C4, C5: truncation. -/
theorem test_chWrite : passes (fun t => decide (t.ch[3] = 992 ∧ t.ch[2] = 0)) (stepOn State.reset [0x20, 0x03, 0xE0, 0x03]) = true ∧
    passes (fun t => decide (t.ch[3] = 992)) (stepOn State.reset [0x20, 0x03, 0xE0, 0x0B]) = true ∧
    passes (fun t => decide (t.ch[3] = 2047)) (stepOn State.reset [0x20, 0x03, 0xFF, 0xFF]) = true := by decide +kernel
/-- C6. -/
theorem test_chWrite_illegal : answers State.reset [0x20, 0x10, 0x05, 0x00] [0x87, 0x20] = true := by decide +kernel
/-- C2, C7, C8. -/
theorem test_chRead : answers (allChannels 2047) [0x21, 0x03] [0x00, 0xFF, 0x07] = true ∧
    answers State.reset [0x21, 0x10] [0x87, 0x21] = true ∧ answers State.reset [0x21, 0xFF] [0x87, 0x21] = true := by decide +kernel
/-- C9, C10, C12. -/
theorem test_pack : answers (allChannels 992) [0x22, 0x16] (0x00 :: payloadK3) = true ∧
    answers (allChannels 992) [0x22, 0x15] [0x81] = true ∧ answers (allChannels 992) [0x22, 0xFF] (0x00 :: payloadK3) = true := by
  decide +kernel
/-- K10 and K8: a channel over three bytes, and the last channel. -/
theorem test_pack_layout : packChannels ((Vector.replicate 16 0).set 5 0x555) =
      List.replicate 6 0 ++ [0x80, 0xAA, 0x02] ++ List.replicate 13 0 ∧
    packChannels ((Vector.replicate 16 0).set 15 2047) = List.replicate 20 0 ++ [0xE0, 0xFF] := by decide +kernel
/-- C14 (K5), C15, C13. -/
theorem test_unpack : passes (fun t => decide ((t.ch[0], t.ch[1], t.ch[14], t.ch[15]) = (2047, 0, 2047, 0)))
      (stepOn State.reset ([0x23, 0x16, 0xFF, 0x07, 0xC0, 0xFF, 0x01, 0xF0, 0x7F, 0x00, 0xFC, 0x1F, 0x00] ++
        [0xFF, 0x07, 0xC0, 0xFF, 0x01, 0xF0, 0x7F, 0x00, 0xFC, 0x1F, 0x00])) = true ∧
    passes (fun t => decide (t.ch = Vector.replicate 16 992)) (stepOn State.reset ([0x23, 0x17] ++ payloadK3 ++ [0x77])) = true ∧
    passes (fun t => decide (t.ch = Vector.replicate 16 5 ∧ t.resp = some .bufferTooSmall))
      (stepOn (allChannels 5) ([0x23, 0x15] ++ List.replicate 21 0xFF)) = true := by decide +kernel
/-- K12. -/
theorem test_unpack_layout : (unpackChannels ((List.range 22).map fun k => BitVec.ofNat 8 (k + 1))).toList =
    [513, 96, 1040, 770, 112, 528, 642, 88, 1292, 449, 60, 136, 289, 38, 1349, 176] := by decide +kernel

/-! ## Frame construction -/

/-- F6. -/
theorem test_buildSimple : answers State.reset [0x30, 0xC8, 0x7F, 0x00] [0x00, 0x04] = true ∧
    passes (fun t => decide (currentFrame t = frameF6)) (stepOn State.reset [0x30, 0xC8, 0x7F, 0x00]) = true := by decide +kernel
/-- B1: 61 payload bytes do not fit; the largest frame is F11. -/
theorem test_buildSimple_bounds :
    passes (fun t => decide ((t.flen, t.fb, t.resp) = (0, [], some .bufferTooSmall)))
      (exec (.buildSimple 0xC8 0x7F (List.replicate 61 0)) State.reset) = true ∧
    passes (fun t => decide (t.flen = 64 ∧ Memory.read t.fb 1 = 0x3E ∧ Memory.read t.fb 63 = 0x0E))
      (exec (.buildSimple 0xC8 0x7F ((List.range 60).map (BitVec.ofNat 8))) State.reset) = true := by decide +kernel
/-- F3, F4. -/
theorem test_buildExt : passes (fun t => decide (currentFrame t = frameF3)) (stepOn State.reset [0x31, 0xC8, 0x28, 0x00, 0xEA, 0x00]) = true ∧
    passes (fun t => decide (currentFrame t = [0xC8, 0x06, 0x2C, 0xEE, 0xEA, 0x01, 0x00, 0x86]))
      (stepOn State.reset [0x31, 0xC8, 0x2C, 0xEE, 0xEA, 0x02, 0x01, 0x00]) = true := by decide +kernel
/-- B3. -/
theorem test_buildExt_bounds :
    passes (fun t => decide (t.resp = some .bufferTooSmall)) (exec (.buildExt 0xC8 0x2C 0xEE 0xEA (List.replicate 59 0)) State.reset) = true ∧
    passes (fun t => decide (t.flen = 64)) (exec (.buildExt 0xC8 0x2C 0xEE 0xEA (List.replicate 58 0)) State.reset) = true := by
  decide +kernel
/-- F1, F10. -/
theorem test_buildCh : passes (fun t => decide (currentFrame t = frameF1)) (stepOn (allChannels 992) [0x32, 0xC8]) = true ∧
    passes (fun t => decide (currentFrame t = 0xEE :: frameF1.drop 1)) (stepOn (allChannels 992) [0x32, 0xEE]) = true := by decide +kernel
/-- B5, B4, B6, B7. -/
theorem test_fbRead : answers (writeFrame frameF3 State.reset) [0x33, 0x05] [0x00, 0x54] = true ∧
    answers (writeFrame frameF3 (writeFrame frameF1 State.reset)) [0x33, 0x06] [0x00, 0x00] = true ∧
    answers State.reset [0x33, 0x3F] [0x00, 0x00] = true ∧ answers State.reset [0x33, 0x40] [0x87, 0x33] = true := by decide +kernel

/-! ## The parser -/

/-- 43_parser.md R114, its example; O2. -/
theorem test_push : passes (fun t => decide (pending t = [0xC8, 0x04, 0x28] ∧ t.phase = .seek ∧ t.resp = some .ok))
      (stepOn State.reset [0x40, 0x03, 0xC8, 0x04, 0x28]) = true ∧
    passes (fun t => decide ((t.count, t.head, t.ovf, ringByte t 127, t.resp) = (128, 1, true, 0xC8, some (.bufferOverflow 1))))
      (stepOn (holding (List.replicate 128 0)) [0x40, 0x01, 0xC8]) = true := by decide +kernel
/-- O3: a chunk longer than the ring. -/
theorem test_push_long : passes (fun t => decide ((t.head, t.count, ringByte t 0, ringByte t 127, t.resp) =
      (75, 128, 72, 0xC7, some (.bufferOverflow 75))))
    (exec (.push ((List.range 200).map (BitVec.ofNat 8))) (holding [0x01, 0x02, 0x03])) = true := by decide +kernel
/-- T2, T5, T8, T20, M8. -/
theorem test_next_waits_and_errors : answers (holding [0x00, 0x01, 0xFF]) [0x41] [0x01, 0x03, 0x00] = true ∧
    answers (holding [0xC8, 0x3F]) [0x41] [0x82, 0x00, 0x00, 0x3F] = true ∧
    passes (fun t => decide (pending t = [0xC8, 0x02, 0x7F, 0x16])) (stepOn (holding [0xC8, 0xC8, 0x02, 0x7F, 0x16]) [0x41]) = true ∧
    answers (holding [0xC8, 0x04, 0x28, 0x00, 0xEA, 0x55]) [0x41] [0x83, 0x00, 0x00, 0x54, 0x55] = true ∧
    passes (fun t => decide ((t.phase, t.dlen, t.count, t.resp) = (.waitPayload, 5, 6, some (.noFrame 0))))
      (stepOn (holding [0xC8, 0x05, 0x28, 0x00, 0xEA, 0x54]) [0x41]) = true := by decide +kernel
/-- T21 (with T12), T9, T13, T14, T18. -/
theorem test_next_frames :
    passes (fun t => decide (t.ch = Vector.replicate 16 992 ∧ currentFrame t = frameF1 ∧ t.count = 0 ∧
      t.resp = some (.frameChannels 1 0x16 0 3 22))) (stepOn (holding (0x55 :: frameF1)) [0x41]) = true ∧
    answers (holding frameF3) [0x41] [0x03, 0x00, 0x00, 0x28, 0x01, 0x05, 0x00] = true ∧
    answers (holding frameF6) [0x41] [0x84, 0x00, 0x00, 0x7F] = true ∧
    answers (holding [0xC8, 0x04, 0x16, 0xAA, 0xBB, 0x73]) [0x41] [0x81, 0x00, 0x00, 0x16, 0x16, 0x02] = true ∧
    answers (holding [0xC8, 0x02, 0x28, 0x8D]) [0x41] [0x81, 0x00, 0x00, 0x28, 0x00, 0x00] = true := by decide +kernel

/-- T5 as a `DRAIN` (30_encoding.md R77). -/
theorem test_drain : (drain (holding [0xC8, 0x3F])).map Prod.fst = some [.invalidLength 0 0x3F, .noFrame 1] := by decide +kernel

/-- 30_encoding.md R77: 256 bytes take two `CRC_UPDATE`; the answer for W2's bytes; F3 dumped. -/
theorem test_crcCompute : (crcComputeCmds (List.replicate 256 0)).length = 4 ∧ (crcComputeCmds []).length = 3 ∧
    (crcCompute [0x28, 0x00, 0xEA] State.reset).map Prod.fst = some (.okCrc 0x54) := by decide +kernel
theorem test_fbDump : (fbDump (writeFrame frameF3 State.reset)).map Prod.fst = some frameF3 := by decide +kernel

/-! ## Witnesses: states and operands that meet the hypotheses of the statements -/

/-- The states `holdingAt` meet the invariants when their position fits their bytes. -/
theorem holdingAt_inv (ph : Phase) (dl : Byte) (bs : List Byte) (hl : bs.length ≤ 128)
    (h2 : ph ≠ .seek → 1 ≤ bs.length ∧ ringByte (holdingAt ph dl bs) 0 = 0xC8)
    (h3 : ph = .waitPayload → 2 ≤ bs.length ∧ ringByte (holdingAt ph dl bs) 1 = dl ∧ 2 ≤ dl.toNat ∧ dl.toNat ≤ 62)
    (h4 : ph ≠ .waitPayload → dl = 0) : Inv (holdingAt ph dl bs) where
  memory :=
    { fb_wf := rfl
      rb_wf := Memory.wf_writeBytes _ _ _ rfl
      fb_within := rfl
      rb_within := Memory.within_writeBytes _ _ _ _ (by rw [Nat.zero_add]; exact hl) rfl }
  parser :=
    { count_le := hl
      head_lt := show 0 < 128 by decide
      candidate := h2
      latched := h3
      unlatched := h4
      skipped_le := Nat.zero_le _ }
  frame := { valid := .inl rfl, zero_after := fun _ _ _ => rfl }

theorem holding_inv (bs : List Byte) (hl : bs.length ≤ 128) : Inv (holding bs) :=
  holdingAt_inv .seek 0 bs hl (fun h => absurd rfl h) (fun h => absurd h (by decide)) (fun _ => rfl)

/-- The states of the witnesses: just reset, waiting for a length, waiting for a payload, holding a whole frame. -/
theorem test_witness_inv : Inv (holding []) ∧ Inv (holdingAt .waitLen 0 [0xC8]) ∧
    Inv (holdingAt .waitPayload 4 [0xC8, 0x04, 0x28]) ∧ Inv (holding frameF3) :=
  ⟨holding_inv _ (by decide), holdingAt_inv _ _ _ (by decide) (by decide) (by decide) (by decide),
    holdingAt_inv _ _ _ (by decide) (by decide) (by decide) (by decide), holding_inv _ (by decide)⟩

/-- DecodeReadsBackEncode: the shortest and the longest command. -/
theorem test_witness_DecodeReadsBackEncode : Instr.nop.wf = true ∧ (Instr.buildExt 0 0 0 0 (List.replicate 255 0)).wf = true := by
  decide +kernel

/-- DecodedBytesAreTheEncoding, StepRunsDecodedCommand. -/
theorem test_witness_decoded : decode (State.reset.withCmds [0x40, 0x01, 0xC8, 0x41]).cmds = .command (.push [0xC8]) [0x41] := by decide

/-- IllegalCommandRecordsOpcodeOnly: opcode 04, index 16, offset MAX_FRAME. -/
theorem test_witness_IllegalCommand :
    (0x04 : Byte) ∉ ([0x00, 0x01, 0x02, 0x03, 0x10, 0x11, 0x12, 0x20, 0x21, 0x22, 0x23, 0x30, 0x31, 0x32, 0x33, 0x40, 0x41] : List Byte) ∧
    (State.reset.withCmds [0x04, 0x41]).cmds = 0x04 :: [0x41] ∧ 15 < (16 : Byte).toNat ∧
    State.reset.cfg.maxFrame ≤ (64 : Byte).toNat := by decide

/-- TruncatedCommandHasNoStep: cut after the opcode, and cut before the last byte. -/
theorem test_witness_Truncated : (Instr.crcUpdate [0x28, 0x00, 0xEA]).wf = true ∧ 0 < 1 ∧ 4 < (encode (.crcUpdate [0x28, 0x00, 0xEA])).length ∧
    (State.reset.withCmds [0x11]).cmds = (encode (.crcUpdate [0x28, 0x00, 0xEA])).take 1 ∧
    (State.reset.withCmds [0x11, 0x03, 0x28, 0x00]).cmds = (encode (.crcUpdate [0x28, 0x00, 0xEA])).take 4 := by decide

/-- ResponsesFollowTable, ParametersNeverChange, AccessMatrixWrites, ResetPutsEveryElementInResetState, ResetStateValues: a command that
answers. -/
theorem test_witness_answers : (∃ t, exec .crcReset State.reset = .next t) ∧ mayWrite .crcReset .frame = false ∧
    ∃ t, exec .reset (holding frameF3) = .next t := ⟨⟨_, rfl⟩, rfl, ⟨_, rfl⟩⟩

/-- NoCommandKeepsState. -/
theorem test_witness_NoCommand : State.reset.cmds = [] := rfl

/-- ResetStateFirstAnswers: the last index and the last offset. -/
theorem test_witness_ResetStateFirstAnswers : (15 : Byte).toNat ≤ 15 ∧ (63 : Byte).toNat < Config.default.maxFrame ∧
    (3 ≤ 3 ∧ 3 < 25) ∧ (3 ≤ 24 ∧ 24 < 25) := by decide

/-- StatusReadShowsEveryField: each of the four parser states, the last two at the boundary. -/
theorem test_witness_StatusRead : State.reset.phase = .seek ∧ (holdingAt .waitLen 0 [0xC8]).phase = .waitLen ∧
    (holdingAt .waitPayload 4 [0xC8, 0x04, 0x28, 0x00, 0xEA]).count < 2 + (4 : Byte).toNat ∧
    2 + (4 : Byte).toNat ≤ (holdingAt .waitPayload 4 frameF3).count ∧ (holdingAt .waitPayload 4 frameF3).phase = .waitPayload := by decide

/-- OvfIsStickyUntilCleared: a push of one byte too many, and a command that clears the flag. -/
theorem test_witness_Ovf :
    ((holding (List.replicate 128 0)).count ≤ (holding (List.replicate 128 0)).cfg.ringN ∧
      (holding (List.replicate 128 0)).cfg.ringN < (holding (List.replicate 128 0)).count + [(0xC8 : Byte)].length ∧
      ∃ t, exec (.push [0xC8]) (holding (List.replicate 128 0)) = .next t ∧ decide ((holding (List.replicate 128 0)).ovf = false ∧ t.ovf = true) = true) ∧
    (∃ t, exec .clrFlags { State.reset with ovf := true } = .next t ∧ t.ovf = false) ∧
    ∃ t, exec .reset { State.reset with ovf := true } = .next t ∧ t.ovf = false :=
  ⟨⟨by decide +kernel, by decide +kernel, exists_of_passes _ _ (by decide +kernel)⟩, ⟨_, rfl, rfl⟩, ⟨_, rfl, rfl⟩⟩

/-- CrcUpdateAccumulates, UnpackLoadsAllChannels, PushAppendsAndDropsOldest, the BUILD statements: a count byte and its data, at both
ends of the range. -/
theorem test_witness_count_byte : ([] : List Byte).length = (0 : Byte).toNat ∧ (List.replicate 255 (0 : Byte)).length = (255 : Byte).toNat := by
  decide +kernel

/-- CrcTableIsLinear: the first and the last power of two of its clause. -/
theorem test_witness_crc_powers : 0 < 7 ∧ 6 < 7 := by decide

/-- SingleByteChangeIsDetected (the first and the last covered byte) and CrcResidueIsZero. -/
theorem test_witness_crc_laws : Config.default.crcPoly.getLsbD 0 = true ∧ Config.default.crcInit = 0 ∧
    frameValid Config.default frameF3 = true ∧ (2 ≤ 2 ∧ 2 + 1 < frameF3.length ∧ (0x29 : Byte) ≠ frameF3.getD 2 0) ∧
    (2 ≤ 4 ∧ 4 + 1 < frameF3.length ∧ (0xEE : Byte) ≠ frameF3.getD 4 0) := by decide +kernel

/-- ChWriteTruncatesToElevenBits, ChReadZeroExtends: indices 15 and 16. -/
theorem test_witness_channel_index : (15 : Byte).toNat < 16 ∧ 15 < (16 : Byte).toNat := by decide

/-- PackAnswersTwentyTwoBytes, UnpackLoadsAllChannels, PackedChannelsAreLittleEndianBits, PackAndUnpackAreInverse: 22 and 21 bytes. -/
theorem test_witness_window : 22 ≤ (22 : Byte).toNat ∧ (21 : Byte).toNat < 22 ∧ payloadK3.length = 22 ∧
    (payloadK3.take 21).length < 22 ∧ 10 < 11 := by decide

/-- BuildSimpleWritesFrame, BuildExtWritesFrame: the largest payload that fits and the smallest that does not. -/
theorem test_witness_build : (List.replicate 60 (0 : Byte)).length + 2 ≤ State.reset.cfg.maxLen ∧
    State.reset.cfg.maxLen < (List.replicate 61 (0 : Byte)).length + 2 ∧
    (List.replicate 58 (0 : Byte)).length + 4 ≤ State.reset.cfg.maxLen ∧
    State.reset.cfg.maxLen < (List.replicate 59 (0 : Byte)).length + 4 := by decide

/-- FbReadAnswersByte: the last offset, the first beyond, and an offset at FLEN in a state that meets the invariants. -/
theorem test_witness_FbRead : (63 : Byte).toNat < State.reset.cfg.maxFrame ∧ State.reset.cfg.maxFrame ≤ (64 : Byte).toNat ∧
    Inv (holding []) ∧ (holding []).flen.toNat ≤ (0 : Byte).toNat ∧ (0 : Byte).toNat < (holding []).cfg.maxFrame :=
  ⟨by decide, by decide, holding_inv _ (by decide), by decide, by decide⟩

/-- BuiltFramesAreValid, SyncByteIsNotCovered: each BUILD command answers without `BufferTooSmall`, whatever the sync byte. -/
theorem test_witness_built :
    (∃ t, exec (.buildSimple 0xC8 0x7F []) State.reset = .next t ∧ decide (t.resp ≠ some .bufferTooSmall) = true) ∧
    (∃ t, exec (.buildSimple 0xEE 0x7F []) State.reset = .next t ∧ decide (t.resp ≠ some .bufferTooSmall) = true) ∧
    (∃ t, exec (.buildExt 0xC8 0x28 0 0xEA []) State.reset = .next t ∧ decide (t.resp ≠ some .bufferTooSmall) = true) ∧
    (∃ t, exec (.buildExt 0xEE 0x28 0 0xEA []) State.reset = .next t ∧ decide (t.resp ≠ some .bufferTooSmall) = true) ∧
    (∃ t, exec (.buildCh 0xC8) State.reset = .next t ∧ decide (t.resp ≠ some .bufferTooSmall) = true) ∧
    ∃ t, exec (.buildCh 0xEE) State.reset = .next t ∧ decide (t.resp ≠ some .bufferTooSmall) = true :=
  ⟨exists_of_passes _ _ (by decide +kernel), exists_of_passes _ _ (by decide +kernel), exists_of_passes _ _ (by decide +kernel),
    exists_of_passes _ _ (by decide +kernel), exists_of_passes _ _ (by decide +kernel), exists_of_passes _ _ (by decide +kernel)⟩

/-- PushAppendsAndDropsOldest: exactly full, and one byte too many. -/
theorem test_witness_Push : Memory.wf (holding frameF3).rb = true ∧
    (holding frameF3).count + (List.replicate 122 (0 : Byte)).length ≤ (holding frameF3).cfg.ringN ∧
    (holding frameF3).count ≤ (holding frameF3).cfg.ringN ∧ 0 < 1 ∧
    (holding frameF3).count + (List.replicate 123 (0 : Byte)).length = (holding frameF3).cfg.ringN + 1 := by decide +kernel

/-- NextDiscardsNoise: three noise bytes, and no byte at all. -/
theorem test_witness_NextDiscardsNoise : (Inv (holding [0x00, 0x01, 0xFF]) ∧
      ∀ b ∈ pending (holding [0x00, 0x01, 0xFF]), b ≠ (holding [0x00, 0x01, 0xFF]).cfg.sync) ∧
    Inv (holding []) ∧ ∀ b ∈ pending (holding []), b ≠ (holding []).cfg.sync :=
  ⟨⟨holding_inv _ (by decide), by decide⟩, holding_inv _ (by decide), by decide⟩

/-- NextWaitsForLength: from `SEEK` with a noise byte, and in `WAIT_LEN`. -/
theorem test_witness_NextWaitsForLength : (Inv (holding [0x55, 0xC8]) ∧ pending (holding [0x55, 0xC8]) = [0x55] ++ [0xC8]) ∧
    Inv (holdingAt .waitLen 0 [0xC8]) ∧ pending (holdingAt .waitLen 0 [0xC8]) = [] ++ [0xC8] :=
  ⟨⟨holding_inv _ (by decide), by decide⟩, test_witness_inv.2.1, by decide⟩

/-- A candidate at the head of a small state. -/
theorem candidate_of_holding (noise tail : List Byte) (len : Byte)
    (h : pending (holding (noise ++ 0xC8 :: len :: tail)) = noise ++ 0xC8 :: len :: tail) (hn : ∀ b ∈ noise, b ≠ 0xC8) :
    HasCandidate (holding (noise ++ 0xC8 :: len :: tail)) noise len tail := ⟨h, hn⟩

/-- NextRejectsIllegalLength: the length bytes 1 and 63. -/
theorem test_witness_NextRejectsIllegalLength :
    (Inv (holding [0xC8, 0x01]) ∧ HasCandidate (holding [0xC8, 0x01]) [] 0x01 [] ∧ ¬ LegalLength Config.default 0x01) ∧
    Inv (holding [0x55, 0xC8, 0x3F, 0x11]) ∧ HasCandidate (holding [0x55, 0xC8, 0x3F, 0x11]) [0x55] 0x3F [0x11] ∧
      ¬ LegalLength Config.default 0x3F :=
  ⟨⟨holding_inv _ (by decide), candidate_of_holding [] [] 0x01 (by decide) (by decide), fun h => absurd h.1 (by decide)⟩,
    holding_inv _ (by decide), candidate_of_holding [0x55] [0x11] 0x3F (by decide) (by decide), fun h => absurd h.2 (by decide +kernel)⟩

/-- NextWaitsForPayload: the legal length bytes 2 and 62, one byte short. -/
theorem test_witness_NextWaitsForPayload :
    (Inv (holding [0xC8, 0x02, 0x7F]) ∧ HasCandidate (holding [0xC8, 0x02, 0x7F]) [] 0x02 [0x7F] ∧ LegalLength Config.default 0x02 ∧
      [(0x7F : Byte)].length < (0x02 : Byte).toNat) ∧
    Inv (holding ([] ++ 0xC8 :: 0x3E :: List.replicate 61 0)) ∧
      HasCandidate (holding ([] ++ 0xC8 :: 0x3E :: List.replicate 61 0)) [] 0x3E (List.replicate 61 0) ∧
      LegalLength Config.default 0x3E ∧ (List.replicate 61 (0 : Byte)).length < (0x3E : Byte).toNat :=
  ⟨⟨holding_inv _ (by decide), candidate_of_holding [] [0x7F] 0x02 (by decide) (by decide), ⟨by decide, by decide⟩, by decide⟩,
    holding_inv _ (by decide), candidate_of_holding [] (List.replicate 61 0) 0x3E (by decide +kernel) (by decide),
    ⟨by decide, by decide⟩, by decide⟩

/-- NextRejectsBadChecksum: T20. -/
theorem test_witness_NextRejectsBadChecksum : Inv (holding [0xC8, 0x04, 0x28, 0x00, 0xEA, 0x55]) ∧
    HasCandidate (holding [0xC8, 0x04, 0x28, 0x00, 0xEA, 0x55]) [] 0x04 [0x28, 0x00, 0xEA, 0x55] ∧ LegalLength Config.default 0x04 ∧
    (0x04 : Byte).toNat ≤ [(0x28 : Byte), 0x00, 0xEA, 0x55].length ∧ ¬ ChecksumMatches Config.default 0x04 [0x28, 0x00, 0xEA, 0x55] :=
  ⟨holding_inv _ (by decide), candidate_of_holding [] _ 0x04 (by decide) (by decide), ⟨by decide, by decide⟩, by decide,
    fun h => absurd h.2 (by decide +kernel)⟩

/-- NextConsumesValidFrame, NextReportsUnknownType: F6. -/
theorem test_witness_NextReportsUnknownType : Inv (holding frameF6) ∧ HasCandidate (holding frameF6) [] 0x02 [0x7F, 0x16] ∧
    LegalLength Config.default 0x02 ∧ ChecksumMatches Config.default 0x02 [0x7F, 0x16] ∧
    lookupType Config.default.typeTable ([(0x7F : Byte), 0x16].getD 0 0) = none :=
  ⟨holding_inv _ (by decide), candidate_of_holding [] _ 0x02 (by decide) (by decide), ⟨by decide, by decide⟩, ⟨by decide, by decide +kernel⟩,
    by decide⟩

/-- NextDispatchesKnownType, a window of exactly `LEN` bytes of the packed-channels type: F1 after a noise byte. -/
theorem test_witness_NextDispatchesKnownType_channels :
    Inv (holding ([0x55] ++ 0xC8 :: 0x18 :: (0x16 :: payloadK3 ++ [0xAD]))) ∧
    HasCandidate (holding ([0x55] ++ 0xC8 :: 0x18 :: (0x16 :: payloadK3 ++ [0xAD]))) [0x55] 0x18 (0x16 :: payloadK3 ++ [0xAD]) ∧
    LegalLength Config.default 0x18 ∧ ChecksumMatches Config.default 0x18 (0x16 :: payloadK3 ++ [0xAD]) ∧
    lookupType Config.default.typeTable ((0x16 :: payloadK3 ++ [0xAD]).getD 0 0) = some ⟨0x16, .simple, 22⟩ ∧
    kindOverhead .simple + (22 : Byte).toNat ≤ (0x18 : Byte).toNat ∧ (0x16 :: payloadK3 ++ [0xAD]).getD 0 0 = Config.default.typeRC :=
  ⟨holding_inv _ (by decide), candidate_of_holding [0x55] _ 0x18 (by decide +kernel) (by decide), ⟨by decide, by decide⟩,
    ⟨by decide, by decide +kernel⟩, by decide, by decide, by decide⟩

/-- NextDispatchesKnownType, another type with a window of exactly `LEN` bytes: F3; and a frame one byte too short for its addresses: T19. -/
theorem test_witness_NextDispatchesKnownType_raw_and_short :
    (Inv (holding frameF3) ∧ HasCandidate (holding frameF3) [] 0x04 [0x28, 0x00, 0xEA, 0x54] ∧ LegalLength Config.default 0x04 ∧
      ChecksumMatches Config.default 0x04 [0x28, 0x00, 0xEA, 0x54] ∧
      lookupType Config.default.typeTable ([(0x28 : Byte), 0x00, 0xEA, 0x54].getD 0 0) = some ⟨0x28, .extended, 0⟩ ∧
      kindOverhead .extended + (0 : Byte).toNat ≤ (0x04 : Byte).toNat ∧ (0x28 : Byte) ≠ Config.default.typeRC) ∧
    Inv (holding [0xC8, 0x03, 0x28, 0x00, 0xED]) ∧ HasCandidate (holding [0xC8, 0x03, 0x28, 0x00, 0xED]) [] 0x03 [0x28, 0x00, 0xED] ∧
      ChecksumMatches Config.default 0x03 [0x28, 0x00, 0xED] ∧ (0x03 : Byte).toNat < kindOverhead .extended + (0 : Byte).toNat :=
  ⟨⟨holding_inv _ (by decide), candidate_of_holding [] _ 0x04 (by decide) (by decide), ⟨by decide, by decide⟩, ⟨by decide, by decide +kernel⟩,
      by decide, by decide, by decide⟩,
    holding_inv _ (by decide), candidate_of_holding [] _ 0x03 (by decide) (by decide), ⟨by decide, by decide +kernel⟩, by decide⟩

/-- NextWritesOnlyWhatItYields, NextAfterNoneIsIdle, NextTakesOldestBytesInOrder, DrainedRingHasRoom: a `NEXT` that answers `NONE`, and
one that yields a frame. -/
theorem test_witness_next_answers :
    (Inv (holding [0x00, 0x01, 0xFF]) ∧ ∃ t, exec .next (holding [0x00, 0x01, 0xFF]) = .next t ∧ decide (t.resp = some (.noFrame 3)) = true) ∧
    (Inv (holding frameF3) ∧ ∃ t, exec .next (holding frameF3) = .next t ∧
      decide (t.resp = some (.frameRaw 0 0x28 1 5 0)) = true) ∧
    (List.replicate 65 (0 : Byte)).length ≤ Config.default.ringN - Config.default.maxFrame + 1 ∧
    ∃ t, exec .next (holding [0xC8, 0x3F]) = .next t ∧ decide (t.resp = some (.invalidLength 0 0x3F)) = true :=
  ⟨⟨holding_inv _ (by decide), exists_of_passes _ _ (by decide +kernel)⟩,
    ⟨holding_inv _ (by decide), exists_of_passes _ _ (by decide +kernel)⟩, by decide, exists_of_passes _ _ (by decide +kernel)⟩

/-- SkippedCountsNoise: one noise byte ahead of a frame, and a command that is neither `NEXT` nor `RESET`. -/
theorem test_witness_SkippedCountsNoise : Inv (holding (0x55 :: frameF3)) ∧ pending (holding (0x55 :: frameF3)) = [0x55] ++ frameF3 ∧
    (∀ b ∈ [(0x55 : Byte)], b ≠ (holding (0x55 :: frameF3)).cfg.sync) ∧ frameF3.head? = some (holding (0x55 :: frameF3)).cfg.sync ∧
    (∃ t, exec .next (holding (0x55 :: frameF3)) = .next t ∧ decide (t.skipped = 1) = true) ∧
    ∃ t, exec .nop State.reset = .next t :=
  ⟨holding_inv _ (by decide), by decide, by decide, by decide, exists_of_passes _ _ (by decide +kernel), ⟨_, rfl⟩⟩

/-- NextLoopIsBounded: the bound itself. -/
theorem test_witness_NextLoopIsBounded : State.reset.count + 3 ≤ 3 := by decide

/-- PushCommutesWithDecidedNext: a chunk that just fits behind a whole frame. -/
theorem test_witness_PushCommutes : Inv (holding frameF3) ∧
    (holding frameF3).count + (List.replicate 122 (0 : Byte)).length ≤ (holding frameF3).cfg.ringN ∧
    ∃ t, exec .next (holding frameF3) = .next t ∧ ∀ k, t.resp ≠ some (.noFrame k) := by
  refine ⟨holding_inv _ (by decide), by decide +kernel, ?_⟩
  obtain ⟨t, ht, hr⟩ := exists_of_passes (fun t => decide (t.resp = some (.frameRaw 0 0x28 1 5 0))) (exec .next (holding frameF3))
    (by decide +kernel)
  refine ⟨t, ht, fun k hk => ?_⟩
  rw [of_decide_eq_true hr] at hk
  cases hk

/-- SplitFrameIsDeliveredOnce: F3 cut at each end and after its third byte. -/
theorem test_witness_SplitFrame : Inv (holding []) ∧ (holding []).count = 0 ∧
    (frameF3 ≠ [] ∧ frameValid (holding []).cfg ([] ++ frameF3) = true ∧ ([] ++ frameF3).getD 0 0 = (holding []).cfg.sync) ∧
    (frameF3.drop 3 ≠ [] ∧ frameValid (holding []).cfg (frameF3.take 3 ++ frameF3.drop 3) = true) ∧
    frameF3.drop 5 ≠ [] ∧ frameValid (holding []).cfg (frameF3.take 5 ++ frameF3.drop 5) = true :=
  ⟨holding_inv _ (by decide), rfl, by decide +kernel, by decide +kernel, by decide +kernel⟩

/-- ChannelsFrameLoopsBack, EveryCommandIsAnswered, StepKeepsInvariants: a state that meets the invariants and steps. -/
theorem test_witness_StepKeepsInvariants : Inv (holding []) ∧ (holding []).count = 0 ∧ (∃ t, step (holding []) = .next t) ∧
    Inv (holding frameF3) ∧ ∃ t, step ((holding frameF3).withCmds [0x41]) = .next t ∧ decide (t.flen = 6) = true :=
  ⟨holding_inv _ (by decide), rfl, ⟨_, rfl⟩, holding_inv _ (by decide), exists_of_passes _ _ (by decide +kernel)⟩

/-- RingCellsOutsideWindowAreUnobservable: a ring that differs from F3's in a cell outside the window. -/
theorem test_witness_RingCells : Inv (holding frameF3) ∧ Memory.wf (Memory.write (holding frameF3).rb 100 0xC8) = true ∧
    Memory.write (holding frameF3).rb 100 0xC8 ≠ (holding frameF3).rb ∧
    pending { holding frameF3 with rb := Memory.write (holding frameF3).rb 100 0xC8 } = pending (holding frameF3) :=
  ⟨holding_inv _ (by decide), by decide +kernel, by decide +kernel, by decide +kernel⟩

end Sys2Proof.Tests
end

section
/-! PROOFS. What a command leaves alone, the commands of the parser and the system apart (spec/10_state.md R34). -/

namespace Sys2Proof.Machine

/-- Every command but `RESET`, `CLR_FLAGS`, `PUSH` and `NEXT` leaves the ring, the synchronizer, `OVF` and `SKIPPED` alone: the columns
of the access matrix that have no `w` entry in its row (10_state.md R34). -/
theorem exec_frame_of_not_parser (i : Instr) (s t : State) (h : exec i s = .next t) (hreset : i ≠ .reset) (hclr : i ≠ .clrFlags)
    (hpush : ∀ d, i ≠ .push d) (hnext : i ≠ .next) :
    t = { s with crc := t.crc, ch := t.ch, fb := t.fb, flen := t.flen, resp := t.resp } := by
  cases i with
  | reset => exact absurd rfl hreset
  | clrFlags => exact absurd rfl hclr
  | push d => exact absurd rfl (hpush d)
  | next => exact absurd rfl hnext
  | nop | statusRead | crcReset | crcUpdate | crcRead => obtain rfl := Host.Outcome.next.inj h; rfl
  | chWrite idx v => simp only [exec, execChWrite] at h; split at h <;> cases h <;> rfl
  | chRead idx => simp only [exec, execChRead] at h; split at h <;> cases h <;> rfl
  | pack wlen => simp only [exec, execPack] at h; split at h <;> cases h <;> rfl
  | unpack d => simp only [exec, execUnpack] at h; split at h <;> cases h <;> rfl
  | fbRead off => simp only [exec, execFbRead] at h; split at h <;> cases h <;> rfl
  | buildSimple | buildExt | buildCh => obtain rfl := Host.Outcome.next.inj h; rw [build_frame]

/-- What a `PUSH` leaves alone: every element but the ring, the synchronizer and `OVF` (10_state.md R34). -/
theorem execPush_frame (d : List Byte) (s t : State) (h : execPush d s = .next t) :
    t = { s with rb := t.rb, head := t.head, count := t.count, phase := t.phase, dlen := t.dlen, ovf := t.ovf, resp := t.resp } := by
  rcases execPush_cases d s with ⟨_, e⟩ | ⟨k, _, e⟩ <;> rw [e] at h <;> cases h <;> rw [pushBytes_frame] <;> rfl

end Sys2Proof.Machine
end

section
/-! PROOFS. The flag `OVF` and the status view (spec/10_state.md R26, R28; spec/44_system.md R142). -/

namespace Sys2Proof.Machine

/-- `PSTATE` takes four values (10_state.md R28). -/
theorem pstate_cases (s : State) : pstate s = 0 ∨ pstate s = 1 ∨ pstate s = 2 ∨ pstate s = 3 := by
  unfold pstate
  cases s.phase with
  | seek => exact .inl rfl
  | waitLen => exact .inr (.inl rfl)
  | waitPayload => cases candidateComplete s <;> simp

theorem pstate_seek (s : State) (h : s.phase = .seek) : pstate s = 0 := by simp [pstate, h]

theorem pstate_waitLen (s : State) (h : s.phase = .waitLen) : pstate s = 1 := by simp [pstate, h]

theorem pstate_incomplete (s : State) (h : s.phase = .waitPayload) (hc : s.count < 2 + s.dlen.toNat) : pstate s = 2 := by
  simp [pstate, h, (candidateComplete_false_iff s).2 hc]

theorem pstate_complete (s : State) (h : s.phase = .waitPayload) (hc : 2 + s.dlen.toNat ≤ s.count) : pstate s = 3 := by
  simp [pstate, h, (candidateComplete_iff s).2 hc]

/-- The four fields of byte 0 of `STATUS` do not overlap, so each reads back (44_system.md R142). -/
theorem statusByte0_fields (s : State) :
    (statusByte0 s).extractLsb' 0 2 = (pstate s).extractLsb' 0 2 ∧ (statusByte0 s).getLsbD 2 = s.ovf ∧
    (statusByte0 s).getLsbD 3 = fvalid s ∧ (statusByte0 s).extractLsb' 4 4 = 0#4 := by
  unfold statusByte0
  generalize s.ovf = ovf, fvalid s = valid
  rcases pstate_cases s with e | e | e | e <;> rw [e] <;> cases ovf <;> cases valid <;> decide

theorem exec_statusRead (s : State) :
    exec .statusRead s = .next { s with resp := some (.okStatus [statusByte0 s, BitVec.ofNat 8 s.count,
      BitVec.ofNat 8 (s.count / 256), s.skipped.extractLsb' 0 8, s.skipped.extractLsb' 8 8, s.dlen, s.flen]) } := by
  have hlo : loByte (BitVec.ofNat 16 s.count) = BitVec.ofNat 8 s.count := by
    apply BitVec.eq_of_toNat_eq; simp [loByte_eq_ofNat]
  have hhi : hiByte (BitVec.ofNat 16 s.count) = BitVec.ofNat 8 (s.count / 256) := by
    apply BitVec.eq_of_toNat_eq; simp [hiByte_eq_ofNat]; omega
  simp only [exec, execStatusRead, statusBytes, bytesOfHalf, hlo, hhi]
  rfl

/-- Settles O16: byte 0 is `statusByte0`, whose fields do not overlap, and `PSTATE` is known in each position of the synchronizer. -/
theorem statusReadShowsEveryField : Obligations.StatusReadShowsEveryField := by
  refine ⟨fun _ => rfl, fun s => ⟨statusByte0 s, exec_statusRead s, ?_⟩⟩
  obtain ⟨hstate, hovf, hvalid, hzero⟩ := statusByte0_fields s
  rw [hstate]
  refine ⟨fun h => ?_, fun h => ?_, fun h hc => ?_, fun h hc => ?_, hovf, hvalid, hzero⟩
  · rw [pstate_seek s h]; rfl
  · rw [pstate_waitLen s h]; rfl
  · rw [pstate_incomplete s h hc]; rfl
  · rw [pstate_complete s h hc]; rfl

/-- How many bytes a `PUSH` into a ring within its capacity discards: those that do not fit (43_parser.md R114). -/
theorem pushBytes_dropped (d : List Byte) (s : State) (n : Nat) (h : s.count ≤ s.cfg.ringN) :
    (pushBytes d s n).2 = n + (s.count + d.length - s.cfg.ringN) := by
  induction d generalizing s n with
  | nil => simp only [pushBytes, List.length_nil]; omega
  | cons b d ih =>
    have hpos := s.cfg.ringN_pos
    rcases pushByte_cases b s n with ⟨hfull, e⟩ | ⟨hroom, e⟩
    · rw [pushBytes, e, ih _ _ (by simp; omega)]
      simp; omega
    · rw [pushBytes, e, ih _ _ (by simp; omega)]
      simp; omega

/-- What a command can do to `OVF`: leave it, clear it if it is `CLR_FLAGS` or `RESET`, set it if it is a `PUSH` that answers
`BufferOverflow` (10_state.md R26). -/
theorem exec_ovf_cases (i : Instr) (s t : State) (h : exec i s = .next t) :
    t.ovf = s.ovf ∨ ((i = .clrFlags ∨ i = .reset) ∧ t.ovf = false) ∨
    ∃ d n, i = .push d ∧ t.resp = some (.bufferOverflow n) ∧ t.ovf = true := by
  cases i with
  | clrFlags => cases h; exact .inr (.inl ⟨.inl rfl, rfl⟩)
  | reset => cases h; exact .inr (.inl ⟨.inr rfl, rfl⟩)
  | next => exact .inl (congrArg State.ovf (nextLoop_frame _ _ _ h) :)
  | push d =>
    have hframe := congrArg State.ovf (pushBytes_frame d s 0)
    simp only [exec] at h
    rcases execPush_cases d s with ⟨_, e⟩ | ⟨k, _, e⟩ <;> rw [e] at h <;> cases h
    · exact .inl hframe
    · exact .inr (.inr ⟨d, _, rfl, rfl, rfl⟩)
  | _ => exact .inl (congrArg State.ovf (exec_frame_of_not_parser _ s t h nofun nofun nofun nofun) :)

/-- A `PUSH` of more bytes than the ring has room for sets `OVF` (10_state.md R26). -/
theorem execPush_sets_ovf (d : List Byte) (s t : State) (hc : s.count ≤ s.cfg.ringN) (hd : s.cfg.ringN < s.count + d.length)
    (h : execPush d s = .next t) : t.ovf = true := by
  have hdropped := pushBytes_dropped d s 0 hc
  rcases execPush_cases d s with ⟨hnone, _⟩ | ⟨k, _, e⟩
  · omega
  · rw [e] at h; cases h; rfl

/-- Settles O18: the overflow case of `PUSH`, and what each command can do to `OVF`. -/
theorem ovfIsStickyUntilCleared : Obligations.OvfIsStickyUntilCleared := by
  refine ⟨fun s t d hc hd h => execPush_sets_ovf d s t hc hd h, fun i s t h hs ht => ?_, fun i s t h hs ht => ?_, ?_, rfl⟩
  · rcases exec_ovf_cases i s t h with e | ⟨hi, _⟩ | ⟨d, n, _, _, e⟩
    · simp [e, hs] at ht
    · exact hi
    · simp [e] at ht
  · rcases exec_ovf_cases i s t h with e | ⟨_, e⟩ | ⟨d, n, hi, hr, _⟩
    · simp [e, hs] at ht
    · simp [e] at ht
    · exact ⟨d, n, hi, hr⟩
  · rintro s t (h | h) <;> cases h <;> rfl

end Sys2Proof.Machine
end

section
/-! PROOFS. `SKIPPED`: the noise bytes of the most recent `NEXT` (spec/10_state.md R27; spec/43_parser.md R117). -/

namespace Sys2Proof.Machine

/-- The oldest pending byte is `rb(0)`. -/
theorem head?_pending (s : State) (h : 0 < s.count) : (pending s).head? = some (ringByte s 0) := by
  rw [List.head?_eq_getElem?, getElem?_pending s 0 h]

theorem ringByte_zero_of_pending_cons (s : State) (b : Byte) (bs : List Byte) (h : pending s = b :: bs) : ringByte s 0 = b := by
  have hc : 0 < s.count := by rw [← length_pending, h]; simp
  have hb := head?_pending s hc
  rw [h] at hb
  exact (Option.some.inj hb).symm

/-- How a `NEXT` ends: `SKIPPED` is `sk`, the answer carries it, and the pending bytes are an end part of `rest`. -/
structure EndsNext (rest : List Byte) (sk : Half) (t : State) : Prop where
  skipped : t.skipped = sk
  answer : ∃ r, t.resp = some r ∧ skippedField r = some t.skipped
  pending : ∃ k, pending t = rest.drop k

/-- An answer of `NEXT` to a state whose oldest `k` bytes have been dropped. -/
theorem endsNext_of_drop (s t : State) (r : Response) (k : Nat) (hs : t.skipped = s.skipped) (hr : t.resp = some r)
    (hf : skippedField r = some s.skipped) (hp : pending t = (pending s).drop k) : EndsNext (pending s) s.skipped t :=
  ⟨hs, ⟨r, hr, by rw [hf, hs]⟩, k, hp⟩

/-- The answer to a consumed frame carries `SKIPPED` (30_encoding.md R74). -/
theorem dispatchFrame_skippedField (f : List Byte) (ty : Byte) (len : Nat) (s : State) :
    ∃ r, (dispatchFrame f ty len s).resp = some r ∧ skippedField r = some s.skipped := by
  rcases dispatchFrame_cases f ty len s with ⟨_, e⟩ | ⟨row, _, ⟨_, e⟩ | ⟨_, _, e⟩ | ⟨_, _, e⟩⟩ <;>
    exact ⟨_, by rw [e]; rfl, rfl⟩

/-- Acceptance leaves `SKIPPED` and removes the frame from the ring (43_parser.md R122). -/
theorem acceptFrame_ends (f : List Byte) (len : Nat) (s t : State) (h : acceptFrame f len s = .next t) :
    EndsNext (pending s) s.skipped t := by
  rcases acceptFrame_cases f len s with e | ⟨_, _, e⟩
  · rw [e] at h; cases h
  · rw [e] at h
    obtain rfl := Host.Outcome.next.inj h
    obtain ⟨r, hr, hf⟩ := dispatchFrame_skippedField f (f.getD 2 0) len (resync (dropBytes (len + 2) (writeFrame f s)))
    refine endsNext_of_drop s _ r (len + 2) ?_ hr hf ?_
    · rw [dispatchFrame_frame]; rfl
    · rw [dispatchFrame_frame, ← pending_dropBytes]; rfl

/-- The synchronizer does not stand before a noise byte: it is past `SEEK`, nothing is pending, or the oldest byte is `SYNC`. -/
def NoNoiseAhead (s : State) : Prop := s.phase = .seek → 0 < s.count → ringByte s 0 = s.cfg.sync

theorem noNoiseAhead_of_phase (s : State) (h : s.phase ≠ .seek) : NoNoiseAhead s := fun hp => absurd hp h

/-- The turn that ends a `NEXT` comes when no noise is left, and counts no byte, whatever the outcome (10_state.md R27). -/
theorem nextTurn_done (s t : State) (h : nextTurn s = .done (.next t)) : NoNoiseAhead s ∧ EndsNext (pending s) s.skipped t := by
  unfold nextTurn at h
  split at h
  · rcases seekTurn_cases s with ⟨hc, e⟩ | ⟨_, _, e⟩ | ⟨_, _, e⟩ <;> rw [e] at h <;> cases h
    exact ⟨fun _ hpos => by omega, endsNext_of_drop s _ _ 0 rfl rfl rfl rfl⟩
  · rename_i hp
    refine ⟨noNoiseAhead_of_phase s (by simp [hp]), ?_⟩
    rcases lengthTurn_cases s with ⟨_, e⟩ | ⟨_, _, e⟩ | ⟨_, _, e⟩ <;> rw [e] at h <;> cases h
    · exact endsNext_of_drop s _ _ 0 rfl rfl rfl rfl
    · exact endsNext_of_drop s _ _ 1 rfl rfl rfl (pending_dropBytes 1 s)
  · rename_i hp
    refine ⟨noNoiseAhead_of_phase s (by simp [hp]), ?_⟩
    rcases payloadTurn_cases s with ⟨_, e⟩ | ⟨_, _, e⟩ | ⟨_, _, e⟩ <;> rw [e] at h
    · cases h; exact endsNext_of_drop s _ _ 0 rfl rfl rfl rfl
    · cases h; exact endsNext_of_drop s _ _ 1 rfl rfl rfl (pending_dropBytes 1 s)
    · exact acceptFrame_ends _ _ s t (Turn.done.inj h)

/-- The turns after which `NEXT` goes on: a noise byte is dropped and counted, or the candidate is examined further and its bytes and
`SKIPPED` stay (transitions 2, 3 and 6 of 43_parser.md R116). -/
theorem nextTurn_again (s u : State) (h : nextTurn s = .again u) :
    (s.phase = .seek ∧ 0 < s.count ∧ ringByte s 0 ≠ s.cfg.sync ∧ u = countSkipped (dropBytes 1 s)) ∨
    (NoNoiseAhead s ∧ u.phase ≠ .seek ∧ u = { s with phase := u.phase, dlen := u.dlen }) := by
  unfold nextTurn at h
  split at h
  · rename_i hp
    rcases seekTurn_cases s with ⟨_, e⟩ | ⟨_, hs, e⟩ | ⟨hc, hs, e⟩ <;> rw [e] at h <;> cases h
    · exact .inr ⟨fun _ _ => hs, nofun, rfl⟩
    · exact .inl ⟨hp, hc, hs, rfl⟩
  · rename_i hp
    rcases lengthTurn_cases s with ⟨_, e⟩ | ⟨_, _, e⟩ | ⟨_, _, e⟩ <;> rw [e] at h <;> cases h
    exact .inr ⟨noNoiseAhead_of_phase s (by simp [hp]), nofun, rfl⟩
  · rcases payloadTurn_cases s with ⟨_, e⟩ | ⟨_, _, e⟩ | ⟨_, _, e⟩ <;> rw [e] at h <;> cases h

/-- Where the oldest pending byte, if there is one, is `SYNC`, no noise stands ahead. -/
theorem noise_eq_nil (s : State) (noise rest : List Byte) (hp : pending s = noise ++ rest)
    (hnoise : ∀ b ∈ noise, b ≠ s.cfg.sync) (h : 0 < s.count → ringByte s 0 = s.cfg.sync) : noise = [] := by
  cases noise with
  | nil => rfl
  | cons b noise =>
    have hc : 0 < s.count := by rw [← length_pending, hp]; simp
    have hb : b = s.cfg.sync := by rw [← h hc, ringByte_zero_of_pending_cons s b _ hp]
    exact absurd hb (hnoise b (by simp))

/-- The loop of `NEXT` on noise and what follows it counts the noise, in every outcome; past `SEEK` there is no noise ahead. -/
theorem nextLoop_noise (n : Nat) (s t : State) (noise rest : List Byte) (hp : pending s = noise ++ rest)
    (hnoise : ∀ b ∈ noise, b ≠ s.cfg.sync) (hrest : ∀ b, rest.head? = some b → b = s.cfg.sync)
    (hseek : s.phase ≠ .seek → noise = []) (h : nextLoop n s = .next t) :
    EndsNext rest (s.skipped + BitVec.ofNat 16 noise.length) t := by
  induction n generalizing s noise with
  | zero => cases h
  | succ n ih =>
    have hnil (hnone : NoNoiseAhead s) : noise = [] := by
      by_cases hph : s.phase = .seek
      · exact noise_eq_nil s noise rest hp hnoise (hnone hph)
      · exact hseek hph
    rw [nextLoop_succ] at h
    cases hturn : nextTurn s with
    | done r =>
      rw [hturn] at h
      obtain rfl : r = .next t := h
      obtain ⟨hnone, hends⟩ := nextTurn_done s t hturn
      obtain rfl := hnil hnone
      simpa [hp] using hends
    | again u =>
      rw [hturn] at h
      rcases nextTurn_again s u hturn with ⟨hph, hc, hs, rfl⟩ | ⟨hnone, _, hu⟩
      · cases noise with
        | nil =>
          exact absurd (hrest _ (by rw [← head?_pending s hc, hp]; rfl)) hs
        | cons b noise =>
          have hdrop : pending (countSkipped (dropBytes 1 s)) = noise ++ rest := (pending_dropBytes 1 s).trans (by rw [hp]; rfl)
          have hends := ih _ noise hdrop (fun b hb => hnoise b (by simp [hb])) hrest (fun hne => absurd hph hne) h
          have hsum : s.skipped + 1 + BitVec.ofNat 16 noise.length = s.skipped + BitVec.ofNat 16 (noise.length + 1) := by
            rw [BitVec.ofNat_add, BitVec.add_comm (BitVec.ofNat 16 noise.length), BitVec.add_assoc]; rfl
          exact hsum ▸ hends
      · obtain rfl := hnil hnone
        have hcfg := congrArg State.cfg hu
        have hsk := congrArg State.skipped hu
        have hpu : pending u = pending s := by rw [hu]; rfl
        exact hsk ▸ ih u [] (hpu.trans hp) nofun (by simpa [hcfg] using hrest) (fun _ => rfl) h

/-- The noise ahead of a candidate fits in the ring, so `SKIPPED` counts it without wrapping. -/
theorem noise_length_le (s : State) (noise rest : List Byte) (hi : Inv s) (hp : pending s = noise ++ rest) :
    noise.length ≤ s.cfg.ringN := by
  have hlen := congrArg List.length hp
  rw [length_pending, List.length_append] at hlen
  have := hi.parser.count_le
  omega

/-- No command but `NEXT` and `RESET` writes `SKIPPED` (10_state.md R27). -/
theorem exec_keeps_skipped (i : Instr) (s t : State) (hnext : i ≠ .next) (hreset : i ≠ .reset) (h : exec i s = .next t) :
    t.skipped = s.skipped := by
  cases i with
  | next => exact absurd rfl hnext
  | reset => exact absurd rfl hreset
  | clrFlags => cases h; rfl
  | push d => exact (congrArg State.skipped (execPush_frame d s t h) :)
  | _ => exact (congrArg State.skipped (exec_frame_of_not_parser _ s t h nofun nofun nofun nofun) :)

/-- Settles O48: the loop of `NEXT` starts from `SKIPPED = 0` and counts the noise; no other command but `RESET` writes it. -/
theorem skippedCountsNoise : Obligations.SkippedCountsNoise := by
  refine ⟨fun s t noise rest hi hp hnoise hrest h => ?_, fun i s t hnext hreset h => exec_keeps_skipped i s t hnext hreset h, rfl⟩
  have hends := nextLoop_noise (s.count + 3) (clearSkipped s) t noise rest hp hnoise hrest
    (fun hph => noise_eq_nil s noise rest hp hnoise fun _ => (hi.parser.candidate hph).2) h
  have hcfg : t.cfg = s.cfg := (congrArg State.cfg (nextLoop_frame _ _ _ h) :)
  have hle := noise_length_le s noise rest hi hp
  have hring := s.cfg.ringN_le
  have hskip : t.skipped.toNat = noise.length := by
    rw [hends.skipped, clearSkipped_skipped, zero_add, BitVec.toNat_ofNat]
    omega
  exact ⟨hskip, by rw [hskip, hcfg]; exact hle, hends.answer, hends.pending⟩

end Sys2Proof.Machine
end

section
/-! PROOFS. The bytes of a command, and `frame_valid` (spec/30_encoding.md R64, R70, R71, R73). -/

namespace Sys2Proof

/-- Format W: the value's low byte comes before its high byte (30_encoding.md R73). -/
theorem encode_chWrite (idx : Byte) (v : Half) :
    encode (.chWrite idx v) = [0x20, idx, BitVec.ofNat 8 v.toNat, BitVec.ofNat 8 (v.toNat / 256)] := by
  rw [← loByte_eq_ofNat, ← hiByte_eq_ofNat]
  rfl

/-- Settles O1, format by format: Z, I, W, V, S, X. -/
theorem commandBytesFollowFormats : Obligations.CommandBytesFollowFormats := by
  refine ⟨rfl, rfl, rfl, rfl, rfl, rfl, rfl, fun a => ?formatI, encode_chWrite, fun d => ?formatV,
    fun sync ty d => ?formatS, fun sync ty dst src d => ?formatX⟩
  case formatI => exact ⟨rfl, rfl, rfl, rfl⟩
  case formatV => exact ⟨rfl, rfl, rfl⟩
  case formatS => rfl
  case formatX => rfl

end Sys2Proof

namespace Sys2Proof.Machine

/-- Every sequence of three bytes or more has a sync byte, a length byte and, at its other end, a trailer. -/
theorem exists_frame_parts (f : List Byte) (h : 3 ≤ f.length) :
    ∃ sync len body trailer, f = sync :: len :: (body ++ [trailer]) := by
  match f, h with
  | sync :: len :: b :: tail, _ =>
    exact ⟨sync, len, (b :: tail).dropLast, (b :: tail).getLast (by simp), by rw [List.dropLast_append_getLast]⟩

/-- `frame_valid` of a frame given by its parts: offsets 2 to n-2 are the body, offset n-1 the trailer (30_encoding.md R64). -/
theorem frameValid_parts_iff (cfg : Config) (sync len : Byte) (body : List Byte) (trailer : Byte) :
    frameValid cfg (sync :: len :: (body ++ [trailer])) = true ↔
      1 ≤ body.length ∧ body.length + 3 ≤ cfg.maxFrame ∧ len.toNat = body.length + 1 ∧ crc8 cfg body = trailer := by
  have hmin : Config.minLen = 2 := rfl
  have hsize : (sync :: len :: (body ++ [trailer])).length = body.length + 3 := by simp
  have hcovered : ((sync :: len :: (body ++ [trailer])).drop 2).take (body.length + 3 - 3) = body := by simp
  have htrailer : (sync :: len :: (body ++ [trailer])).getD (body.length + 3 - 1) 0 = trailer := by simp
  rw [frameValid, hsize, hcovered, htrailer]
  simp [hmin, and_assoc]

/-- A valid frame has a legal size (30_encoding.md R63, R64). -/
theorem frameValid_bounds (cfg : Config) (f : List Byte) (h : frameValid cfg f = true) : 4 ≤ f.length ∧ f.length ≤ cfg.maxFrame := by
  simp only [frameValid, Bool.and_eq_true, decide_eq_true_eq] at h
  obtain ⟨⟨hsize, _⟩, _⟩ := h
  exact hsize

/-- `frame_valid` does not read byte 0 (30_encoding.md R64): a single byte is too short, whatever it is, and the trailer of a longer
sequence stands after byte 0. -/
theorem frameValid_sync_irrelevant (cfg : Config) (f : List Byte) (a b : Byte) : frameValid cfg (a :: f) = frameValid cfg (b :: f) := by
  cases f with
  | nil => rfl
  | cons len tail => rfl

/-- Settles O37: a sequence of legal size has a frame's parts, and of a frame's parts `frame_valid` is known. -/
theorem frameValidIsTheRule : Obligations.FrameValidIsTheRule := by
  refine ⟨fun cfg f => ⟨fun h => ?_, ?_⟩, frameValid_sync_irrelevant⟩
  · obtain ⟨hmin, hmax⟩ := frameValid_bounds cfg f h
    obtain ⟨sync, len, body, trailer, rfl⟩ := exists_frame_parts f (by omega)
    obtain ⟨_, _, hlen, hcrc⟩ := (frameValid_parts_iff cfg sync len body trailer).1 h
    exact ⟨hmin, hmax, sync, len, body, trailer, rfl, by simpa using hlen, hcrc⟩
  · rintro ⟨hmin, hmax, sync, len, body, trailer, rfl, hlen, hcrc⟩
    simp only [List.length_cons, List.length_append, List.length_nil] at hmin hmax hlen
    exact (frameValid_parts_iff cfg sync len body trailer).2 ⟨by omega, by omega, by omega, hcrc⟩

end Sys2Proof.Machine
end

section
/-! PROOFS. The commands of the checksum unit (spec/40_crc.md R83 to R85), and how their bytes decode (spec/30_encoding.md R70, R71). -/

namespace Sys2Proof

/-- Format V: the count byte says how many bytes are the operand (30_encoding.md R70). -/
theorem decodeV_counted (mk : List Byte → Instr) (n : Byte) (d rest : List Byte) (h : d.length = n.toNat) :
    decodeV mk (n :: (d ++ rest)) = .command (mk d) rest := by
  rw [decodeV, takeCounted_append n d rest h]

theorem decode_crcReset (rest : List Byte) : decode (0x10 :: rest) = .command .crcReset rest := rfl

theorem decode_crcUpdate (n : Byte) (d rest : List Byte) (h : d.length = n.toNat) :
    decode (0x11 :: n :: (d ++ rest)) = .command (.crcUpdate d) rest :=
  decodeV_counted .crcUpdate n d rest h

theorem decode_crcRead (rest : List Byte) : decode (0x12 :: rest) = .command .crcRead rest := rfl

end Sys2Proof

namespace Sys2Proof.Machine

/-- The accumulator goes on where it stands (40_crc.md R84). -/
theorem crcFrom_append (cfg : Config) (c : Byte) (x y : List Byte) : crcFrom cfg c (x ++ y) = crcFrom cfg (crcFrom cfg c x) y :=
  List.foldl_append

theorem exec_crcReset (s : State) : exec .crcReset s = .next { s with crc := s.cfg.crcInit, resp := some .ok } := rfl

theorem exec_crcUpdate (d : List Byte) (s : State) :
    exec (.crcUpdate d) s = .next { s with crc := crcFrom s.cfg s.crc d, resp := some .ok } := rfl

theorem exec_crcRead (s : State) : exec .crcRead s = .next { s with resp := some (.okCrc s.crc) } := rfl

/-- The whole sequence in one `CRC_UPDATE` leaves what its two parts leave in turn (40_crc.md R84). -/
theorem exec_crcUpdate_append (x y : List Byte) (s : State) :
    exec (.crcUpdate (x ++ y)) s = exec (.crcUpdate y) { s with crc := crcFrom s.cfg s.crc x, resp := some .ok } := by
  rw [exec_crcUpdate, exec_crcUpdate, crcFrom_append]

/-- Settles O19. -/
theorem crcResetLoadsInit : Obligations.CrcResetLoadsInit := ⟨decode_crcReset, exec_crcReset⟩

/-- Settles O20: the accumulator is a fold, so it starts from the held value and splits with the sequence. -/
theorem crcUpdateAccumulates : Obligations.CrcUpdateAccumulates := by
  refine ⟨decode_crcUpdate, fun s d => exec_crcUpdate d s, fun s => exec_crcUpdate [] s, fun s x y => ?split⟩
  case split =>
    have hwhole := (exec_crcUpdate_append x y s).trans (exec_crcUpdate y _)
    exact ⟨_, _, _, exec_crcUpdate x s, exec_crcUpdate y _, hwhole, rfl⟩

/-- Settles O21. -/
theorem crcReadAnswersCrc : Obligations.CrcReadAnswersCrc := ⟨decode_crcRead, exec_crcRead⟩

end Sys2Proof.Machine
end

section
/-! PROOFS. The commands of the channel codec (spec/41_channel_codec.md R93 to R96), and how their bytes decode (spec/30_encoding.md
R70, R71). -/

namespace Sys2Proof

theorem decode_chWrite (idx lo hi : Byte) (rest : List Byte) :
    decode (0x20 :: idx :: lo :: hi :: rest) = .command (.chWrite idx (half lo hi)) rest := rfl

theorem decode_chRead (idx : Byte) (rest : List Byte) : decode (0x21 :: idx :: rest) = .command (.chRead idx) rest := rfl

theorem decode_pack (wlen : Byte) (rest : List Byte) : decode (0x22 :: wlen :: rest) = .command (.pack wlen) rest := rfl

theorem decode_unpack (n : Byte) (d rest : List Byte) (h : d.length = n.toNat) :
    decode (0x23 :: n :: (d ++ rest)) = .command (.unpack d) rest :=
  decodeV_counted .unpack n d rest h

end Sys2Proof

namespace Sys2Proof.Machine

/-- Truncation to eleven bits is the remainder modulo 2048 (41_channel_codec.md R93). -/
theorem truncChan_eq_mod (v : Half) : truncChan v = BitVec.ofNat 11 (v.toNat % 2048) := by
  apply BitVec.eq_of_toNat_eq
  simp [truncChan]

theorem zextChan_eq_ofNat (x : Chan) : zextChan x = BitVec.ofNat 16 x.toNat := (BitVec.ofNat_toNat 16 x).symm

theorem exec_chWrite_of_lt (idx : Byte) (v : Half) (s : State) (h : idx.toNat < 16) :
    exec (.chWrite idx v) s = .next (respond .ok (writeChan ⟨idx.toNat, h⟩ (truncChan v) s)) := by
  rw [exec, execChWrite, chanIndex_of_lt idx h]

theorem exec_chWrite_of_gt (idx : Byte) (v : Half) (s : State) (h : 15 < idx.toNat) :
    exec (.chWrite idx v) s = .next (raiseError (.illegalCommand 0x20) s) := by
  rw [exec, execChWrite, chanIndex_of_gt idx h]

theorem exec_chRead_of_lt (idx : Byte) (s : State) (h : idx.toNat < 16) :
    exec (.chRead idx) s = .next (respond (.okValue (zextChan (readChan s ⟨idx.toNat, h⟩))) s) := by
  rw [exec, execChRead, chanIndex_of_lt idx h]

theorem exec_chRead_of_gt (idx : Byte) (s : State) (h : 15 < idx.toNat) :
    exec (.chRead idx) s = .next (raiseError (.illegalCommand 0x21) s) := by
  rw [exec, execChRead, chanIndex_of_gt idx h]

theorem exec_pack_of_le (wlen : Byte) (s : State) (h : 22 ≤ wlen.toNat) :
    exec (.pack wlen) s = .next (respond (.okPacked (packChannels s.ch)) s) :=
  if_neg fun hshort => absurd ((windowTooShort_iff _).1 hshort) (by omega)

theorem exec_pack_of_lt (wlen : Byte) (s : State) (h : wlen.toNat < 22) :
    exec (.pack wlen) s = .next (raiseError .bufferTooSmall s) :=
  if_pos ((windowTooShort_iff _).2 h)

theorem exec_unpack_of_le (d : List Byte) (s : State) (h : 22 ≤ d.length) :
    exec (.unpack d) s = .next (respond .ok { s with ch := unpackChannels (d.take 22) }) :=
  if_neg fun hshort => absurd ((windowTooShort_iff _).1 hshort) (by omega)

theorem exec_unpack_of_lt (d : List Byte) (s : State) (h : d.length < 22) :
    exec (.unpack d) s = .next (raiseError .bufferTooSmall s) :=
  if_pos ((windowTooShort_iff _).2 h)

/-- Bytes after the first 22 are ignored (41_channel_codec.md R96). -/
theorem exec_unpack_append (p extra : List Byte) (s : State) (h : p.length = 22) :
    exec (.unpack (p ++ extra)) s = .next (respond .ok { s with ch := unpackChannels p }) := by
  rw [exec_unpack_of_le (p ++ extra) s (by simp [h]), List.take_left' h]

/-- Settles O26: the index is in range or not, and the register takes the operand's low eleven bits. -/
theorem chWriteTruncatesToElevenBits : Obligations.ChWriteTruncatesToElevenBits := by
  refine ⟨fun idx lo hi rest => ?decodes, fun s idx v h => ?inRange, fun s idx v h => exec_chWrite_of_gt idx v s h⟩
  case decodes => rw [decode_chWrite, half_eq_ofNat]
  case inRange =>
    rw [exec_chWrite_of_lt idx v s h, truncChan_eq_mod]
    rfl

/-- Settles O27: the index is in range or not. -/
theorem chReadZeroExtends : Obligations.ChReadZeroExtends := by
  refine ⟨decode_chRead, fun s idx h => ?inRange, fun s idx h => exec_chRead_of_gt idx s h⟩
  case inRange =>
    rw [exec_chRead_of_lt idx s h, zextChan_eq_ofNat]
    rfl

/-- Settles O28: the window has room for 22 bytes or not. -/
theorem packAnswersTwentyTwoBytes : Obligations.PackAnswersTwentyTwoBytes :=
  ⟨decode_pack, fun s wlen h => ⟨exec_pack_of_le wlen s h, length_packChannels s.ch⟩, fun s wlen h => exec_pack_of_lt wlen s h⟩

/-- Settles O29: the data has 22 bytes or not, and of more only the first 22 count. -/
theorem unpackLoadsAllChannels : Obligations.UnpackLoadsAllChannels :=
  ⟨decode_unpack, fun s p extra h => exec_unpack_append p extra s h, fun s d h => exec_unpack_of_lt d s h⟩

end Sys2Proof.Machine
end

section
/-! PROOFS. The `BUILD` commands and `FB_READ` (spec/42_frame_build.md R100 to R105), and how their bytes decode (spec/30_encoding.md
R70, R71). -/

namespace Sys2Proof

/-- Format S: the count byte after sync and type says how many bytes are the data (30_encoding.md R70). -/
theorem decodeS_counted (mk : Byte → Byte → List Byte → Instr) (sync ty n : Byte) (d rest : List Byte) (h : d.length = n.toNat) :
    decodeS mk (sync :: ty :: n :: (d ++ rest)) = .command (mk sync ty d) rest := by
  rw [decodeS, takeCounted_append n d rest h]

/-- Format X: the count byte after the addresses says how many bytes are the data (30_encoding.md R70). -/
theorem decodeX_counted (mk : Byte → Byte → Byte → Byte → List Byte → Instr) (sync ty dst src n : Byte) (d rest : List Byte)
    (h : d.length = n.toNat) :
    decodeX mk (sync :: ty :: dst :: src :: n :: (d ++ rest)) = .command (mk sync ty dst src d) rest := by
  rw [decodeX, takeCounted_append n d rest h]

theorem decode_buildSimple (sync ty n : Byte) (d rest : List Byte) (h : d.length = n.toNat) :
    decode (0x30 :: sync :: ty :: n :: (d ++ rest)) = .command (.buildSimple sync ty d) rest :=
  decodeS_counted .buildSimple sync ty n d rest h

theorem decode_buildExt (sync ty dst src n : Byte) (d rest : List Byte) (h : d.length = n.toNat) :
    decode (0x31 :: sync :: ty :: dst :: src :: n :: (d ++ rest)) = .command (.buildExt sync ty dst src d) rest :=
  decodeX_counted .buildExt sync ty dst src n d rest h

theorem decode_buildCh (sync : Byte) (rest : List Byte) : decode (0x32 :: sync :: rest) = .command (.buildCh sync) rest := rfl

theorem decode_fbRead (off : Byte) (rest : List Byte) : decode (0x33 :: off :: rest) = .command (.fbRead off) rest := rfl

end Sys2Proof

namespace Sys2Proof.Machine

theorem frameBytes_simple (cfg : Config) (sync ty : Byte) (d : List Byte) :
    frameBytes cfg sync ty [] d = [sync, BitVec.ofNat 8 (d.length + 2), ty] ++ d ++ [crc8 cfg (ty :: d)] := rfl

theorem frameBytes_ext (cfg : Config) (sync ty dst src : Byte) (d : List Byte) :
    frameBytes cfg sync ty [dst, src] d =
      [sync, BitVec.ofNat 8 (d.length + 4), ty, dst, src] ++ d ++ [crc8 cfg (ty :: dst :: src :: d)] := rfl

/-- A frame that fits is written over a zero fill, and its size is stored and answered (42_frame_build.md R100). -/
theorem build_of_le (sync ty : Byte) (addr d : List Byte) (s : State) (h : frameLength addr d ≤ s.cfg.maxLen) :
    build sync ty addr d s =
      { s with
        fb := Memory.writeBytes Memory.zero 0 (frameBytes s.cfg sync ty addr d)
        flen := BitVec.ofNat 8 (frameLength addr d + 2)
        resp := some (.okFlen (BitVec.ofNat 8 (frameLength addr d + 2))) } := by
  rcases build_cases sync ty addr d s with ⟨hlong, _⟩ | ⟨_, hwritten⟩
  · omega
  · rw [hwritten, writeFrame, length_frameBytes, respond]

/-- A frame that does not fit is refused with nothing written (42_frame_build.md R100, R101). -/
theorem build_of_lt (sync ty : Byte) (addr d : List Byte) (s : State) (h : s.cfg.maxLen < frameLength addr d) :
    build sync ty addr d s = { s with resp := some .bufferTooSmall } := by
  rcases build_cases sync ty addr d s with ⟨_, hrefused⟩ | ⟨hfits, _⟩
  · rw [hrefused, raiseError]
  · omega

theorem exec_buildSimple_of_le (sync ty : Byte) (d : List Byte) (s : State) (h : d.length + 2 ≤ s.cfg.maxLen) :
    exec (.buildSimple sync ty d) s = .next { s with
      fb := Memory.writeBytes Memory.zero 0 (frameBytes s.cfg sync ty [] d)
      flen := BitVec.ofNat 8 (d.length + 4)
      resp := some (.okFlen (BitVec.ofNat 8 (d.length + 4))) } :=
  congrArg _ (build_of_le sync ty [] d s h)

theorem exec_buildSimple_of_lt (sync ty : Byte) (d : List Byte) (s : State) (h : s.cfg.maxLen < d.length + 2) :
    exec (.buildSimple sync ty d) s = .next { s with resp := some .bufferTooSmall } :=
  congrArg _ (build_of_lt sync ty [] d s h)

theorem exec_buildExt_of_le (sync ty dst src : Byte) (d : List Byte) (s : State) (h : d.length + 4 ≤ s.cfg.maxLen) :
    exec (.buildExt sync ty dst src d) s = .next { s with
      fb := Memory.writeBytes Memory.zero 0 (frameBytes s.cfg sync ty [dst, src] d)
      flen := BitVec.ofNat 8 (d.length + 6)
      resp := some (.okFlen (BitVec.ofNat 8 (d.length + 6))) } :=
  congrArg _ (build_of_le sync ty [dst, src] d s h)

theorem exec_buildExt_of_lt (sync ty dst src : Byte) (d : List Byte) (s : State) (h : s.cfg.maxLen < d.length + 4) :
    exec (.buildExt sync ty dst src d) s = .next { s with resp := some .bufferTooSmall } :=
  congrArg _ (build_of_lt sync ty [dst, src] d s h)

/-- `BUILD_CH` is `BUILD_SIMPLE` of the packed channels with their own type (42_frame_build.md R104). -/
theorem exec_buildCh_eq (sync : Byte) (s : State) :
    exec (.buildCh sync) s = exec (.buildSimple sync s.cfg.typeRC (packChannels s.ch)) s := rfl

/-- The packed channels fit, since `MAX_FRAME` is at least their 26 bytes (00_scope.md R10; 42_frame_build.md R104). -/
theorem packChannels_fit (s : State) : (packChannels s.ch).length + 2 ≤ s.cfg.maxLen := by
  have := s.cfg.maxFrame_ge
  rw [length_packChannels, Params.maxLen]
  omega

theorem exec_buildCh (sync : Byte) (s : State) :
    exec (.buildCh sync) s = .next { s with
      fb := Memory.writeBytes Memory.zero 0 (frameBytes s.cfg sync s.cfg.typeRC [] (packChannels s.ch))
      flen := 26
      resp := some (.okFlen 26) } := by
  rw [exec_buildCh_eq, exec_buildSimple_of_le _ _ _ s (packChannels_fit s), length_packChannels]
  rfl

theorem exec_fbRead_of_lt (off : Byte) (s : State) (h : off.toNat < s.cfg.maxFrame) :
    exec (.fbRead off) s = .next { s with resp := some (.okByte (Memory.read s.fb off.toNat)) } :=
  if_neg (by omega)

theorem exec_fbRead_of_ge (off : Byte) (s : State) (h : s.cfg.maxFrame ≤ off.toNat) :
    exec (.fbRead off) s = .next { s with resp := some (.illegalCommand 0x33) } :=
  if_pos h

/-- Settles O32: the frame fits or not, and what is written over a zero fill reads back. -/
theorem buildSimpleWritesFrame : Obligations.BuildSimpleWritesFrame := by
  refine ⟨decode_buildSimple, fun s sync ty d h => ⟨_, exec_buildSimple_of_le sync ty d s h, fun k => ?frame⟩,
    fun s sync ty d h => exec_buildSimple_of_lt sync ty d s h⟩
  case frame => rw [Memory.read_frame, frameBytes_simple]

/-- Settles O33: as O32, with the addresses in the frame and under its checksum. -/
theorem buildExtWritesFrame : Obligations.BuildExtWritesFrame := by
  refine ⟨decode_buildExt, fun s sync ty dst src d h => ⟨_, exec_buildExt_of_le sync ty dst src d s h, fun k => ?frame⟩,
    fun s sync ty dst src d h => exec_buildExt_of_lt sync ty dst src d s h⟩
  case frame => rw [Memory.read_frame, frameBytes_ext]

/-- Settles O34: the simple frame of the 22 packed bytes, which always fits. -/
theorem buildChWritesFrame : Obligations.BuildChWritesFrame := by
  refine ⟨decode_buildCh, fun s sync => ⟨_, exec_buildCh sync s, fun k => ?frame⟩⟩
  case frame =>
    rw [Memory.read_frame, frameBytes_simple, length_packChannels]
    rfl

/-- Settles O35: the offset is in range or not, and beyond the frame the invariants keep `FB` zero (10_state.md R32, I6). -/
theorem fbReadAnswersByte : Obligations.FbReadAnswersByte := by
  refine ⟨decode_fbRead, fun s off h => exec_fbRead_of_lt off s h, fun s off h => exec_fbRead_of_ge off s h,
    fun s off hinv hflen hmax => ?beyondFrame⟩
  case beyondFrame => rw [exec_fbRead_of_lt off s hmax, hinv.frame.zero_after off.toNat hmax hflen]

end Sys2Proof.Machine
end

section
/-! PROOFS. `PUSH` (spec/43_parser.md R114): what one byte does, what a chunk does, and how its bytes decode (spec/30_encoding.md R70,
R71). -/

namespace Sys2Proof

theorem decode_push (n : Byte) (d rest : List Byte) (h : d.length = n.toNat) :
    decode (0x40 :: n :: (d ++ rest)) = .command (.push d) rest :=
  decodeV_counted .push n d rest h

end Sys2Proof

namespace Sys2Proof.Machine

theorem pushByte_of_lt (b : Byte) (s : State) (n : Nat) (h : s.count < s.cfg.ringN) : pushByte b s n = (appendByte b s, n) :=
  if_neg (by omega)

theorem pushByte_of_full (b : Byte) (s : State) (n : Nat) (h : s.count = s.cfg.ringN) :
    pushByte b s n = (appendByte b (resync (dropBytes 1 s)), n + 1) :=
  if_pos h

/-- The oldest byte of a full ring makes room for a byte at the same write cursor. -/
theorem ringIndex_dropBytes_of_full (s : State) (h : s.count = s.cfg.ringN) :
    ringIndex (resync (dropBytes 1 s)) (resync (dropBytes 1 s)).count = ringIndex s s.count := by
  have hpos := s.cfg.ringN_pos
  have hcursor : 1 + (s.count - 1) = s.count := by omega
  calc ringIndex (resync (dropBytes 1 s)) (resync (dropBytes 1 s)).count
      = ringIndex (dropBytes 1 s) (s.count - 1) := rfl
    _ = ringIndex s s.count := by rw [ringIndex_dropBytes, hcursor]

@[simp] theorem pushByte_cfg (b : Byte) (s : State) (n : Nat) : (pushByte b s n).1.cfg = s.cfg := by
  rcases pushByte_cases b s n with ⟨_, e⟩ | ⟨_, e⟩ <;> rw [e] <;> rfl

/-- Room or not, the byte goes to the write cursor. -/
theorem pushByte_rb (b : Byte) (s : State) (n : Nat) :
    (pushByte b s n).1.rb = Memory.write s.rb (ringIndex s s.count) b := by
  rcases pushByte_cases b s n with ⟨hfull, e⟩ | ⟨_, e⟩ <;> rw [e, appendByte_rb]
  rw [ringIndex_dropBytes_of_full s hfull]
  rfl

theorem pushByte_count (b : Byte) (s : State) (n : Nat) (h : s.count ≤ s.cfg.ringN) :
    (pushByte b s n).1.count = s.count + 1 - (s.count + 1 - s.cfg.ringN) := by
  have hpos := s.cfg.ringN_pos
  rcases pushByte_cases b s n with ⟨hfull, e⟩ | ⟨hroom, e⟩ <;> rw [e] <;> simp <;> omega

/-- The write cursor moves on by one cell, whether or not the oldest byte was dropped. -/
theorem pushByte_cursor (b : Byte) (s : State) (n j : Nat) :
    ringIndex (pushByte b s n).1 ((pushByte b s n).1.count + j) = ringIndex s (s.count + (j + 1)) := by
  have hpos := s.cfg.ringN_pos
  rcases pushByte_cases b s n with ⟨hfull, e⟩ | ⟨_, e⟩ <;> rw [e]
  · have hcursor : 1 + (s.count - 1 + 1 + j) = s.count + (j + 1) := by omega
    exact (ringIndex_dropBytes 1 (s.count - 1 + 1 + j) s).trans (by rw [hcursor])
  · have hcursor : s.count + 1 + j = s.count + (j + 1) := by omega
    exact congrArg (ringIndex s) hcursor

/-- One byte pushed becomes the newest pending byte; of a full ring the oldest one is gone (43_parser.md R114). -/
theorem pending_pushByte (b : Byte) (s : State) (n : Nat) (hm : Memory.wf s.rb = true) (h : s.count ≤ s.cfg.ringN) :
    pending (pushByte b s n).1 = (pending s ++ [b]).drop (s.count + 1 - s.cfg.ringN) := by
  have hpos := s.cfg.ringN_pos
  rcases Nat.lt_or_eq_of_le h with hroom | hfull
  · have hnone : s.count + 1 - s.cfg.ringN = 0 := by omega
    rw [pushByte_of_lt b s n hroom, hnone, List.drop_zero]
    exact pending_appendByte b s hm hroom
  · have hone : s.count + 1 - s.cfg.ringN = 1 := by omega
    have hdrop : pending (resync (dropBytes 1 s)) = (pending s).drop 1 := pending_dropBytes 1 s
    have hroom : (resync (dropBytes 1 s)).count < s.cfg.ringN := by simp; omega
    rw [pushByte_of_full b s n hfull, hone, List.drop_append_of_le_length (by simp; omega), ← hdrop]
    exact pending_appendByte b _ hm hroom

theorem wf_pushByte (b : Byte) (s : State) (n : Nat) (h : Memory.wf s.rb = true) : Memory.wf (pushByte b s n).1.rb = true := by
  rw [pushByte_rb]
  exact Memory.wf_write _ _ _ h

/-- After a `PUSH` the old pending bytes and the chunk are pending, less the oldest ones that do not fit (43_parser.md R114). -/
theorem pending_pushBytes (d : List Byte) (s : State) (n : Nat) (hm : Memory.wf s.rb = true) (h : s.count ≤ s.cfg.ringN) :
    pending (pushBytes d s n).1 = (pending s ++ d).drop (s.count + d.length - s.cfg.ringN) := by
  induction d generalizing s n with
  | nil => simp [pushBytes, Nat.sub_eq_zero_of_le h]
  | cons b d ih =>
    have hcount := pushByte_count b s n h
    have hfirst : s.count + 1 - s.cfg.ringN ≤ (pending s ++ [b]).length := by simp
    have hsum : s.count + 1 - s.cfg.ringN + ((pushByte b s n).1.count + d.length - s.cfg.ringN) =
        s.count + (d.length + 1) - s.cfg.ringN := by omega
    rw [pushBytes, ih _ _ (wf_pushByte b s n hm) (by rw [hcount, pushByte_cfg]; omega), pushByte_cfg, pending_pushByte b s n hm h,
      ← List.drop_append_of_le_length hfirst, List.drop_drop, hsum, List.append_assoc]
    rfl

/-- A `PUSH` writes the cells at the write cursor and after it, one for each byte (43_parser.md R114). -/
theorem read_pushBytes_outside (d : List Byte) (s : State) (n a : Nat) (h : ∀ j, j < d.length → a ≠ ringIndex s (s.count + j)) :
    Memory.read (pushBytes d s n).1.rb a = Memory.read s.rb a := by
  induction d generalizing s n with
  | nil => rfl
  | cons b d ih =>
    have hlater (j : Nat) (hj : j < d.length) :
        a ≠ ringIndex (pushByte b s n).1 ((pushByte b s n).1.count + j) := by
      rw [pushByte_cursor]
      exact h (j + 1) (by simpa using hj)
    have hfirst : a ≠ ringIndex s s.count := h 0 (by simp)
    rw [pushBytes, ih _ _ hlater, pushByte_rb, Memory.read_write_other _ _ _ _ hfirst]

/-- A chunk that fits changes `RB` and `COUNT` alone (43_parser.md R114). -/
theorem pushBytes_of_le (d : List Byte) (s : State) (n : Nat) (h : s.count + d.length ≤ s.cfg.ringN) :
    (pushBytes d s n).1 = { s with rb := (pushBytes d s n).1.rb, count := s.count + d.length } := by
  induction d generalizing s n with
  | nil => rfl
  | cons b d ih =>
    rw [List.length_cons] at h ⊢
    have hrest := ih (appendByte b s) n (by simp; omega)
    have hcount : s.count + 1 + d.length = s.count + (d.length + 1) := by omega
    rw [pushBytes, pushByte_of_lt b s n (by omega), ← hcount]
    exact hrest

/-- A chunk of which `k` bytes do not fit moves `HEAD` by `k`, fills the ring and abandons any candidate (43_parser.md R114, R124). -/
theorem pushBytes_of_gt (d : List Byte) (s : State) (n k : Nat) (hc : s.count ≤ s.cfg.ringN) (hk : 0 < k)
    (h : s.count + d.length = s.cfg.ringN + k) :
    (pushBytes d s n).1 =
      { s with rb := (pushBytes d s n).1.rb, head := ringIndex s k, count := s.cfg.ringN, phase := .seek, dlen := 0 } := by
  have hpos := s.cfg.ringN_pos
  induction d generalizing s n k with
  | nil => simp at h; omega
  | cons b d ih =>
    rw [List.length_cons] at h
    rw [pushBytes]
    rcases Nat.lt_or_eq_of_le hc with hroom | hfull
    · rw [pushByte_of_lt b s n hroom]
      exact ih (appendByte b s) n k (by simp; omega) hk (by simp; omega) hpos
    · have hcount : s.count - 1 + 1 = s.cfg.ringN := by omega
      rw [pushByte_of_full b s n hfull]
      cases d with
      | nil =>
        obtain rfl : k = 1 := by simp at h; omega
        rw [← hcount]
        rfl
      | cons c d =>
        obtain ⟨j, rfl⟩ : ∃ j, k = 1 + j := ⟨k - 1, by omega⟩
        simp only [List.length_cons] at h
        rw [← ringIndex_dropBytes]
        exact ih (appendByte b (resync (dropBytes 1 s))) (n + 1) j (by simp; omega) (by omega) (by simp; omega) hpos

theorem exec_push_of_le (d : List Byte) (s : State) (h : s.count + d.length ≤ s.cfg.ringN) :
    exec (.push d) s = .next (respond .ok (pushBytes d s 0).1) := by
  have hdropped := pushBytes_dropped d s 0 (by omega)
  rcases execPush_cases d s with ⟨_, e⟩ | ⟨_, hsome, _⟩
  · exact e
  · omega

theorem exec_push_of_gt (d : List Byte) (s : State) (k : Nat) (hc : s.count ≤ s.cfg.ringN) (hk : 0 < k)
    (h : s.count + d.length = s.cfg.ringN + k) :
    exec (.push d) s = .next (raiseError (.bufferOverflow (BitVec.ofNat 16 k)) (setOvf (pushBytes d s 0).1)) := by
  have hdropped := pushBytes_dropped d s 0 hc
  rcases execPush_cases d s with ⟨hnone, _⟩ | ⟨j, hsome, e⟩
  · omega
  · obtain rfl : k = j + 1 := by omega
    exact e

/-- Settles O39: the chunk fits or not; the bytes that do not fit are the oldest, and every byte goes to the write cursor. -/
theorem pushAppendsAndDropsOldest : Obligations.PushAppendsAndDropsOldest := by
  refine ⟨decode_push, fun s d hm hfits => ⟨_, exec_push_of_le d s hfits, ?_, ?_, fun a => read_pushBytes_outside d s 0 a⟩,
    fun s d k hm hc hk hover => ⟨_, exec_push_of_gt d s k hc hk hover, ?_, ?_, fun a => read_pushBytes_outside d s 0 a⟩⟩
  · exact congrArg (respond .ok) (pushBytes_of_le d s 0 hfits)
  · have hpending := pending_pushBytes d s 0 hm (by omega)
    rwa [Nat.sub_eq_zero_of_le hfits, List.drop_zero] at hpending
  · exact congrArg (fun t => raiseError (.bufferOverflow (BitVec.ofNat 16 k)) (setOvf t)) (pushBytes_of_gt d s 0 k hc hk hover)
  · have hpending := pending_pushBytes d s 0 hm hc
    rwa [hover, Nat.add_sub_cancel_left] at hpending

end Sys2Proof.Machine
end

section
/-! PROOFS. The turns of `NEXT`, one rule per transition (spec/43_parser.md R115, R116), and how the loop gets past the noise
(spec/43_parser.md R117). -/

namespace Sys2Proof.Machine

theorem nextLoop_of_done (n : Nat) (s : State) (r : Result) (h : nextTurn s = .done r) : nextLoop (n + 1) s = r := by
  rw [nextLoop_succ, h]

theorem nextLoop_of_again (n : Nat) (s t : State) (h : nextTurn s = .again t) : nextLoop (n + 1) s = nextLoop n t := by
  rw [nextLoop_succ, h]

theorem nextTurn_of_seek (s : State) (h : s.phase = .seek) : nextTurn s = seekTurn s := by rw [nextTurn, h]

theorem nextTurn_of_waitLen (s : State) (h : s.phase = .waitLen) : nextTurn s = lengthTurn s := by rw [nextTurn, h]

theorem nextTurn_of_waitPayload (s : State) (h : s.phase = .waitPayload) : nextTurn s = payloadTurn s := by rw [nextTurn, h]

/-- Transition 2 of 43_parser.md R116. -/
theorem seekTurn_of_noise (s : State) (hc : 0 < s.count) (h : ringByte s 0 ≠ s.cfg.sync) :
    seekTurn s = .again (countSkipped (dropBytes 1 s)) := by
  rcases seekTurn_cases s with ⟨hempty, _⟩ | ⟨_, hsync, _⟩ | ⟨_, _, e⟩
  · omega
  · exact absurd hsync h
  · exact e

/-- Transition 3 of 43_parser.md R116. -/
theorem seekTurn_of_sync (s : State) (hc : 0 < s.count) (h : ringByte s 0 = s.cfg.sync) :
    seekTurn s = .again { s with phase := .waitLen } := by
  rcases seekTurn_cases s with ⟨hempty, _⟩ | ⟨_, _, e⟩ | ⟨_, hnoise, _⟩
  · omega
  · exact e
  · exact absurd h hnoise

/-- Transition 4 of 43_parser.md R116. -/
theorem lengthTurn_of_lt (s : State) (h : s.count < 2) : lengthTurn s = .done (.next (respond (.noFrame s.skipped) s)) := by
  rcases lengthTurn_cases s with ⟨_, e⟩ | ⟨hc, _⟩ | ⟨hc, _⟩
  · exact e
  · omega
  · omega

/-- Transition 5 of 43_parser.md R116. -/
theorem lengthTurn_of_illegal (s : State) (hc : 2 ≤ s.count) (h : ¬ LegalLength s.cfg (ringByte s 1)) :
    lengthTurn s = .done (.next (raiseError (.invalidLength s.skipped (ringByte s 1)) (resync (dropBytes 1 s)))) := by
  rcases lengthTurn_cases s with ⟨hshort, _⟩ | ⟨_, _, e⟩ | ⟨_, hlegal, _⟩
  · omega
  · exact e
  · exact absurd hlegal h

/-- Transition 6 of 43_parser.md R116. -/
theorem lengthTurn_of_legal (s : State) (hc : 2 ≤ s.count) (h : LegalLength s.cfg (ringByte s 1)) :
    lengthTurn s = .again { s with dlen := ringByte s 1, phase := .waitPayload } := by
  rcases lengthTurn_cases s with ⟨hshort, _⟩ | ⟨_, hillegal, _⟩ | ⟨_, _, e⟩
  · omega
  · exact absurd h hillegal
  · exact e

/-- Transition 7 of 43_parser.md R116. -/
theorem payloadTurn_of_incomplete (s : State) (h : s.count < 2 + s.dlen.toNat) :
    payloadTurn s = .done (.next (respond (.noFrame s.skipped) s)) := by
  rcases payloadTurn_cases s with ⟨_, e⟩ | ⟨hc, _⟩ | ⟨hc, _⟩
  · exact e
  · omega
  · omega

/-- Transition 8 of 43_parser.md R116. -/
theorem payloadTurn_of_mismatch (s : State) (hc : 2 + s.dlen.toNat ≤ s.count) (h : candidateCrc s ≠ candidateTrailer s) :
    payloadTurn s = .done (.next
      (raiseError (.checksumMismatch s.skipped (candidateCrc s) (candidateTrailer s)) (resync (dropBytes 1 s)))) := by
  rcases payloadTurn_cases s with ⟨hshort, _⟩ | ⟨_, _, e⟩ | ⟨_, hmatch, _⟩
  · omega
  · exact e
  · exact absurd hmatch h

/-- Transition 9 of 43_parser.md R116. -/
theorem payloadTurn_of_match (s : State) (hc : 2 + s.dlen.toNat ≤ s.count) (h : candidateCrc s = candidateTrailer s) :
    payloadTurn s = .done (acceptFrame (ringRead s 0 (s.dlen.toNat + 2)) s.dlen.toNat s) := by
  rcases payloadTurn_cases s with ⟨hshort, _⟩ | ⟨_, hdiff, _⟩ | ⟨_, _, e⟩
  · omega
  · exact absurd h hdiff
  · exact e

/-- The state after `k` turns of transition 2: `k` noise bytes are dropped and counted. -/
def dropNoise (k : Nat) (s : State) : State := { dropBytes k s with skipped := s.skipped + BitVec.ofNat 16 k }

theorem dropNoise_zero (s : State) (h : s.head < s.cfg.ringN) : dropNoise 0 s = s := by
  simp [dropNoise, dropBytes, ringIndex_zero s h]

theorem dropNoise_countSkipped (k : Nat) (s : State) : dropNoise k (countSkipped (dropBytes 1 s)) = dropNoise (k + 1) s := by
  have hhead : ringIndex (countSkipped (dropBytes 1 s)) k = ringIndex s (k + 1) := by
    rw [Nat.add_comm k 1]
    exact ringIndex_dropBytes 1 k s
  have hcount : s.count - 1 - k = s.count - (k + 1) := by omega
  have hskipped : s.skipped + 1 + BitVec.ofNat 16 k = s.skipped + BitVec.ofNat 16 (k + 1) := by
    rw [Nat.add_comm k 1, BitVec.ofNat_add, ← BitVec.add_assoc]
    rfl
  simp only [dropNoise, dropBytes, countSkipped] at hhead ⊢
  rw [hhead, hcount, hskipped]

/-- In `SEEK` the loop of `NEXT` spends one turn on each noise byte (43_parser.md R117). -/
theorem nextLoop_seek (n : Nat) (s : State) (noise rest : List Byte) (hph : s.phase = .seek) (hhead : s.head < s.cfg.ringN)
    (hp : pending s = noise ++ rest) (hnoise : ∀ b ∈ noise, b ≠ s.cfg.sync) :
    nextLoop (n + noise.length) s = nextLoop n (dropNoise noise.length s) := by
  induction noise generalizing s with
  | nil => rw [List.length_nil, dropNoise_zero s hhead]; rfl
  | cons b noise ih =>
    have hcount : 0 < s.count := by rw [← length_pending, hp]; simp
    have hbyte : ringByte s 0 = b := ringByte_zero_of_pending_cons s b _ hp
    have hturn : nextTurn s = .again (countSkipped (dropBytes 1 s)) := by
      rw [nextTurn_of_seek s hph]
      exact seekTurn_of_noise s hcount (by rw [hbyte]; exact hnoise b (by simp))
    have hdrop : pending (countSkipped (dropBytes 1 s)) = noise ++ rest := (pending_dropBytes 1 s).trans (by rw [hp]; rfl)
    rw [List.length_cons, ← dropNoise_countSkipped, ← Nat.add_assoc, nextLoop_of_again _ s _ hturn]
    exact ih _ hph (ringIndex_lt s 1) hdrop fun b hb => hnoise b (by simp [hb])

end Sys2Proof.Machine
end

section
/-! PROOFS. `NEXT` reaches a candidate behind noise from every position of the synchronizer (spec/43_parser.md R117 to R119). -/

namespace Sys2Proof.Machine

/-- Where `NEXT` stands after `noise` noise bytes, which `SKIPPED` counts, and `taken` bytes behind them have been removed. -/
def afterNoise (noise taken : Nat) (p : Phase) (len : Byte) (s : State) : State :=
  { dropBytes (noise + taken) s with phase := p, dlen := len, skipped := BitVec.ofNat 16 noise }

theorem pending_afterNoise (noise taken : Nat) (p : Phase) (len : Byte) (s : State) :
    pending (afterNoise noise taken p len s) = (pending s).drop (noise + taken) :=
  pending_dropBytes (noise + taken) s

/-- The bytes behind the noise are pending until one of them is taken. -/
theorem pending_afterNoise_append (s : State) (noise rest : List Byte) (taken : Nat) (p : Phase) (len : Byte)
    (hp : pending s = noise ++ rest) : pending (afterNoise noise.length taken p len s) = rest.drop taken := by
  rw [pending_afterNoise, hp, List.drop_length_add_append]

theorem resync_dropBytes_afterNoise (noise taken : Nat) (p : Phase) (len : Byte) (s : State) :
    resync (dropBytes taken (afterNoise noise 0 p len s)) = afterNoise noise taken .seek 0 s := by
  have hhead : ringIndex (afterNoise noise 0 p len s) taken = ringIndex s (noise + taken) := ringIndex_dropBytes noise taken s
  have hcount : s.count - noise - taken = s.count - (noise + taken) := by omega
  simp only [resync, dropBytes, hhead]
  simp [afterNoise, dropBytes, hcount]

/-- A `NEXT` that finds no noise ahead starts where it stands. -/
theorem clearSkipped_eq_afterNoise (s : State) (h : s.head < s.cfg.ringN) :
    clearSkipped s = afterNoise 0 0 s.phase s.dlen s := by
  simp [clearSkipped, afterNoise, dropBytes, ringIndex_zero s h]

theorem dropNoise_clearSkipped (k : Nat) (p : Phase) (s : State) :
    { dropNoise k (clearSkipped s) with phase := p } = afterNoise k 0 p s.dlen s := by
  simp [dropNoise, afterNoise, clearSkipped, dropBytes, ringIndex]

/-- With no length latched, `NEXT` gets to the first sync byte, drops the noise before it, and turns to its length byte. -/
theorem exec_next_reaches_sync (s : State) (noise rest : List Byte) (hi : Inv s) (hp : pending s = noise ++ s.cfg.sync :: rest)
    (hnoise : ∀ b ∈ noise, b ≠ s.cfg.sync) (hph : s.phase ≠ .waitPayload) :
    ∃ n, exec .next s = nextLoop (n + 2) (afterNoise noise.length 0 .waitLen 0 s) := by
  have hdlen : s.dlen = 0 := hi.parser.unlatched hph
  cases hphase : s.phase with
  | seek =>
    have hcount : s.count = noise.length + (rest.length + 1) := by rw [← length_pending, hp]; simp
    have hturns : s.count + 3 = rest.length + 1 + 2 + 1 + noise.length := by omega
    have hpending : pending (dropNoise noise.length (clearSkipped s)) = s.cfg.sync :: rest := by
      have hdrop := pending_dropBytes noise.length s
      rwa [hp, List.drop_left] at hdrop
    have hseek : (dropNoise noise.length (clearSkipped s)).phase = .seek := hphase
    have hturn : nextTurn (dropNoise noise.length (clearSkipped s)) = .again (afterNoise noise.length 0 .waitLen 0 s) := by
      rw [nextTurn_of_seek _ hseek, seekTurn_of_sync _ (by rw [← length_pending, hpending]; simp)
        (ringByte_zero_of_pending_cons _ _ _ hpending), dropNoise_clearSkipped, hdlen]
    refine ⟨rest.length + 1, ?_⟩
    rw [← nextLoop_of_again _ _ _ hturn, ← nextLoop_seek _ (clearSkipped s) noise _ hphase hi.parser.head_lt hp hnoise, ← hturns]
    rfl
  | waitLen =>
    obtain rfl := noise_eq_nil s noise _ hp hnoise fun _ => (hi.parser.candidate (by simp [hphase])).2
    refine ⟨s.count + 1, ?_⟩
    rw [List.length_nil, ← hdlen, ← hphase, ← clearSkipped_eq_afterNoise s hi.parser.head_lt]
    rfl
  | waitPayload => exact absurd hphase hph

/-- With a length latched, the candidate stands at the head of the ring and its length byte is the latched one (10_state.md R32, I2,
I3). -/
theorem latched_candidate (s : State) (noise rest : List Byte) (hi : Inv s) (hp : pending s = noise ++ s.cfg.sync :: rest)
    (hnoise : ∀ b ∈ noise, b ≠ s.cfg.sync) (hph : s.phase = .waitPayload) :
    noise = [] ∧ rest.head? = some s.dlen ∧ LegalLength s.cfg s.dlen := by
  obtain ⟨hcount, hlen, hlegal⟩ := hi.parser.latched hph
  obtain rfl := noise_eq_nil s noise _ hp hnoise fun _ => (hi.parser.candidate (by simp [hph])).2
  have hbyte := getElem?_pending s 1 (by omega)
  rw [hp, hlen] at hbyte
  exact ⟨rfl, by rw [← hbyte]; simp [List.head?_eq_getElem?], hlegal⟩

/-- A pending byte by its place in the pending bytes. -/
theorem ringByte_eq_getD_pending (s : State) (j : Nat) (h : j < s.count) : ringByte s j = (pending s).getD j 0 := by
  rw [List.getD_eq_getElem?_getD, getElem?_pending s j h, Option.getD_some]

theorem ringByte_one_of_pending_cons (s : State) (a b : Byte) (tail : List Byte) (h : pending s = a :: b :: tail) :
    2 ≤ s.count ∧ ringByte s 1 = b := by
  have hcount : 2 ≤ s.count := by rw [← length_pending, h]; simp
  exact ⟨hcount, by rw [ringByte_eq_getD_pending s 1 (by omega), h]; rfl⟩

section candidate
variable {s : State} {noise tail : List Byte} {len : Byte} (hi : Inv s) (hc : HasCandidate s noise len tail)
include hc

theorem HasCandidate.pending_afterNoise (taken : Nat) (p : Phase) (l : Byte) :
    pending (afterNoise noise.length taken p l s) = (s.cfg.sync :: len :: tail).drop taken :=
  pending_afterNoise_append s noise _ taken p l hc.1

/-- The length byte under examination is the candidate's. -/
theorem HasCandidate.lengthByte :
    2 ≤ (afterNoise noise.length 0 .waitLen 0 s).count ∧ ringByte (afterNoise noise.length 0 .waitLen 0 s) 1 = len :=
  ringByte_one_of_pending_cons _ _ _ _ (hc.pending_afterNoise 0 .waitLen 0)

include hi

/-- `NEXT` gets to a candidate of legal length from every position of the synchronizer and latches its length. -/
theorem exec_next_reaches_candidate (hl : LegalLength s.cfg len) :
    ∃ n, exec .next s = nextLoop (n + 1) (afterNoise noise.length 0 .waitPayload len s) := by
  obtain ⟨hcount, hbyte⟩ := hc.lengthByte
  obtain ⟨hp, hnoise⟩ := hc
  by_cases hph : s.phase = .waitPayload
  · obtain ⟨rfl, hlen, _⟩ := latched_candidate s noise _ hi hp hnoise hph
    obtain rfl : len = s.dlen := Option.some.inj hlen
    refine ⟨s.count + 2, ?_⟩
    rw [List.length_nil, ← hph, ← clearSkipped_eq_afterNoise s hi.parser.head_lt]
    rfl
  · obtain ⟨n, hn⟩ := exec_next_reaches_sync s noise _ hi hp hnoise hph
    refine ⟨n, hn.trans (nextLoop_of_again (n + 1) _ _ ?_)⟩
    rw [nextTurn_of_waitLen _ rfl, lengthTurn_of_legal _ hcount (by rw [hbyte]; exact hl), hbyte]
    rfl

/-- An illegal length byte costs the candidate its sync byte (43_parser.md R119). -/
theorem exec_next_of_illegal (hl : ¬ LegalLength s.cfg len) :
    exec .next s = .next (raiseError (.invalidLength (BitVec.ofNat 16 noise.length) len) (afterNoise noise.length 1 .seek 0 s)) := by
  obtain ⟨hcount, hbyte⟩ := hc.lengthByte
  obtain ⟨hp, hnoise⟩ := hc
  have hph : s.phase ≠ .waitPayload := by
    intro hph
    obtain ⟨_, hlen, hlegal⟩ := latched_candidate s noise _ hi hp hnoise hph
    obtain rfl : len = s.dlen := Option.some.inj hlen
    exact hl hlegal
  obtain ⟨n, hn⟩ := exec_next_reaches_sync s noise _ hi hp hnoise hph
  rw [hn]
  apply nextLoop_of_done
  rw [nextTurn_of_waitLen _ rfl, lengthTurn_of_illegal _ hcount (by rw [hbyte]; exact hl), hbyte, resync_dropBytes_afterNoise]
  rfl

end candidate

/-- Settles O41: no length is latched, since no length byte is pending, so `NEXT` gets to the sync byte and stays there. -/
theorem nextWaitsForLength : Obligations.NextWaitsForLength := by
  intro s noise hi hp hnoise
  have hph : s.phase ≠ .waitPayload := fun hph => by
    obtain ⟨_, hlen, _⟩ := latched_candidate s noise [] hi hp hnoise hph
    cases hlen
  have hone : s.count - noise.length = 1 := by rw [← length_pending, hp]; simp
  obtain ⟨n, hn⟩ := exec_next_reaches_sync s noise [] hi hp hnoise hph
  have hcount : (afterNoise noise.length 0 .waitLen 0 s).count < 2 := by
    show s.count - noise.length < 2
    omega
  rw [hn, nextLoop_of_done _ _ _ ((nextTurn_of_waitLen _ rfl).trans (lengthTurn_of_lt _ hcount)), ← hone]
  rfl

end Sys2Proof.Machine
end

section
/-! PROOFS. What `NEXT` makes of a candidate of legal length: it waits, rejects the checksum, or consumes the frame
(spec/43_parser.md R119 to R122). -/

namespace Sys2Proof.Machine

/-- The covered range of a candidate, frame offsets 2 to L, is the first `L - 1` bytes after the length byte (43_parser.md R121). -/
theorem candidateCrc_eq (s : State) (a b : Byte) (tail : List Byte) (hp : pending s = a :: b :: tail) (hlen : 1 ≤ s.dlen.toNat)
    (h : 2 + s.dlen.toNat ≤ s.count) : candidateCrc s = crc8 s.cfg (tail.take (s.dlen.toNat - 1)) := by
  rw [candidateCrc, ringRead_eq_pending s _ _ (by omega), hp]
  rfl

/-- The trailing byte of a candidate, frame offset `L + 1`, is the `L`-th byte after the length byte (43_parser.md R121). -/
theorem candidateTrailer_eq (s : State) (a b : Byte) (tail : List Byte) (hp : pending s = a :: b :: tail) (hlen : 1 ≤ s.dlen.toNat)
    (h : 2 + s.dlen.toNat ≤ s.count) : candidateTrailer s = tail.getD (s.dlen.toNat - 1) 0 := by
  have hoffset : s.dlen.toNat + 1 = s.dlen.toNat - 1 + 1 + 1 := by omega
  rw [candidateTrailer, ringByte_eq_getD_pending s _ (by omega), hp, hoffset]
  rfl

/-- The bytes of a complete candidate: sync, length, and as many bytes as the length says (43_parser.md R122). -/
abbrev candidateFrame (cfg : Config) (len : Byte) (tail : List Byte) : List Byte := cfg.sync :: len :: tail.take len.toNat

theorem length_candidateFrame (cfg : Config) (len : Byte) (tail : List Byte) (h : len.toNat ≤ tail.length) :
    (candidateFrame cfg len tail).length = len.toNat + 2 := by
  simp [h]

/-- The type tag of a candidate is the byte after its length byte (43_parser.md R122). -/
theorem candidateFrame_type (cfg : Config) (len : Byte) (tail : List Byte) (h : 1 ≤ len.toNat) :
    (candidateFrame cfg len tail).getD 2 0 = tail.getD 0 0 := by
  have htake : (tail.take len.toNat)[0]? = tail[0]? := List.getElem?_take_of_lt h
  simp [List.getD_eq_getElem?_getD, htake]

/-- A complete candidate of legal length whose checksum matches is a valid frame (30_encoding.md R64). -/
theorem frameValid_candidateFrame (cfg : Config) (len : Byte) (tail : List Byte) (hl : LegalLength cfg len)
    (hm : ChecksumMatches cfg len tail) : frameValid cfg (candidateFrame cfg len tail) = true := by
  obtain ⟨hmin, hmax⟩ := hl.bounds
  obtain ⟨hlen, hcrc⟩ := hm
  have hlast : len.toNat - 1 < tail.length := by omega
  have hparts : tail.take len.toNat = tail.take (len.toNat - 1) ++ [tail.getD (len.toNat - 1) 0] := by
    rw [List.getD_eq_getElem?_getD, List.getElem?_eq_getElem hlast, Option.getD_some, List.take_append_getElem hlast]
    congr 1
    omega
  have hbody : (tail.take (len.toNat - 1)).length = len.toNat - 1 := by simp; omega
  rw [candidateFrame, hparts]
  exact (frameValid_parts_iff cfg cfg.sync len _ _).2 ⟨by omega, by omega, by omega, hcrc⟩

/-- The state in which an accepted frame is dispatched on its type: it is in `FB` and out of the ring (43_parser.md R122). -/
def frameConsumed (s : State) (noise tail : List Byte) (len : Byte) : State :=
  writeFrame (candidateFrame s.cfg len tail) (afterNoise noise.length (len.toNat + 2) .seek 0 s)

section candidate
variable {s : State} {noise tail : List Byte} {len : Byte} (hi : Inv s) (hc : HasCandidate s noise len tail)
  (hl : LegalLength s.cfg len)
include hc

theorem HasCandidate.count_afterNoise (taken : Nat) (p : Phase) (l : Byte) :
    (afterNoise noise.length taken p l s).count = tail.length + 2 - taken := by
  rw [← length_pending, hc.pending_afterNoise, List.length_drop]
  rfl

theorem pending_frameConsumed : pending (frameConsumed s noise tail len) = tail.drop len.toNat :=
  hc.pending_afterNoise (len.toNat + 2) .seek 0

include hl

/-- A complete candidate under examination, with the two checksums that `NEXT` compares (43_parser.md R121). -/
theorem HasCandidate.checksums (hlen : len.toNat ≤ tail.length) :
    2 + len.toNat ≤ (afterNoise noise.length 0 .waitPayload len s).count ∧
    candidateCrc (afterNoise noise.length 0 .waitPayload len s) = crc8 s.cfg (tail.take (len.toNat - 1)) ∧
    candidateTrailer (afterNoise noise.length 0 .waitPayload len s) = tail.getD (len.toNat - 1) 0 := by
  obtain ⟨hmin, _⟩ := hl.bounds
  have hone : 1 ≤ len.toNat := by omega
  have hp := hc.pending_afterNoise 0 .waitPayload len
  have hcount := hc.count_afterNoise 0 .waitPayload len
  have hcomplete : 2 + len.toNat ≤ (afterNoise noise.length 0 .waitPayload len s).count := by omega
  exact ⟨hcomplete, candidateCrc_eq _ _ _ _ hp hone hcomplete, candidateTrailer_eq _ _ _ _ hp hone hcomplete⟩

include hi

/-- `NEXT` ends with the turn in `WAIT_PAYLOAD` on the candidate behind the noise (43_parser.md R120 to R122). -/
theorem exec_next_of_payloadTurn {r : Result} (h : payloadTurn (afterNoise noise.length 0 .waitPayload len s) = .done r) :
    exec .next s = r := by
  obtain ⟨n, hn⟩ := exec_next_reaches_candidate hi hc hl
  exact hn.trans (nextLoop_of_done n _ r ((nextTurn_of_waitPayload _ rfl).trans h))

/-- An incomplete candidate is kept (43_parser.md R120). -/
theorem exec_next_of_incomplete (h : tail.length < len.toNat) :
    exec .next s = .next (respond (.noFrame (BitVec.ofNat 16 noise.length)) (afterNoise noise.length 0 .waitPayload len s)) := by
  have hcount := hc.count_afterNoise 0 .waitPayload len
  have hshort : (afterNoise noise.length 0 .waitPayload len s).count < 2 + len.toNat := by omega
  apply exec_next_of_payloadTurn hi hc hl
  rw [payloadTurn_of_incomplete _ hshort]
  rfl

/-- A complete candidate with a bad checksum loses its sync byte (43_parser.md R121). -/
theorem exec_next_of_mismatch (hlen : len.toNat ≤ tail.length) (h : ¬ ChecksumMatches s.cfg len tail) :
    exec .next s = .next (raiseError (.checksumMismatch (BitVec.ofNat 16 noise.length) (crc8 s.cfg (tail.take (len.toNat - 1)))
      (tail.getD (len.toNat - 1) 0)) (afterNoise noise.length 1 .seek 0 s)) := by
  obtain ⟨hcomplete, hcrc, htrailer⟩ := hc.checksums hl hlen
  apply exec_next_of_payloadTurn hi hc hl
  rw [payloadTurn_of_mismatch _ hcomplete (by rw [hcrc, htrailer]; exact fun e => h ⟨hlen, e⟩),
    hcrc, htrailer, resync_dropBytes_afterNoise]
  rfl

/-- A complete candidate with a matching checksum is consumed and dispatched on its type (43_parser.md R122). -/
theorem exec_next_of_match (h : ChecksumMatches s.cfg len tail) :
    exec .next s = .next (dispatchFrame (candidateFrame s.cfg len tail) (tail.getD 0 0) len.toNat
      (frameConsumed s noise tail len)) := by
  obtain ⟨hmin, hmax⟩ := hl.bounds
  obtain ⟨hlen, hmatch⟩ := h
  have hp := hc.pending_afterNoise 0 .waitPayload len
  obtain ⟨hcomplete, hcrc, htrailer⟩ := hc.checksums hl hlen
  have hframe : ringRead (afterNoise noise.length 0 .waitPayload len s) 0 (len.toNat + 2) = candidateFrame s.cfg len tail := by
    rw [ringRead_eq_pending _ _ _ (by omega), hp]
    rfl
  have hsize := length_candidateFrame s.cfg len tail hlen
  have hdrop := resync_dropBytes_afterNoise noise.length (len.toNat + 2) .waitPayload len s
  have haccept : acceptFrame (candidateFrame s.cfg len tail) len.toNat (afterNoise noise.length 0 .waitPayload len s) =
      .next (dispatchFrame (candidateFrame s.cfg len tail) (tail.getD 0 0) len.toNat (frameConsumed s noise tail len)) := by
    rw [acceptFrame_of_fits _ _ _ (by omega) (by rw [hsize]; exact hmax), candidateFrame_type _ _ _ (by omega), frameConsumed, ← hdrop]
    rfl
  apply exec_next_of_payloadTurn hi hc hl
  rw [payloadTurn_of_match _ hcomplete (by rw [hcrc, htrailer]; exact hmatch), ← haccept, ← hframe]
  rfl

end candidate

@[simp] theorem dispatchFrame_cfg (f : List Byte) (ty : Byte) (n : Nat) (s : State) : (dispatchFrame f ty n s).cfg = s.cfg := by
  rw [dispatchFrame_frame]

@[simp] theorem dispatchFrame_fb (f : List Byte) (ty : Byte) (n : Nat) (s : State) : (dispatchFrame f ty n s).fb = s.fb := by
  rw [dispatchFrame_frame]

/-- The dispatch leaves the ring alone. -/
theorem pending_dispatchFrame (f : List Byte) (ty : Byte) (n : Nat) (s : State) : pending (dispatchFrame f ty n s) = pending s := by
  rw [dispatchFrame_frame]
  rfl

/-- The dispatch leaves `FB` and `FLEN` alone. -/
theorem currentFrame_dispatchFrame (f : List Byte) (ty : Byte) (n : Nat) (s : State) :
    currentFrame (dispatchFrame f ty n s) = currentFrame s := by
  rw [dispatchFrame_frame]
  rfl

/-- What a consumed frame can be answered with (30_encoding.md R74). -/
theorem dispatchFrame_code (f : List Byte) (ty : Byte) (n : Nat) (s : State) :
    ∃ r, (dispatchFrame f ty n s).resp = some r ∧ r.code ∈ [.frameChannels, .frameRaw, .unknownPacketType, .bufferTooSmall] := by
  rcases dispatchFrame_cases f ty n s with ⟨_, e⟩ | ⟨row, _, ⟨_, e⟩ | ⟨_, _, e⟩ | ⟨_, _, e⟩⟩ <;>
    exact ⟨_, by rw [e]; rfl, by simp [Response.code]⟩

theorem frameConsumed_flen (s : State) (noise tail : List Byte) (len : Byte) (h : len.toNat ≤ tail.length) :
    (frameConsumed s noise tail len).flen = BitVec.ofNat 8 (len.toNat + 2) := by
  rw [frameConsumed, writeFrame_flen, length_candidateFrame _ _ _ h]

/-- The consumed frame is the one in `FB` (43_parser.md R122). -/
theorem currentFrame_frameConsumed (s : State) (noise tail : List Byte) (len : Byte) (hl : LegalLength s.cfg len)
    (h : len.toNat ≤ tail.length) : currentFrame (frameConsumed s noise tail len) = candidateFrame s.cfg len tail := by
  obtain ⟨_, hmax⟩ := hl.bounds
  have hcapacity := s.cfg.maxFrame_le
  exact currentFrame_writeFrame _ _ (by rw [length_candidateFrame _ _ _ h]; omega)

/-- Settles O42: an illegal length byte ends the `NEXT` there, and on a legal one the candidate is incomplete, mismatched or consumed. -/
theorem nextRejectsIllegalLength : Obligations.NextRejectsIllegalLength := by
  refine ⟨fun s noise tail len hi hc hl => ?illegal, fun s noise tail len hi hc hl => ?legal⟩
  case illegal => exact ⟨_, exec_next_of_illegal hi hc hl, hc.pending_afterNoise 1 .seek 0, rfl⟩
  case legal =>
    by_cases hlen : tail.length < len.toNat
    · exact ⟨_, exec_next_of_incomplete hi hc hl hlen, by simp⟩
    by_cases hmatch : ChecksumMatches s.cfg len tail
    · refine ⟨_, exec_next_of_match hi hc hl hmatch, fun sk l hresp => ?_⟩
      obtain ⟨r, hr, hcode⟩ := dispatchFrame_code (candidateFrame s.cfg len tail) (tail.getD 0 0) len.toNat
        (frameConsumed s noise tail len)
      obtain rfl : r = .invalidLength sk l := Option.some.inj (hr.symm.trans hresp)
      simp [Response.code] at hcode
    · exact ⟨_, exec_next_of_mismatch hi hc hl (by omega) hmatch, by simp⟩

/-- Settles O43. -/
theorem nextWaitsForPayload : Obligations.NextWaitsForPayload := fun _ _ _ len hi hc hl hlen =>
  ⟨_, exec_next_of_incomplete hi hc hl hlen, hc.pending_afterNoise 0 .waitPayload len, rfl⟩

/-- Settles O44. -/
theorem nextRejectsBadChecksum : Obligations.NextRejectsBadChecksum := fun _ _ _ _ hi hc hl hlen hdiff =>
  ⟨_, exec_next_of_mismatch hi hc hl hlen hdiff, hc.pending_afterNoise 1 .seek 0, rfl⟩

/-- Settles O45: the consumed frame is valid and in `FB`, and the dispatch writes `CH` and the response alone. -/
theorem nextConsumesValidFrame : Obligations.NextConsumesValidFrame := by
  intro s noise tail len hi hc hl hm
  have hread (k : Nat) : Memory.read (frameConsumed s noise tail len).fb k = (candidateFrame s.cfg len tail).getD k 0 :=
    Memory.read_frame _ k
  refine ⟨_, exec_next_of_match hi hc hl hm, ?pending, fun k => ?bytes, ?valid, ?sync, dispatchFrame_code _ _ _ _, ?rest⟩
  case pending => rw [pending_dispatchFrame, pending_frameConsumed hc]
  case bytes => rw [dispatchFrame_fb, hread]
  case valid =>
    rw [dispatchFrame_cfg, currentFrame_dispatchFrame, currentFrame_frameConsumed s noise tail len hl hm.1]
    exact frameValid_candidateFrame s.cfg len tail hl hm
  case sync =>
    rw [dispatchFrame_fb, hread]
    rfl
  case rest =>
    rw [dispatchFrame_fb, ← frameConsumed_flen s noise tail len hm.1]
    exact dispatchFrame_frame _ _ _ _

end Sys2Proof.Machine
end

section
/-! PROOFS. How `NEXT` dispatches a consumed frame on its type (spec/43_parser.md R126 to R129). -/

namespace Sys2Proof.Machine

theorem dispatchFrame_of_unknown (f : List Byte) (ty : Byte) (n : Nat) (s : State) (h : lookupType s.cfg.typeTable ty = none) :
    dispatchFrame f ty n s = raiseError (.unknownPacketType s.skipped ty) s := by
  rcases dispatchFrame_cases f ty n s with ⟨_, e⟩ | ⟨row, hknown, _⟩
  · exact e
  · rw [h] at hknown; cases hknown

section known
variable (f : List Byte) (ty : Byte) (n : Nat) (s : State) (row : TypeRow) (hrow : lookupType s.cfg.typeTable ty = some row)
include hrow

/-- What the dispatch can do with a type whose row is known (43_parser.md R127 to R129). -/
theorem dispatchFrame_known_cases :
    (n < kindOverhead row.kind + row.len.toNat ∧ dispatchFrame f ty n s =
      raiseError (.frameTooShort s.skipped ty row.len (BitVec.ofNat 8 (n - kindOverhead row.kind))) s) ∨
    (kindOverhead row.kind + row.len.toNat ≤ n ∧ ty = s.cfg.typeRC ∧ dispatchFrame f ty n s =
      respond (.frameChannels s.skipped ty 0 3 (BitVec.ofNat 8 (n - 2)))
        { s with ch := unpackChannels ((f.drop 3).take Config.rcLen) }) ∨
    (kindOverhead row.kind + row.len.toNat ≤ n ∧ ty ≠ s.cfg.typeRC ∧ dispatchFrame f ty n s =
      respond (.frameRaw s.skipped ty (kindByte row.kind) (kindOffset row.kind) (BitVec.ofNat 8 (n - kindOverhead row.kind))) s) := by
  rcases dispatchFrame_cases f ty n s with ⟨hnone, _⟩ | ⟨row', hrow', hcases⟩
  · rw [hrow] at hnone; cases hnone
  · obtain rfl : row = row' := Option.some.inj (hrow.symm.trans hrow')
    exact hcases

theorem dispatchFrame_of_short (h : n < kindOverhead row.kind + row.len.toNat) : dispatchFrame f ty n s =
    raiseError (.frameTooShort s.skipped ty row.len (BitVec.ofNat 8 (n - kindOverhead row.kind))) s := by
  rcases dispatchFrame_known_cases f ty n s row hrow with ⟨_, e⟩ | ⟨hlong, _⟩ | ⟨hlong, _⟩
  · exact e
  · omega
  · omega

theorem dispatchFrame_of_channels (h : kindOverhead row.kind + row.len.toNat ≤ n) (hty : ty = s.cfg.typeRC) :
    dispatchFrame f ty n s = respond (.frameChannels s.skipped ty 0 3 (BitVec.ofNat 8 (n - 2)))
      { s with ch := unpackChannels ((f.drop 3).take Config.rcLen) } := by
  rcases dispatchFrame_known_cases f ty n s row hrow with ⟨hshort, _⟩ | ⟨_, _, e⟩ | ⟨_, hother, _⟩
  · omega
  · exact e
  · exact absurd hty hother

theorem dispatchFrame_of_raw (h : kindOverhead row.kind + row.len.toNat ≤ n) (hty : ty ≠ s.cfg.typeRC) :
    dispatchFrame f ty n s = respond (.frameRaw s.skipped ty (kindByte row.kind) (kindOffset row.kind)
      (BitVec.ofNat 8 (n - kindOverhead row.kind))) s := by
  rcases dispatchFrame_known_cases f ty n s row hrow with ⟨hshort, _⟩ | ⟨_, hrc, _⟩ | ⟨_, _, e⟩
  · omega
  · exact absurd hrc hty
  · exact e

end known

/-- The 22 payload bytes of a packed-channels frame that is long enough for them, at frame offsets 3 to 24 (43_parser.md R128). -/
theorem candidateFrame_channels (cfg : Config) (len : Byte) (tail : List Byte) (h : 24 ≤ len.toNat) :
    ((candidateFrame cfg len tail).drop 3).take Config.rcLen = (tail.drop 1).take 22 := by
  have hfits : min 22 (len.toNat - 1) = 22 := by omega
  calc ((candidateFrame cfg len tail).drop 3).take Config.rcLen
      = ((tail.take len.toNat).drop 1).take 22 := rfl
    _ = (tail.drop 1).take 22 := by rw [List.drop_take, List.take_take, hfits]

section candidate
variable {s : State} {noise tail : List Byte} {len : Byte} (hi : Inv s) (hc : HasCandidate s noise len tail)
  (hl : LegalLength s.cfg len) (hm : ChecksumMatches s.cfg len tail)
include hi hc hl hm

/-- A `NEXT` on a candidate whose checksum matches answers what the dispatch of the frame does, with the frame in `FB` and out of the
ring (43_parser.md R122). -/
theorem exec_next_dispatches : ∃ t, exec .next s = .next t ∧
    t = dispatchFrame (candidateFrame s.cfg len tail) (tail.getD 0 0) len.toNat (frameConsumed s noise tail len) ∧
    currentFrame t = candidateFrame s.cfg len tail ∧ pending t = tail.drop len.toNat := by
  refine ⟨_, exec_next_of_match hi hc hl hm, rfl, ?frame, ?pending⟩
  case frame => rw [currentFrame_dispatchFrame, currentFrame_frameConsumed s noise tail len hl hm.1]
  case pending => rw [pending_dispatchFrame, pending_frameConsumed hc]

end candidate

/-- Settles O46: the dispatch of a type without a row answers and writes nothing. -/
theorem nextReportsUnknownType : Obligations.NextReportsUnknownType := by
  intro s noise tail len hi hc hl hm hunknown
  obtain ⟨t, hexec, ht, hframe, hpending⟩ := exec_next_dispatches hi hc hl hm
  rw [dispatchFrame_of_unknown _ _ _ (frameConsumed s noise tail len) hunknown] at ht
  exact ⟨t, hexec, by rw [ht]; rfl, hframe, hpending, by rw [ht]; rfl⟩

/-- Settles O47: the window is too short, or the type is that of the packed channels, or it is another one. -/
theorem nextDispatchesKnownType : Obligations.NextDispatchesKnownType := by
  intro s noise tail len row hi hc hl hm hrow
  obtain ⟨t, hexec, ht, hframe, hpending⟩ := exec_next_dispatches hi hc hl hm
  refine ⟨t, hexec, hframe, hpending, fun hshort => ?tooShort, fun hlong hrc => ?channels, fun hlong hother => ?raw⟩
  case tooShort =>
    rw [ht, dispatchFrame_of_short _ _ _ (frameConsumed s noise tail len) row hrow hshort]
    exact ⟨rfl, rfl⟩
  case channels =>
    have hrcRow : row = ⟨s.cfg.typeRC, .simple, 22⟩ := by
      rw [hrc, s.cfg.lookup_typeRC] at hrow
      exact (Option.some.inj hrow).symm
    have hlen : 24 ≤ len.toNat := by rwa [hrcRow] at hlong
    rw [ht, dispatchFrame_of_channels _ _ _ (frameConsumed s noise tail len) row hrow hlong hrc, candidateFrame_channels _ _ _ hlen,
      hrc]
    exact ⟨rfl, rfl⟩
  case raw =>
    rw [ht, dispatchFrame_of_raw _ _ _ (frameConsumed s noise tail len) row hrow hlong hother]
    refine ⟨rfl, ?_⟩
    cases row.kind <;> rfl

end Sys2Proof.Machine
end

section
/-! PROOFS. The system commands `NOP`, `RESET` and `CLR_FLAGS` (spec/44_system.md R140, R141, R143), and how their bytes decode
(spec/30_encoding.md R71). -/

namespace Sys2Proof

theorem decode_nop (rest : List Byte) : decode (0x00 :: rest) = .command .nop rest := rfl

theorem decode_reset (rest : List Byte) : decode (0x01 :: rest) = .command .reset rest := rfl

theorem decode_clrFlags (rest : List Byte) : decode (0x03 :: rest) = .command .clrFlags rest := rfl

end Sys2Proof

namespace Sys2Proof.Machine

theorem exec_nop (s : State) : exec .nop s = .next { s with resp := some .ok } := rfl

theorem exec_reset (s : State) : exec .reset s = .next (respond .ok (hardReset s)) := rfl

theorem exec_clrFlags (s : State) : exec .clrFlags s = .next { s with ovf := false, resp := some .ok } := rfl

/-- Byte 0 of `STATUS` is 0 while the synchronizer seeks, with no overflow recorded and no frame in `FB`
(10_state.md R28). -/
theorem statusByte0_of_seek (s : State) (hphase : s.phase = .seek) (hovf : s.ovf = false) (hflen : s.flen = 0) :
    statusByte0 s = 0 := by
  rw [statusByte0, pstate_seek s hphase, hovf, fvalid, hflen]
  rfl

/-- `STATUS_READ` shows seven zero bytes where the six elements it looks at have their reset values (70_reset_and_hazards.md R181). -/
theorem exec_statusRead_of_zero (s : State) (hphase : s.phase = .seek) (hovf : s.ovf = false) (hflen : s.flen = 0)
    (hcount : s.count = 0) (hskipped : s.skipped = 0) (hdlen : s.dlen = 0) :
    exec .statusRead s = .next { s with resp := some (.okStatus [0x00, 0x00, 0x00, 0x00, 0x00, 0x00, 0x00]) } := by
  rw [exec_statusRead, statusByte0_of_seek s hphase hovf hflen, hcount, hskipped, hdlen, hflen]
  rfl

/-- Settles O12. -/
theorem nopOnlyResponds : Obligations.NopOnlyResponds := ⟨decode_nop, exec_nop⟩

/-- Settles O13: `RESET` is the hardware reset with a response, and the memory it puts in `FB` reads 0 everywhere. -/
theorem resetPutsEveryElementInResetState : Obligations.ResetPutsEveryElementInResetState := by
  refine ⟨decode_reset, fun s => ⟨Memory.zero, Memory.read_zero, exec_reset s, fun t ht => ?status⟩⟩
  case status =>
    obtain rfl : respond .ok (hardReset s) = t := Host.Outcome.next.inj ((exec_reset s).symm.trans ht)
    exact exec_statusRead_of_zero _ (by simp) (by simp) (by simp) (by simp) (by simp) (by simp)

/-- Settles O17. -/
theorem clrFlagsClearsOvfOnly : Obligations.ClrFlagsClearsOvfOnly := ⟨decode_clrFlags, exec_clrFlags⟩

end Sys2Proof.Machine
end

section
/-! PROOFS. `IllegalCommand` (spec/60_exceptions.md R157): a reserved opcode decodes alone (spec/30_encoding.md R72) and its step only
answers. -/

namespace Sys2Proof

/-- An opcode outside the map is a command of one byte: every number the decoder matches is in the list (30_encoding.md R71, R72). -/
theorem decode_reserved (op : Byte) (rest : List Byte)
    (h : op ∉ ([0x00, 0x01, 0x02, 0x03, 0x10, 0x11, 0x12, 0x20, 0x21, 0x22, 0x23, 0x30, 0x31, 0x32, 0x33, 0x40, 0x41] : List Byte)) :
    decode (op :: rest) = .reserved op rest := by
  -- The decoder matches on the opcode's number, so the hypothesis is taken to numbers; `h_18` is the reserved arm.
  have hnat := mt (List.mem_map_of_injective fun _ _ => BitVec.eq_of_toNat_eq).1 h
  rw [decode, decodeOp]
  split
  case h_18 => rfl
  all_goals
    rename_i hop
    rw [hop] at hnat
    exact absurd (by decide) hnat

end Sys2Proof

namespace Sys2Proof.Machine

theorem step_of_reserved (s : State) (op : Byte) (rest : List Byte) (h : fetch s = .reserved op rest) :
    step s = .next (illegalOpcode op (s.withCmds rest)) := by
  rw [step, h]

/-- Settles O5: a reserved opcode is answered by the step itself, an index or an offset out of range by its command. -/
theorem illegalCommandRecordsOpcodeOnly : Obligations.IllegalCommandRecordsOpcodeOnly := by
  refine ⟨fun s op rest hop hcmds => ?reservedOpcode,
    fun s idx v h => ⟨exec_chWrite_of_gt idx v s h, exec_chRead_of_gt idx s h⟩, fun s off h => exec_fbRead_of_ge off s h⟩
  case reservedOpcode =>
    have hfetch : fetch s = .reserved op rest := by rw [fetch, hcmds, decode_reserved op rest hop]
    exact step_of_reserved s op rest hfetch

end Sys2Proof.Machine
end

section
/-! PROOFS. The decoder and the encoder are inverse, a command cut short is no command (spec/30_encoding.md R70 to R73), and what a step
makes of the bytes at the front of the stream (spec/20_memory.md R50; spec/60_exceptions.md R170). -/

namespace Sys2Proof

/-- The count byte of a data sequence that fits it is the length of the sequence (30_encoding.md R70). -/
theorem length_eq_toNat_of_fitsCount (d : List Byte) (h : fitsCount d = true) : d.length = (BitVec.ofNat 8 d.length).toNat := by
  have hle : d.length ≤ 255 := of_decide_eq_true h
  rw [BitVec.toNat_ofNat, Nat.mod_eq_of_lt (by omega)]

/-- Settles O3, command by command: without operands, with operands of a fixed size, and with a count byte, which a well-formed
command's data fits. -/
theorem decodeReadsBackEncode : Obligations.DecodeReadsBackEncode := by
  intro i rest hwf
  cases i with
  | nop => exact decode_nop rest
  | reset => exact decode_reset rest
  | statusRead => rfl
  | clrFlags => exact decode_clrFlags rest
  | crcReset => exact decode_crcReset rest
  | crcRead => exact decode_crcRead rest
  | next => rfl
  | chWrite idx v =>
    have hdecode := decode_chWrite idx (loByte v) (hiByte v) rest
    rwa [half_loByte_hiByte] at hdecode
  | chRead idx => exact decode_chRead idx rest
  | pack wlen => exact decode_pack wlen rest
  | buildCh sync => exact decode_buildCh sync rest
  | fbRead off => exact decode_fbRead off rest
  | crcUpdate d => exact decode_crcUpdate _ d rest (length_eq_toNat_of_fitsCount d hwf)
  | unpack d => exact decode_unpack _ d rest (length_eq_toNat_of_fitsCount d hwf)
  | push d => exact decode_push _ d rest (length_eq_toNat_of_fitsCount d hwf)
  | buildSimple sync ty d => exact decode_buildSimple sync ty _ d rest (length_eq_toNat_of_fitsCount d hwf)
  | buildExt sync ty dst src d => exact decode_buildExt sync ty dst src _ d rest (length_eq_toNat_of_fitsCount d hwf)

/-! What each format can decode to (30_encoding.md R70). -/

theorem decodeI_command (mk : Byte → Instr) (bs rest : List Byte) (i : Instr) (h : decodeI mk bs = .command i rest) :
    ∃ a, i = mk a ∧ bs = a :: rest := by
  unfold decodeI at h
  split at h <;> cases h
  exact ⟨_, rfl, rfl⟩

theorem decodeW_command (mk : Byte → Half → Instr) (bs rest : List Byte) (i : Instr) (h : decodeW mk bs = .command i rest) :
    ∃ idx v, i = mk idx v ∧ bs = idx :: (bytesOfHalf v ++ rest) := by
  unfold decodeW at h
  split at h <;> cases h
  exact ⟨_, _, rfl, by simp [bytesOfHalf]⟩

theorem decodeV_command (mk : List Byte → Instr) (bs rest : List Byte) (i : Instr) (h : decodeV mk bs = .command i rest) :
    ∃ d, fitsCount d = true ∧ i = mk d ∧ bs = encodeCounted d ++ rest := by
  unfold decodeV at h
  split at h <;> cases h
  obtain ⟨hlen, hbs⟩ := takeCounted_some _ _ _ ‹_›
  exact ⟨_, decide_eq_true hlen, rfl, hbs⟩

theorem decodeS_command (mk : Byte → Byte → List Byte → Instr) (bs rest : List Byte) (i : Instr)
    (h : decodeS mk bs = .command i rest) :
    ∃ sync ty d, fitsCount d = true ∧ i = mk sync ty d ∧ bs = sync :: ty :: (encodeCounted d ++ rest) := by
  unfold decodeS at h
  split at h
  · split at h <;> cases h
    obtain ⟨hlen, hbs⟩ := takeCounted_some _ _ _ ‹_›
    exact ⟨_, _, _, decide_eq_true hlen, rfl, by rw [hbs]⟩
  · cases h

theorem decodeX_command (mk : Byte → Byte → Byte → Byte → List Byte → Instr) (bs rest : List Byte) (i : Instr)
    (h : decodeX mk bs = .command i rest) :
    ∃ sync ty dst src d, fitsCount d = true ∧ i = mk sync ty dst src d ∧
      bs = sync :: ty :: dst :: src :: (encodeCounted d ++ rest) := by
  unfold decodeX at h
  split at h
  · split at h <;> cases h
    obtain ⟨hlen, hbs⟩ := takeCounted_some _ _ _ ‹_›
    exact ⟨_, _, _, _, _, decide_eq_true hlen, rfl, by rw [hbs]⟩
  · cases h

/-- A decoded command is well-formed, its opcode is the byte before its operands, and those are its encoded operands
(30_encoding.md R71). -/
theorem decodeOp_command (op : Byte) (bs rest : List Byte) (i : Instr) (h : decodeOp op bs = .command i rest) :
    i.wf = true ∧ op = opcodeOf i ∧ bs = encodeOperands i ++ rest := by
  unfold decodeOp at h
  split at h
  case h_18 => cases h
  all_goals rename_i hop
  case h_1 | h_2 | h_3 | h_4 | h_5 | h_7 | h_17 => cases h; exact ⟨rfl, BitVec.eq_of_toNat_eq hop, rfl⟩
  case h_6 | h_11 | h_16 =>
    obtain ⟨d, hd, rfl, rfl⟩ := decodeV_command _ _ _ _ h
    exact ⟨hd, BitVec.eq_of_toNat_eq hop, rfl⟩
  case h_8 =>
    obtain ⟨idx, v, rfl, rfl⟩ := decodeW_command _ _ _ _ h
    exact ⟨rfl, BitVec.eq_of_toNat_eq hop, rfl⟩
  case h_9 | h_10 | h_14 | h_15 =>
    obtain ⟨a, rfl, rfl⟩ := decodeI_command _ _ _ _ h
    exact ⟨rfl, BitVec.eq_of_toNat_eq hop, rfl⟩
  case h_12 =>
    obtain ⟨sync, ty, d, hd, rfl, rfl⟩ := decodeS_command _ _ _ _ h
    exact ⟨hd, BitVec.eq_of_toNat_eq hop, rfl⟩
  case h_13 =>
    obtain ⟨sync, ty, dst, src, d, hd, rfl, rfl⟩ := decodeX_command _ _ _ _ h
    exact ⟨hd, BitVec.eq_of_toNat_eq hop, rfl⟩

/-- Settles O4: the opcode and the operands of a decoded command are those of its encoding. -/
theorem decodedBytesAreTheEncoding : Obligations.DecodedBytesAreTheEncoding := by
  intro bs i rest h
  cases bs with
  | nil => cases h
  | cons op bs =>
    obtain ⟨hwf, rfl, rfl⟩ := decodeOp_command op bs rest i h
    exact ⟨hwf, rfl⟩

/-- What a format answers: a command, or that bytes are missing. It never makes a command reserved: only the opcode does
(30_encoding.md R70, R72). -/
def Decoded.IsFormatAnswer (answer : Decoded) : Prop := (∃ i rest, answer = .command i rest) ∨ answer = .needMoreBytes

theorem isFormatAnswer_command (i : Instr) (rest : List Byte) : (Decoded.command i rest).IsFormatAnswer := .inl ⟨i, rest, rfl⟩

theorem isFormatAnswer_needMoreBytes : Decoded.needMoreBytes.IsFormatAnswer := .inr rfl

theorem decodeI_answers (mk : Byte → Instr) (bs : List Byte) : (decodeI mk bs).IsFormatAnswer := by
  unfold decodeI
  split
  · exact isFormatAnswer_command _ _
  · exact isFormatAnswer_needMoreBytes

theorem decodeW_answers (mk : Byte → Half → Instr) (bs : List Byte) : (decodeW mk bs).IsFormatAnswer := by
  unfold decodeW
  split
  · exact isFormatAnswer_command _ _
  · exact isFormatAnswer_needMoreBytes

theorem decodeV_answers (mk : List Byte → Instr) (bs : List Byte) : (decodeV mk bs).IsFormatAnswer := by
  unfold decodeV
  split
  · exact isFormatAnswer_command _ _
  · exact isFormatAnswer_needMoreBytes

theorem decodeS_answers (mk : Byte → Byte → List Byte → Instr) (bs : List Byte) : (decodeS mk bs).IsFormatAnswer := by
  unfold decodeS
  split
  · split
    · exact isFormatAnswer_command _ _
    · exact isFormatAnswer_needMoreBytes
  · exact isFormatAnswer_needMoreBytes

theorem decodeX_answers (mk : Byte → Byte → Byte → Byte → List Byte → Instr) (bs : List Byte) :
    (decodeX mk bs).IsFormatAnswer := by
  unfold decodeX
  split
  · split
    · exact isFormatAnswer_command _ _
    · exact isFormatAnswer_needMoreBytes
  · exact isFormatAnswer_needMoreBytes

/-- After the opcode of a command its format answers, whatever bytes follow. -/
theorem decodeOp_opcodeOf_answers (i : Instr) (bs : List Byte) : (decodeOp (opcodeOf i) bs).IsFormatAnswer := by
  cases i with
  | nop | reset | statusRead | clrFlags | crcReset | crcRead | next => exact isFormatAnswer_command _ bs
  | chWrite => exact decodeW_answers _ bs
  | chRead | pack | buildCh | fbRead => exact decodeI_answers _ bs
  | crcUpdate | unpack | push => exact decodeV_answers _ bs
  | buildSimple => exact decodeS_answers _ bs
  | buildExt => exact decodeX_answers _ bs

/-- No command is a proper beginning of another: a command that ends within the bytes of `i` would leave a byte of `i` over, and the
whole of `i` is read with none left over. -/
theorem decode_part_ne_command (i j : Instr) (p q rest : List Byte) (hwf : i.wf = true) (he : encode i = p ++ q) (hq : q ≠ []) :
    decode p ≠ .command j rest := by
  intro h
  obtain ⟨hj, rfl⟩ := decodedBytesAreTheEncoding _ _ _ h
  have hi := decodeReadsBackEncode i [] hwf
  rw [List.append_nil, he, List.append_assoc, decodeReadsBackEncode j _ hj] at hi
  simp [hq] at hi

/-- A proper non-empty beginning of a command is no command yet (30_encoding.md R72): it has the command's opcode, and no command ends
in it. -/
theorem decode_of_part (i : Instr) (p q : List Byte) (hwf : i.wf = true) (he : encode i = p ++ q) (hp : p ≠ []) (hq : q ≠ []) :
    decode p = .needMoreBytes := by
  cases p with
  | nil => exact absurd rfl hp
  | cons op bs =>
    obtain ⟨rfl, _⟩ := List.cons.inj he
    rcases decodeOp_opcodeOf_answers i bs with ⟨j, rest, hcommand⟩ | hmissing
    · exact absurd hcommand (decode_part_ne_command i j _ q rest hwf he hq)
    · exact hmissing

/-- Settles O2. -/
theorem decoderReadsSpecWords : Obligations.DecoderReadsSpecWords := ⟨rfl, rfl, rfl, rfl, rfl⟩

end Sys2Proof

namespace Sys2Proof.Machine

theorem step_of_idle (s : State) (h : fetch s = .idle) : step s = .next s := by rw [step, h]

theorem step_of_needMoreBytes (s : State) (h : fetch s = .needMoreBytes) : step s = .refused .needMoreBytes := by rw [step, h]

theorem step_of_command (s : State) (i : Instr) (rest : List Byte) (h : fetch s = .command i rest) :
    step s = exec i (s.withCmds rest) := by
  rw [step, h]

/-- Settles O6: the bytes before and after the cut are a proper non-empty beginning of the command and what it misses. -/
theorem truncatedCommandHasNoStep : Obligations.TruncatedCommandHasNoStep := by
  intro s i k hwf hpos hlt hcmds
  have hp : (encode i).take k ≠ [] := by
    rw [← List.length_pos_iff, List.length_take]
    omega
  have hq : (encode i).drop k ≠ [] := by
    rw [← List.length_pos_iff, List.length_drop]
    omega
  apply step_of_needMoreBytes
  rw [fetch, hcmds]
  exact decode_of_part i _ _ hwf (List.take_append_drop k _).symm hp hq

/-- Settles O8. -/
theorem stepRunsDecodedCommand : Obligations.StepRunsDecodedCommand := step_of_command

/-- Settles O9. -/
theorem noCommandKeepsState : Obligations.NoCommandKeepsState := fun s h => step_of_idle s (by rw [fetch, h]; rfl)

end Sys2Proof.Machine
end

section
/-! PROOFS. What each command leaves alone: the access matrix, the parameters, the command stream (spec/10_state.md R34; spec/00_scope.md
section 3). -/

namespace Sys2Proof.Machine

/-- `s` with the elements that `w` marks, and the last response, as they are in `t`. -/
def overwrite (w : Element → Bool) (s t : State) : State :=
  { s with
    crc := if w .crc then t.crc else s.crc
    ch := if w .ch then t.ch else s.ch
    fb := if w .frame then t.fb else s.fb
    flen := if w .frame then t.flen else s.flen
    rb := if w .ring then t.rb else s.rb
    head := if w .cursors then t.head else s.head
    count := if w .cursors then t.count else s.count
    phase := if w .position then t.phase else s.phase
    dlen := if w .position then t.dlen else s.dlen
    ovf := if w .ovf then t.ovf else s.ovf
    skipped := if w .skipped then t.skipped else s.skipped
    resp := t.resp }

/-- Every command keeps its row of the access matrix (10_state.md R34). -/
theorem exec_overwrites (i : Instr) (s t : State) (h : exec i s = .next t) : t = overwrite (mayWrite i) s t := by
  cases i with
  | nop | reset | statusRead | clrFlags | crcReset | crcUpdate | crcRead => cases h; rfl
  | chWrite idx v => simp only [exec, execChWrite] at h; split at h <;> cases h <;> rfl
  | chRead idx => simp only [exec, execChRead] at h; split at h <;> cases h <;> rfl
  | pack wlen => simp only [exec, execPack] at h; split at h <;> cases h <;> rfl
  | unpack d => simp only [exec, execUnpack] at h; split at h <;> cases h <;> rfl
  | fbRead off => simp only [exec, execFbRead] at h; split at h <;> cases h <;> rfl
  | buildSimple | buildExt | buildCh => obtain rfl := Host.Outcome.next.inj h; rw [build_frame]; rfl
  | push d => rw [execPush_frame d s t h]; rfl
  | next => rw [nextLoop_frame _ _ _ h]; rfl

/-- An element that is not marked holds the same. -/
theorem sameElement_of_overwrite (w : Element → Bool) (s t : State) (e : Element) (h : t = overwrite w s t) (he : w e = false) :
    sameElement e s t := by
  rw [h]
  cases e <;> simp [sameElement, overwrite, he]

/-- Settles O10: the parameters and the command stream are no elements of the matrix. -/
theorem parametersNeverChange : Obligations.ParametersNeverChange := fun i s t h =>
  ⟨(congrArg State.cfg (exec_overwrites i s t h) :), (congrArg State.cmds (exec_overwrites i s t h) :)⟩

/-- Settles O11. -/
theorem accessMatrixWrites : Obligations.AccessMatrixWrites := fun i s t e h he =>
  sameElement_of_overwrite (mayWrite i) s t e (exec_overwrites i s t h) he

end Sys2Proof.Machine
end

section
/-! PROOFS. The invariants (spec/10_state.md R32) under the named operations and under every command but `NEXT`. -/

namespace Sys2Proof.Machine

/-! What each part of the invariants looks at. -/

theorem MemoryInv.of_same {s t : State} (h : MemoryInv s) (hcfg : t.cfg = s.cfg) (hframe : sameElement .frame s t)
    (hring : sameElement .ring s t) : MemoryInv t := by
  obtain ⟨hfb, _⟩ := hframe
  have hrb : t.rb = s.rb := hring
  exact ⟨by rw [hfb]; exact h.fb_wf, by rw [hrb]; exact h.rb_wf, by rw [hfb, hcfg]; exact h.fb_within,
    by rw [hrb, hcfg]; exact h.rb_within⟩

theorem ringByte_of_same {s t : State} (hcfg : t.cfg = s.cfg) (hring : sameElement .ring s t) (hcursors : sameElement .cursors s t)
    (k : Nat) : ringByte t k = ringByte s k := by
  obtain ⟨hhead, _⟩ := hcursors
  have hrb : t.rb = s.rb := hring
  rw [ringByte, ringByte, ringIndex, ringIndex, hrb, hhead, hcfg]

theorem ParserInv.of_same {s t : State} (h : ParserInv s) (hcfg : t.cfg = s.cfg) (hring : sameElement .ring s t)
    (hcursors : sameElement .cursors s t) (hposition : sameElement .position s t) (hskipped : sameElement .skipped s t) :
    ParserInv t := by
  have hbyte := ringByte_of_same hcfg hring hcursors
  obtain ⟨hhead, hcount⟩ := hcursors
  obtain ⟨hphase, hdlen⟩ := hposition
  have hsk : t.skipped = s.skipped := hskipped
  constructor
  · rw [hcount, hcfg]; exact h.count_le
  · rw [hhead, hcfg]; exact h.head_lt
  · rw [hphase, hcount, hbyte, hcfg]; exact h.candidate
  · rw [hphase, hcount, hbyte, hdlen, hcfg]; exact h.latched
  · rw [hphase, hdlen]; exact h.unlatched
  · rw [hsk, hcfg]; exact h.skipped_le

theorem FrameInv.of_same {s t : State} (h : FrameInv s) (hcfg : t.cfg = s.cfg) (hframe : sameElement .frame s t) : FrameInv t := by
  obtain ⟨hfb, hflen⟩ := hframe
  constructor
  · rw [currentFrame_congr s t hfb hflen, hflen, hcfg]; exact h.valid
  · rw [hfb, hflen, hcfg]; exact h.zero_after

/-- The invariants do not look at `CRC`, `CH`, `OVF`, the command stream or the last response. -/
theorem Inv.of_same {s t : State} (h : Inv s) (hcfg : t.cfg = s.cfg)
    (hsame : ∀ e ∈ [Element.frame, .ring, .cursors, .position, .skipped], sameElement e s t) : Inv t :=
  have hframe := hsame .frame (by simp)
  have hring := hsame .ring (by simp)
  ⟨h.memory.of_same hcfg hframe hring,
    h.parser.of_same hcfg hring (hsame .cursors (by simp)) (hsame .position (by simp)) (hsame .skipped (by simp)),
    h.frame.of_same hcfg hframe⟩

theorem Inv.respond {s : State} (h : Inv s) (r : Response) : Inv (respond r s) := h.of_same rfl (by simp [sameElement])

theorem Inv.raiseError {s : State} (h : Inv s) (r : Response) : Inv (raiseError r s) := h.respond r

theorem Inv.setOvf {s : State} (h : Inv s) : Inv (setOvf s) := h.of_same rfl (by simp [sameElement])

theorem Inv.withCmds {s : State} (h : Inv s) (bs : List Byte) : Inv (s.withCmds bs) := h.of_same rfl (by simp [sameElement])

/-! A frame written to `FB`. -/

/-- A valid frame in `FB` over a zero fill is what I5 and I6 ask for. -/
theorem frameInv_writeFrame (f : List Byte) (s : State) (h : frameValid s.cfg f = true) : FrameInv (writeFrame f s) := by
  obtain ⟨hmin, hmax⟩ := frameValid_bounds s.cfg f h
  have hcapacity := s.cfg.maxFrame_le
  have hflen : (writeFrame f s).flen.toNat = f.length := by simp; omega
  refine ⟨.inr ⟨by rw [hflen]; exact hmin, by rw [hflen]; exact hmax, ?valid⟩, fun k _ hk => ?zero⟩
  case valid =>
    rw [currentFrame_writeFrame f s (by omega)]
    exact h
  case zero =>
    rw [writeFrame_fb, Memory.read_frame, List.getD_eq_default _ _ (by omega)]

theorem Inv.writeFrame {s : State} (hi : Inv s) (f : List Byte) (h : frameValid s.cfg f = true) : Inv (writeFrame f s) := by
  obtain ⟨_, hmax⟩ := frameValid_bounds s.cfg f h
  have hmemory := hi.memory
  refine ⟨⟨?_, hmemory.rb_wf, ?_, hmemory.rb_within⟩, hi.parser.of_same rfl rfl ⟨rfl, rfl⟩ ⟨rfl, rfl⟩ rfl,
    frameInv_writeFrame f s h⟩
  · exact Memory.wf_writeBytes _ _ _ Memory.wf_zero
  · exact Memory.within_writeBytes _ _ _ _ (by simpa using hmax) (Memory.within_zero _)

/-- The frame of a `BUILD` command that fits is valid (42_frame_build.md section 3). -/
theorem frameValid_frameBytes (cfg : Config) (sync ty : Byte) (addr d : List Byte) (h : frameLength addr d ≤ cfg.maxLen) :
    frameValid cfg (frameBytes cfg sync ty addr d) = true := by
  have hmin := cfg.maxFrame_ge
  have hcapacity := cfg.maxFrame_le
  have hmax : frameLength addr d + 2 ≤ cfg.maxFrame := by rw [Params.maxLen] at h; omega
  have hbody : ([ty] ++ addr ++ d).length + 1 = frameLength addr d := by
    have hovh : Config.ovhSimple = 2 := rfl
    simp [frameLength]
    omega
  have hlen : (BitVec.ofNat 8 (frameLength addr d)).toNat = frameLength addr d := by simp; omega
  rw [frameBytes_eq]
  exact (frameValid_parts_iff _ _ _ _ _).2 ⟨by simp, by omega, by omega, rfl⟩

theorem Inv.build {s : State} (hi : Inv s) (sync ty : Byte) (addr d : List Byte) : Inv (build sync ty addr d s) := by
  rcases build_cases sync ty addr d s with ⟨_, e⟩ | ⟨hfits, e⟩ <;> rw [e]
  · exact hi.raiseError _
  · exact (hi.writeFrame _ (frameValid_frameBytes s.cfg sync ty addr d hfits)).respond _

/-! The ring. -/

theorem Inv.appendByte {s : State} (hi : Inv s) (b : Byte) (hc : s.count < s.cfg.ringN) : Inv (appendByte b s) := by
  obtain ⟨hfbwf, hrbwf, hfb, hrb⟩ := hi.memory
  have hp := hi.parser
  have hbyte (j : Nat) (hj : j < s.count) := ringByte_append_other b s j hj hc
  refine ⟨⟨hfbwf, Memory.wf_write _ _ _ hrbwf, hfb, Memory.within_write _ _ _ _ (ringIndex_lt s _) hrb⟩,
    ⟨hc, hp.head_lt, fun hph => ?candidate, fun hph => ?latched, hp.unlatched, hp.skipped_le⟩, hi.frame.of_same rfl ⟨rfl, rfl⟩⟩
  case candidate =>
    obtain ⟨hcount, hsync⟩ := hp.candidate hph
    exact ⟨Nat.le_add_left 1 _, (hbyte 0 hcount).trans hsync⟩
  case latched =>
    obtain ⟨hcount, hlen, hlegal⟩ := hp.latched hph
    exact ⟨Nat.le_succ_of_le hcount, (hbyte 1 hcount).trans hlen, hlegal⟩

/-- Dropping bytes is safe where the candidate is abandoned with them. -/
theorem Inv.resync_dropBytes {s : State} (hi : Inv s) (k : Nat) : Inv (resync (dropBytes k s)) := by
  refine ⟨hi.memory.of_same rfl ⟨rfl, rfl⟩ rfl, ?_, hi.frame.of_same rfl ⟨rfl, rfl⟩⟩
  exact ⟨(Nat.sub_le _ _).trans hi.parser.count_le, ringIndex_lt s k, nofun, nofun, fun _ => rfl, hi.parser.skipped_le⟩

theorem Inv.pushByte {s : State} (hi : Inv s) (b : Byte) (n : Nat) : Inv (pushByte b s n).1 := by
  have hc := hi.parser.count_le
  rcases pushByte_cases b s n with ⟨_, e⟩ | ⟨hroom, e⟩ <;> rw [e]
  · have hpos := s.cfg.ringN_pos
    exact (hi.resync_dropBytes 1).appendByte b (by simp; omega)
  · exact hi.appendByte b (by omega)

theorem Inv.pushBytes {s : State} (hi : Inv s) (d : List Byte) (n : Nat) : Inv (pushBytes d s n).1 := by
  induction d generalizing s n with
  | nil => exact hi
  | cons b d ih => exact ih (hi.pushByte b n) _

theorem exec_push_keeps_inv (d : List Byte) (s t : State) (hi : Inv s) (h : exec (.push d) s = .next t) : Inv t := by
  simp only [exec] at h
  rcases execPush_cases d s with ⟨_, e⟩ | ⟨k, _, e⟩ <;> rw [e] at h <;> cases h
  · exact (hi.pushBytes d 0).respond _
  · exact (hi.pushBytes d 0).setOvf.raiseError _

/-! Reset. -/

/-- The elements the invariants look at have their reset values: nothing is pending, and `FB` holds no frame. -/
theorem inv_of_empty (s : State) (hrb : Memory.wf s.rb = true) (hwithin : Memory.within s.rb s.cfg.ringN = true)
    (hfb : s.fb = Memory.zero) (hflen : s.flen = 0) (hhead : s.head = 0) (hcount : s.count = 0) (hphase : s.phase = .seek)
    (hdlen : s.dlen = 0) (hskipped : s.skipped = 0) : Inv s := by
  refine ⟨⟨by rw [hfb]; rfl, hrb, by rw [hfb]; rfl, hwithin⟩, ?parser, ⟨.inl hflen, fun k _ _ => by rw [hfb]; rfl⟩⟩
  exact ⟨by simp [hcount], by rw [hhead]; exact s.cfg.ringN_pos, by simp [hphase], by simp [hphase], fun _ => hdlen, by simp [hskipped]⟩

theorem Inv.hardReset {s : State} (hi : Inv s) : Inv (hardReset s) :=
  inv_of_empty _ hi.memory.rb_wf hi.memory.rb_within rfl rfl rfl rfl rfl rfl rfl

/-- Settles O57. -/
theorem resetMeetsInvariants : Obligations.ResetMeetsInvariants :=
  have hreset (cfg : Config) : Inv (State.resetWith cfg) := inv_of_empty _ rfl rfl rfl rfl rfl rfl rfl rfl rfl
  ⟨hreset, hreset Config.default⟩

/-- Every command but `NEXT` keeps the invariants; most write no element that the invariants look at. -/
theorem exec_keeps_inv_of_ne_next (i : Instr) (s t : State) (hi : Inv s) (hnext : i ≠ .next) (h : exec i s = .next t) : Inv t := by
  cases i with
  | next => exact absurd rfl hnext
  | push d => exact exec_push_keeps_inv d s t hi h
  | reset => obtain rfl := Host.Outcome.next.inj h; exact hi.hardReset.respond _
  | buildSimple | buildExt | buildCh => obtain rfl := Host.Outcome.next.inj h; exact hi.build _ _ _ _
  | _ =>
    obtain ⟨hcfg, _⟩ := parametersNeverChange _ s t h
    exact hi.of_same hcfg fun e he => accessMatrixWrites _ s t e h (by fin_cases he <;> rfl)

end Sys2Proof.Machine
end

section
/-! PROOFS. What a `NEXT` does in every state that meets the invariants, said once (spec/43_parser.md R115 to R129), and what follows
from it alone: the invariants are kept, every command is answered, the oldest bytes are taken in order, and a drained ring has room. -/

namespace Sys2Proof.Machine

theorem dropNoise_clearSkipped_of_seek (k : Nat) (s : State) (hph : s.phase = .seek) (hdlen : s.dlen = 0) :
    dropNoise k (clearSkipped s) = afterNoise k 0 .seek 0 s := by
  simp [dropNoise, afterNoise, clearSkipped, dropBytes, ringIndex, hph, hdlen]

/-- A candidate would have a sync byte at the head, so where none is pending the synchronizer is in `SEEK` (10_state.md R32, I2, I4). -/
theorem seek_of_noise {s : State} (hi : Inv s) (hnoise : ∀ b ∈ pending s, b ≠ s.cfg.sync) : s.phase = .seek ∧ s.dlen = 0 := by
  have hph : s.phase = .seek := by
    by_contra hph
    obtain ⟨hcount, hsync⟩ := hi.parser.candidate hph
    exact hnoise _ (List.mem_of_getElem? (getElem?_pending s 0 hcount)) hsync
  exact ⟨hph, hi.parser.unlatched (by simp [hph])⟩

/-- No sync byte is pending: `NEXT` discards every byte (43_parser.md R117). -/
theorem exec_next_of_noise {s : State} (hi : Inv s) (hnoise : ∀ b ∈ pending s, b ≠ s.cfg.sync) :
    exec .next s = .next (respond (.noFrame (BitVec.ofNat 16 s.count)) (afterNoise s.count 0 .seek 0 s)) := by
  obtain ⟨hph, hdlen⟩ := seek_of_noise hi hnoise
  have hloop := nextLoop_seek 3 (clearSkipped s) (pending s) [] hph hi.parser.head_lt (List.append_nil _).symm hnoise
  have hempty : seekTurn (afterNoise s.count 0 .seek 0 s) =
      .done (.next (respond (.noFrame (BitVec.ofNat 16 s.count)) (afterNoise s.count 0 .seek 0 s))) := if_pos (Nat.sub_self _)
  rw [length_pending, dropNoise_clearSkipped_of_seek _ s hph hdlen,
    nextLoop_of_done 2 _ _ ((nextTurn_of_seek _ rfl).trans hempty), Nat.add_comm] at hloop
  exact hloop

/-- Settles O40. -/
theorem nextDiscardsNoise : Obligations.NextDiscardsNoise := by
  intro s hi hnoise
  obtain ⟨hph, hdlen⟩ := seek_of_noise hi hnoise
  rw [exec_next_of_noise hi hnoise]
  simp [respond, afterNoise, dropBytes, ringIndex, hph, hdlen]

/-- Only a sync byte is pending behind the noise: `NEXT` keeps it (43_parser.md R118). -/
theorem exec_next_of_lone_sync {s : State} (hi : Inv s) (noise : List Byte) (hp : pending s = noise ++ [s.cfg.sync])
    (hnoise : ∀ b ∈ noise, b ≠ s.cfg.sync) :
    exec .next s = .next (respond (.noFrame (BitVec.ofNat 16 noise.length)) (afterNoise noise.length 0 .waitLen 0 s)) := by
  have hone : s.count - noise.length = 1 := by rw [← length_pending, hp]; simp
  rw [nextWaitsForLength s noise hi hp hnoise, ← hone]
  rfl

/-- The pending bytes are noise, noise and a lone sync byte, or noise and a candidate. -/
theorem pending_cases (s : State) : (∀ b ∈ pending s, b ≠ s.cfg.sync) ∨
    ∃ noise, (∀ b ∈ noise, b ≠ s.cfg.sync) ∧
      (pending s = noise ++ [s.cfg.sync] ∨ ∃ len tail, pending s = noise ++ s.cfg.sync :: len :: tail) := by
  by_cases hmem : s.cfg.sync ∈ pending s
  · obtain ⟨noise, rest, hp, hnone⟩ := List.eq_append_cons_of_mem hmem
    refine .inr ⟨noise, fun b hb => ne_of_mem_of_not_mem hb hnone, ?_⟩
    cases rest with
    | nil => exact .inl hp
    | cons len tail => exact .inr ⟨len, tail, hp⟩
  · exact .inl fun b hb => ne_of_mem_of_not_mem hb hmem

/-- What a `NEXT` can do, by the bytes that are pending (43_parser.md R117 to R122). -/
inductive NextOutcome (s : State) : State → Prop
  | noise (hnoise : ∀ b ∈ pending s, b ≠ s.cfg.sync) :
      NextOutcome s (respond (.noFrame (BitVec.ofNat 16 s.count)) (afterNoise s.count 0 .seek 0 s))
  | loneSync (noise : List Byte) (hp : pending s = noise ++ [s.cfg.sync]) :
      NextOutcome s (respond (.noFrame (BitVec.ofNat 16 noise.length)) (afterNoise noise.length 0 .waitLen 0 s))
  | illegal (noise tail : List Byte) (len : Byte) (hc : HasCandidate s noise len tail) (hl : ¬ LegalLength s.cfg len) :
      NextOutcome s (raiseError (.invalidLength (BitVec.ofNat 16 noise.length) len) (afterNoise noise.length 1 .seek 0 s))
  | incomplete (noise tail : List Byte) (len : Byte) (hc : HasCandidate s noise len tail) (hl : LegalLength s.cfg len)
      (hlen : tail.length < len.toNat) :
      NextOutcome s (respond (.noFrame (BitVec.ofNat 16 noise.length)) (afterNoise noise.length 0 .waitPayload len s))
  | mismatch (noise tail : List Byte) (len : Byte) (hc : HasCandidate s noise len tail) (hl : LegalLength s.cfg len)
      (hlen : len.toNat ≤ tail.length) (hdiff : ¬ ChecksumMatches s.cfg len tail) :
      NextOutcome s (raiseError (.checksumMismatch (BitVec.ofNat 16 noise.length) (crc8 s.cfg (tail.take (len.toNat - 1)))
        (tail.getD (len.toNat - 1) 0)) (afterNoise noise.length 1 .seek 0 s))
  | frame (noise tail : List Byte) (len : Byte) (hc : HasCandidate s noise len tail) (hl : LegalLength s.cfg len)
      (hm : ChecksumMatches s.cfg len tail) :
      NextOutcome s (dispatchFrame (candidateFrame s.cfg len tail) (tail.getD 0 0) len.toNat (frameConsumed s noise tail len))

/-- Every `NEXT` has one of the outcomes. -/
theorem exec_next_outcome {s : State} (hi : Inv s) : ∃ t, exec .next s = .next t ∧ NextOutcome s t := by
  rcases pending_cases s with hnoise | ⟨noise, hnoise, hp | ⟨len, tail, hp⟩⟩
  · exact ⟨_, exec_next_of_noise hi hnoise, .noise hnoise⟩
  · exact ⟨_, exec_next_of_lone_sync hi noise hp hnoise, .loneSync noise hp⟩
  have hc : HasCandidate s noise len tail := ⟨hp, hnoise⟩
  by_cases hl : LegalLength s.cfg len
  · by_cases hlen : tail.length < len.toNat
    · exact ⟨_, exec_next_of_incomplete hi hc hl hlen, .incomplete noise tail len hc hl hlen⟩
    by_cases hm : ChecksumMatches s.cfg len tail
    · exact ⟨_, exec_next_of_match hi hc hl hm, .frame noise tail len hc hl hm⟩
    · exact ⟨_, exec_next_of_mismatch hi hc hl (by omega) hm, .mismatch noise tail len hc hl (by omega) hm⟩
  · exact ⟨_, exec_next_of_illegal hi hc hl, .illegal noise tail len hc hl⟩

theorem nextOutcome_of_exec {s t : State} (hi : Inv s) (h : exec .next s = .next t) : NextOutcome s t := by
  obtain ⟨u, hu, houtcome⟩ := exec_next_outcome hi
  obtain rfl : t = u := Host.Outcome.next.inj (h.symm.trans hu)
  exact houtcome

/-! The invariants. -/

/-- The state behind the noise meets the invariants where what the synchronizer claims to have examined is pending there. -/
theorem Inv.afterNoise {s : State} (hi : Inv s) (noise taken : Nat) (p : Phase) (len : Byte) (hnoise : noise ≤ s.count)
    (hsync : p ≠ .seek → ∃ rest, (pending s).drop (noise + taken) = s.cfg.sync :: rest)
    (hlen : p = .waitPayload → ∃ b rest, (pending s).drop (noise + taken) = b :: len :: rest ∧ LegalLength s.cfg len)
    (hdlen : p ≠ .waitPayload → len = 0) : Inv (afterNoise noise taken p len s) := by
  have hring := s.cfg.ringN_le
  have hcount := hi.parser.count_le
  have hp := pending_afterNoise noise taken p len s
  refine ⟨hi.memory.of_same rfl ⟨rfl, rfl⟩ rfl,
    ⟨(Nat.sub_le _ _).trans hcount, ringIndex_lt s _, fun hph => ?candidate, fun hph => ?latched, hdlen, ?skipped⟩,
    hi.frame.of_same rfl ⟨rfl, rfl⟩⟩
  case candidate =>
    obtain ⟨rest, hrest⟩ := hsync hph
    rw [hrest] at hp
    exact ⟨by rw [← length_pending, hp]; simp, ringByte_zero_of_pending_cons _ _ _ hp⟩
  case latched =>
    obtain ⟨b, rest, hrest, hmin, hmax⟩ := hlen hph
    rw [hrest] at hp
    obtain ⟨htwo, hbyte⟩ := ringByte_one_of_pending_cons _ _ _ _ hp
    exact ⟨htwo, hbyte, hmin, hmax⟩
  case skipped =>
    show (BitVec.ofNat 16 noise).toNat ≤ s.cfg.ringN
    rw [BitVec.toNat_ofNat]
    omega

theorem Inv.afterNoise_seek {s : State} (hi : Inv s) (noise taken : Nat) (hnoise : noise ≤ s.count) :
    Inv (Machine.afterNoise noise taken .seek 0 s) :=
  hi.afterNoise noise taken .seek 0 hnoise nofun nofun fun _ => rfl

theorem HasCandidate.count_eq {s : State} {noise tail : List Byte} {len : Byte} (hc : HasCandidate s noise len tail) :
    s.count = noise.length + (tail.length + 2) := by
  rw [← length_pending, hc.1]
  simp

/-- The dispatch writes no element that the invariants look at. -/
theorem Inv.dispatchFrame {s : State} (hi : Inv s) (f : List Byte) (ty : Byte) (n : Nat) : Inv (dispatchFrame f ty n s) := by
  rw [dispatchFrame_frame]
  exact hi.of_same rfl (by simp [sameElement])

theorem NextOutcome.inv {s t : State} (hi : Inv s) (h : NextOutcome s t) : Inv t := by
  cases h with
  | noise hnoise => exact (hi.afterNoise_seek s.count 0 le_rfl).respond _
  | loneSync noise hp =>
    have hcount : s.count = noise.length + 1 := by rw [← length_pending, hp]; simp
    refine (hi.afterNoise noise.length 0 .waitLen 0 (by omega) (fun _ => ⟨[], ?_⟩) nofun fun _ => rfl).respond _
    rw [hp, Nat.add_zero, List.drop_left]
  | illegal noise tail len hc hl =>
    have hcount := hc.count_eq
    exact (hi.afterNoise_seek _ 1 (by omega)).raiseError _
  | incomplete noise tail len hc hl hlen =>
    have hcount := hc.count_eq
    have hp : (pending s).drop (noise.length + 0) = s.cfg.sync :: len :: tail := by rw [hc.1, Nat.add_zero, List.drop_left]
    exact (hi.afterNoise noise.length 0 .waitPayload len (by omega) (fun _ => ⟨_, hp⟩) (fun _ => ⟨_, _, hp, hl⟩) nofun).respond _
  | mismatch noise tail len hc hl hlen hdiff =>
    have hcount := hc.count_eq
    exact (hi.afterNoise_seek _ 1 (by omega)).raiseError _
  | frame noise tail len hc hl hm =>
    have hcount := hc.count_eq
    have hvalid := frameValid_candidateFrame s.cfg len tail hl hm
    exact ((hi.afterNoise_seek _ (len.toNat + 2) (by omega)).writeFrame _ hvalid).dispatchFrame _ _ _

/-- Every command keeps the invariants. -/
theorem exec_keeps_inv (i : Instr) (s t : State) (hi : Inv s) (h : exec i s = .next t) : Inv t := by
  by_cases hnext : i = .next
  · subst hnext
    exact (nextOutcome_of_exec hi h).inv hi
  · exact exec_keeps_inv_of_ne_next i s t hi hnext h

/-- Settles O58: a step stays where it is, answers a reserved opcode, or runs a command, which keeps the invariants. -/
theorem stepKeepsInvariants : Obligations.StepKeepsInvariants := by
  intro s t hi h
  cases hfetch : fetch s with
  | idle => rw [step_of_idle s hfetch] at h; cases h; exact hi
  | needMoreBytes => rw [step_of_needMoreBytes s hfetch] at h; cases h
  | reserved op rest => rw [step_of_reserved s op rest hfetch] at h; cases h; exact (hi.withCmds rest).raiseError _
  | command i rest => rw [step_of_command s i rest hfetch] at h; exact exec_keeps_inv i _ t (hi.withCmds rest) h

/-! Every command is answered. -/

theorem NextOutcome.answered {s t : State} (h : NextOutcome s t) : t.resp.isSome = true := by
  cases h with
  | frame noise tail len hc hl hm =>
    obtain ⟨r, hr, _⟩ := dispatchFrame_code (candidateFrame s.cfg len tail) (tail.getD 0 0) len.toNat (frameConsumed s noise tail len)
    rw [hr]
    rfl
  | _ => rfl

theorem build_answered (sync ty : Byte) (addr d : List Byte) (s : State) : (build sync ty addr d s).resp.isSome = true := by
  rcases build_cases sync ty addr d s with ⟨_, e⟩ | ⟨_, e⟩ <;> rw [e] <;> rfl

theorem exec_answered (i : Instr) (s : State) (hi : Inv s) : Answered (exec i s) := by
  cases i with
  | nop | reset | statusRead | clrFlags | crcReset | crcUpdate | crcRead => exact ⟨_, rfl, rfl⟩
  | chWrite idx v => simp only [exec, execChWrite]; split <;> exact ⟨_, rfl, rfl⟩
  | chRead idx => simp only [exec, execChRead]; split <;> exact ⟨_, rfl, rfl⟩
  | pack wlen => simp only [exec, execPack]; split <;> exact ⟨_, rfl, rfl⟩
  | unpack d => simp only [exec, execUnpack]; split <;> exact ⟨_, rfl, rfl⟩
  | fbRead off => simp only [exec, execFbRead]; split <;> exact ⟨_, rfl, rfl⟩
  | buildSimple | buildExt | buildCh => exact ⟨_, rfl, build_answered _ _ _ _ _⟩
  | push d => rcases execPush_cases d s with ⟨_, e⟩ | ⟨k, _, e⟩ <;> exact ⟨_, e, rfl⟩
  | next =>
    obtain ⟨t, ht, houtcome⟩ := exec_next_outcome hi
    exact ⟨t, ht, houtcome.answered⟩

/-- Settles O59: a step that runs a command is answered, and the other steps are no faults. -/
theorem everyCommandIsAnswered : Obligations.EveryCommandIsAnswered := by
  refine ⟨exec_answered, fun s r hi h => ?_⟩
  cases hfetch : fetch s with
  | idle => rw [step_of_idle s hfetch] at h; cases h
  | needMoreBytes => rw [step_of_needMoreBytes s hfetch] at h; cases h
  | reserved op rest => rw [step_of_reserved s op rest hfetch] at h; cases h
  | command i rest =>
    obtain ⟨t, ht, _⟩ := exec_answered i _ (hi.withCmds rest)
    rw [step_of_command s i rest hfetch, ht] at h
    cases h

/-! Which bytes a `NEXT` takes. -/

/-- A response with another code answers no frame, so nothing is asked of `FB` there. -/
theorem answersNoFrame_of_code {t : State} {r : Response} {P : Prop} (ht : t.resp = some r)
    (hr : r.code ∉ [.frameChannels, .frameRaw, .unknownPacketType, .bufferTooSmall]) (r' : Response) (hr' : t.resp = some r')
    (hcode : r'.code ∈ [.frameChannels, .frameRaw, .unknownPacketType, .bufferTooSmall]) : P := by
  obtain rfl : r = r' := Option.some.inj (ht.symm.trans hr')
  exact absurd hcode hr

/-- A `NEXT` moves `HEAD` over the oldest `k` pending bytes, and a frame it yields is the last part of them. -/
theorem NextOutcome.taken {s t : State} (h : NextOutcome s t) : ∃ k, k ≤ s.count ∧
    (t.cfg = s.cfg ∧ t.rb = s.rb ∧ t.head = ringIndex s k ∧ t.count = s.count - k) ∧
    (∀ r, t.resp = some r → r.code ∈ [.frameChannels, .frameRaw, .unknownPacketType, .bufferTooSmall] →
      ∃ j, j < k ∧ currentFrame t = ((pending s).drop j).take (k - j)) := by
  cases h with
  | noise hnoise =>
    exact ⟨s.count, le_rfl, ⟨rfl, rfl, rfl, rfl⟩, answersNoFrame_of_code rfl (by simp [Response.code])⟩
  | loneSync noise hp =>
    have hcount : s.count = noise.length + 1 := by rw [← length_pending, hp]; simp
    exact ⟨noise.length, by omega, ⟨rfl, rfl, rfl, rfl⟩, answersNoFrame_of_code rfl (by simp [Response.code])⟩
  | illegal noise tail len hc hl =>
    have hcount := hc.count_eq
    exact ⟨noise.length + 1, by omega, ⟨rfl, rfl, rfl, rfl⟩, answersNoFrame_of_code rfl (by simp [Response.code])⟩
  | incomplete noise tail len hc hl hlen =>
    have hcount := hc.count_eq
    exact ⟨noise.length, by omega, ⟨rfl, rfl, rfl, rfl⟩, answersNoFrame_of_code rfl (by simp [Response.code])⟩
  | mismatch noise tail len hc hl hlen hdiff =>
    have hcount := hc.count_eq
    exact ⟨noise.length + 1, by omega, ⟨rfl, rfl, rfl, rfl⟩, answersNoFrame_of_code rfl (by simp [Response.code])⟩
  | frame noise tail len hc hl hm =>
    have hcount := hc.count_eq
    have hlen := hm.1
    refine ⟨noise.length + (len.toNat + 2), by omega, ?_, fun _ _ _ => ⟨noise.length, by omega, ?_⟩⟩
    · rw [dispatchFrame_frame]
      exact ⟨rfl, rfl, rfl, rfl⟩
    · rw [currentFrame_dispatchFrame, currentFrame_frameConsumed s noise tail len hl hlen, hc.1, List.drop_left,
        Nat.add_sub_cancel_left]
      rfl

/-- Settles O52. -/
theorem nextTakesOldestBytesInOrder : Obligations.NextTakesOldestBytesInOrder := by
  intro s t hi h
  obtain ⟨k, hk, ⟨hcfg, hrb, hhead, hcount⟩, hframe⟩ := (nextOutcome_of_exec hi h).taken
  exact ⟨k, hk, (pending_congr (dropBytes k s) t hcfg hrb hhead hcount).trans (pending_dropBytes k s), hframe⟩

/-- After `NONE` nothing, a sync byte or an incomplete candidate is pending (70_reset_and_hazards.md section 2). -/
theorem NextOutcome.count_of_noFrame {s t : State} (h : NextOutcome s t) (k : Half) (hr : t.resp = some (.noFrame k)) :
    t.count + 1 ≤ s.cfg.maxFrame := by
  have hmin := s.cfg.maxFrame_ge
  cases h with
  | noise hnoise =>
    have hempty : (afterNoise s.count 0 .seek 0 s).count = 0 := Nat.sub_self _
    rw [respond_count, hempty]
    omega
  | loneSync noise hp =>
    have hone : (afterNoise noise.length 0 .waitLen 0 s).count = 1 := by
      rw [← length_pending, pending_afterNoise_append s noise _ 0 .waitLen 0 hp]
      rfl
    rw [respond_count, hone]
    omega
  | incomplete noise tail len hc hl hlen =>
    obtain ⟨_, hmax⟩ := hl.bounds
    rw [respond_count, hc.count_afterNoise]
    omega
  | illegal noise tail len hc hl => cases hr
  | mismatch noise tail len hc hl hlen hdiff => cases hr
  | frame noise tail len hc hl hm =>
    obtain ⟨r, hr', hcode⟩ := dispatchFrame_code (candidateFrame s.cfg len tail) (tail.getD 0 0) len.toNat
      (frameConsumed s noise tail len)
    obtain rfl : r = .noFrame k := Option.some.inj (hr'.symm.trans hr)
    simp [Response.code] at hcode

/-- Settles O53: what is pending after `NONE` leaves room for the chunk. -/
theorem drainedRingHasRoom : Obligations.DrainedRingHasRoom := by
  intro s t k hi h hr
  obtain ⟨hcfg, _⟩ := parametersNeverChange _ s t h
  have hcount := (nextOutcome_of_exec hi h).count_of_noFrame k hr
  have hfits := t.cfg.maxFrame_le_ringN
  rw [← hcfg] at hcount
  exact ⟨by omega, fun d hd => ⟨_, exec_push_of_le d t (by omega), rfl⟩⟩

end Sys2Proof.Machine
end

section
/-! PROOFS. The cells of `RB` outside the pending window (spec/10_state.md R24, section 2): a command that runs over another ring memory
with the same pending bytes does the same. -/

namespace Sys2Proof.Machine

/-- The state over another ring memory. -/
def setRing (r : Memory) (s : State) : State := { s with rb := r }

/-- The outcome over another ring memory. -/
def mapNext (f : State → State) : Result → Result
  | .next t => .next (f t)
  | .fault e => .fault e
  | .refused e => .refused e

/-- The turn of `NEXT` over another ring memory. -/
def Turn.map (f : State → State) : Turn → Turn
  | .done r => .done (mapNext f r)
  | .again t => .again (f t)

/-- The two ring memories hold the same pending bytes. -/
def SameWindow (r : Memory) (s : State) : Prop := pending (setRing r s) = pending s

theorem SameWindow.ringByte {r : Memory} {s : State} (h : SameWindow r s) (j : Nat) (hj : j < s.count) :
    ringByte (setRing r s) j = ringByte s j := by
  rw [ringByte_eq_getD_pending (setRing r s) j hj, ringByte_eq_getD_pending s j hj, h]

theorem SameWindow.ringRead {r : Memory} {s : State} (h : SameWindow r s) (k n : Nat) (hk : k + n ≤ s.count) :
    ringRead (setRing r s) k n = ringRead s k n := by
  rw [ringRead_eq_pending (setRing r s) k n hk, ringRead_eq_pending s k n hk, h]

theorem SameWindow.dropBytes {r : Memory} {s : State} (h : SameWindow r s) (k : Nat) : SameWindow r (dropBytes k s) := by
  rw [SameWindow, pending_dropBytes, ← h, ← pending_dropBytes]
  rfl

/-! `NEXT` reads pending bytes only. -/

/-- The dispatch looks at the parameters, `CH` and `SKIPPED` alone. -/
theorem dispatchFrame_of_same (f : List Byte) (ty : Byte) (n : Nat) (s t : State) (hcfg : t.cfg = s.cfg) (hch : t.ch = s.ch)
    (hskipped : t.skipped = s.skipped) :
    dispatchFrame f ty n t = { t with ch := (dispatchFrame f ty n s).ch, resp := (dispatchFrame f ty n s).resp } := by
  rcases dispatchFrame_cases f ty n s with ⟨hrow, e⟩ | ⟨row, hrow, ⟨hlen, e⟩ | ⟨hlen, hty, e⟩ | ⟨hlen, hty, e⟩⟩ <;>
    rw [← hcfg] at hrow <;> rw [e]
  · rw [dispatchFrame_of_unknown f ty n t hrow, ← hskipped, raiseError_ch, ← hch]; rfl
  · rw [dispatchFrame_of_short f ty n t row hrow hlen, ← hskipped, raiseError_ch, ← hch]; rfl
  · rw [dispatchFrame_of_channels f ty n t row hrow hlen (by rw [hcfg]; exact hty), ← hskipped]; rfl
  · rw [dispatchFrame_of_raw f ty n t row hrow hlen (by rw [hcfg]; exact hty), ← hskipped, respond_ch, ← hch]; rfl

theorem dispatchFrame_setRing (f : List Byte) (ty : Byte) (n : Nat) (r : Memory) (s : State) :
    dispatchFrame f ty n (setRing r s) = setRing r (dispatchFrame f ty n s) := by
  rw [dispatchFrame_of_same f ty n s (setRing r s) rfl rfl rfl, dispatchFrame_frame f ty n s]
  rfl

theorem acceptFrame_of_not_fits (f : List Byte) (len : Nat) (s : State) (h : ¬ (2 < f.length ∧ f.length ≤ s.cfg.maxFrame)) :
    acceptFrame f len s = .fault .candidateOutOfBounds := by
  rcases acceptFrame_cases f len s with e | ⟨hmin, hmax, _⟩
  · exact e
  · exact absurd ⟨hmin, hmax⟩ h

theorem acceptFrame_setRing (f : List Byte) (len : Nat) (r : Memory) (s : State) :
    acceptFrame f len (setRing r s) = mapNext (setRing r) (acceptFrame f len s) := by
  by_cases h : 2 < f.length ∧ f.length ≤ s.cfg.maxFrame
  · rw [acceptFrame_of_fits f len s h.1 h.2, acceptFrame_of_fits f len (setRing r s) h.1 h.2]
    exact congrArg _ (dispatchFrame_setRing f (f.getD 2 0) len r (resync (dropBytes (len + 2) (writeFrame f s))))
  · rw [acceptFrame_of_not_fits f len s h, acceptFrame_of_not_fits f len (setRing r s) h]
    rfl

section turns
variable {r : Memory} {s : State} (h : SameWindow r s)
include h

theorem seekTurn_setRing : seekTurn (setRing r s) = (seekTurn s).map (setRing r) := by
  rcases seekTurn_cases s with ⟨hc, e⟩ | ⟨hc, hs, e⟩ | ⟨hc, hs, e⟩ <;> rw [e]
  · exact if_pos hc
  · exact seekTurn_of_sync (setRing r s) hc ((h.ringByte 0 hc).trans hs)
  · exact seekTurn_of_noise (setRing r s) hc (by rw [h.ringByte 0 hc]; exact hs)

theorem lengthTurn_setRing : lengthTurn (setRing r s) = (lengthTurn s).map (setRing r) := by
  rcases lengthTurn_cases s with ⟨hc, e⟩ | ⟨hc, hl, e⟩ | ⟨hc, hl, e⟩ <;> rw [e]
  · exact lengthTurn_of_lt (setRing r s) hc
  · rw [← h.ringByte 1 hc] at hl ⊢
    exact lengthTurn_of_illegal (setRing r s) hc hl
  · rw [← h.ringByte 1 hc] at hl ⊢
    exact lengthTurn_of_legal (setRing r s) hc hl

/-- The two checksums of a complete candidate are those of pending bytes. -/
theorem SameWindow.checksums (hc : 2 + s.dlen.toNat ≤ s.count) :
    candidateCrc (setRing r s) = candidateCrc s ∧ candidateTrailer (setRing r s) = candidateTrailer s :=
  ⟨congrArg (crc8 s.cfg) (h.ringRead 2 (s.dlen.toNat - 1) (by omega)), h.ringByte (s.dlen.toNat + 1) (by omega)⟩

theorem payloadTurn_setRing : payloadTurn (setRing r s) = (payloadTurn s).map (setRing r) := by
  rcases payloadTurn_cases s with ⟨hc, e⟩ | ⟨hc, hd, e⟩ | ⟨hc, hm, e⟩ <;> rw [e]
  · exact payloadTurn_of_incomplete (setRing r s) hc
  · obtain ⟨hcrc, htrailer⟩ := h.checksums hc
    rw [← hcrc, ← htrailer] at hd ⊢
    exact payloadTurn_of_mismatch (setRing r s) hc hd
  · obtain ⟨hcrc, htrailer⟩ := h.checksums hc
    rw [← hcrc, ← htrailer] at hm
    rw [payloadTurn_of_match (setRing r s) hc hm, Turn.map, ← acceptFrame_setRing, ← h.ringRead 0 _ (by omega)]
    rfl

theorem nextTurn_setRing : nextTurn (setRing r s) = (nextTurn s).map (setRing r) := by
  cases hp : s.phase with
  | seek => rw [nextTurn_of_seek s hp, nextTurn_of_seek (setRing r s) hp, seekTurn_setRing h]
  | waitLen => rw [nextTurn_of_waitLen s hp, nextTurn_of_waitLen (setRing r s) hp, lengthTurn_setRing h]
  | waitPayload => rw [nextTurn_of_waitPayload s hp, nextTurn_of_waitPayload (setRing r s) hp, payloadTurn_setRing h]

/-- A turn that goes on drops a byte of the window or leaves the ring alone. -/
theorem SameWindow.again {u : State} (hu : nextTurn s = .again u) : SameWindow r u := by
  rcases nextTurn_again s u hu with ⟨_, _, _, rfl⟩ | ⟨_, _, e⟩
  · exact h.dropBytes 1
  · rw [e]
    exact h

end turns

theorem nextLoop_setRing (n : Nat) {r : Memory} {s : State} (h : SameWindow r s) :
    nextLoop n (setRing r s) = mapNext (setRing r) (nextLoop n s) := by
  induction n generalizing s with
  | zero => rfl
  | succ n ih =>
    have hturn := nextTurn_setRing h
    cases hs : nextTurn s with
    | done res => rw [nextLoop_of_done n s res hs, nextLoop_of_done n _ _ (hturn.trans (by rw [hs]; rfl))]
    | again u => rw [nextLoop_of_again n s u hs, nextLoop_of_again n _ _ (hturn.trans (by rw [hs]; rfl)), ih (h.again hs)]

/-- In every state a `NEXT` leaves an end part of the pending bytes. -/
theorem pending_nextLoop_suffix (n : Nat) (s t : State) (h : nextLoop n s = .next t) : pending t <:+ pending s := by
  induction n generalizing s with
  | zero => cases h
  | succ n ih =>
    cases hs : nextTurn s with
    | done res =>
      rw [nextLoop_of_done n s res hs] at h
      subst h
      obtain ⟨_, hends⟩ := nextTurn_done s t hs
      obtain ⟨k, hk⟩ := hends.pending
      rw [hk]
      exact List.drop_suffix k _
    | again u =>
      rw [nextLoop_of_again n s u hs] at h
      refine (ih u h).trans ?_
      rcases nextTurn_again s u hs with ⟨_, _, _, rfl⟩ | ⟨_, _, e⟩
      · exact (pending_dropBytes 1 s).symm ▸ List.drop_suffix 1 _
      · rw [e]
        exact List.suffix_rfl

/-- What is pending after the two `NEXT`s are two equally long end parts of the same bytes. -/
theorem exec_next_setRing {r : Memory} {s t : State} (hw : SameWindow r s) (h : exec .next s = .next t) :
    exec .next (setRing r s) = .next (setRing r t) ∧ SameWindow r t := by
  have hring : exec .next (setRing r s) = .next (setRing r t) := by
    have hloop := nextLoop_setRing (s.count + 3) (s := clearSkipped s) hw
    rw [show nextLoop (s.count + 3) (clearSkipped s) = .next t from h] at hloop
    exact hloop
  refine ⟨hring, ?_⟩
  have hsuffix : pending t <:+ pending s := pending_nextLoop_suffix _ (clearSkipped s) t h
  have hsuffix' : pending (setRing r t) <:+ pending s := hw ▸ pending_nextLoop_suffix _ (clearSkipped (setRing r s)) _ hring
  have hlen : (pending (setRing r t)).length = (pending t).length := by rw [length_pending, length_pending]; rfl
  exact (List.suffix_of_suffix_length_le hsuffix' hsuffix hlen.le).eq_of_length hlen

/-! `PUSH` writes at the write cursor, whatever the ring holds. -/

theorem pushByte_of_ne (b : Byte) (s : State) (n : Nat) (h : s.count ≠ s.cfg.ringN) : pushByte b s n = (appendByte b s, n) := if_neg h

theorem execPush_of_kept (d : List Byte) (s : State) (h : (pushBytes d s 0).2 = 0) :
    execPush d s = .next (respond .ok (pushBytes d s 0).1) := by
  rcases execPush_cases d s with ⟨_, e⟩ | ⟨k, hk, _⟩
  · exact e
  · omega

theorem execPush_of_dropped (d : List Byte) (s : State) (k : Nat) (h : (pushBytes d s 0).2 = k + 1) :
    execPush d s = .next (raiseError (.bufferOverflow (BitVec.ofNat 16 (k + 1))) (setOvf (pushBytes d s 0).1)) := by
  rcases execPush_cases d s with ⟨hzero, _⟩ | ⟨j, hj, e⟩
  · omega
  · rw [← h, hj, e]

theorem pushByte_setRing (b : Byte) (r : Memory) (s : State) (n : Nat) :
    pushByte b (setRing r s) n = (setRing (pushByte b (setRing r s) n).1.rb (pushByte b s n).1, (pushByte b s n).2) := by
  by_cases hfull : s.count = s.cfg.ringN
  · rw [pushByte_of_full b s n hfull, pushByte_of_full b (setRing r s) n hfull]
    rfl
  · rw [pushByte_of_ne b s n hfull, pushByte_of_ne b (setRing r s) n hfull]
    rfl

theorem pushBytes_setRing (d : List Byte) (r : Memory) (s : State) (n : Nat) (hr : Memory.wf r = true) :
    ∃ r', Memory.wf r' = true ∧ pushBytes d (setRing r s) n = (setRing r' (pushBytes d s n).1, (pushBytes d s n).2) := by
  induction d generalizing r s n with
  | nil => exact ⟨r, hr, rfl⟩
  | cons b d ih =>
    obtain ⟨r', hr', e⟩ := ih _ (pushByte b s n).1 (pushByte b s n).2 (wf_pushByte b (setRing r s) n hr)
    refine ⟨r', hr', ?_⟩
    rw [pushBytes, pushByte_setRing]
    exact e

theorem exec_push_setRing (d : List Byte) {r : Memory} {s t : State} (hi : Inv s) (hr : Memory.wf r = true) (hw : SameWindow r s)
    (h : exec (.push d) s = .next t) :
    ∃ r', exec (.push d) (setRing r s) = .next (setRing r' t) ∧ Memory.wf r' = true ∧ SameWindow r' t := by
  obtain ⟨r', hr', e⟩ := pushBytes_setRing d r s 0 hr
  have hwindow : SameWindow r' (pushBytes d s 0).1 := by
    have hpending := pending_pushBytes d (setRing r s) 0 hr hi.parser.count_le
    rw [e, hw] at hpending
    exact hpending.trans (pending_pushBytes d s 0 hi.memory.rb_wf hi.parser.count_le).symm
  rcases execPush_cases d s with ⟨hkept, e'⟩ | ⟨k, hdropped, e'⟩
  · obtain rfl := Host.Outcome.next.inj (e'.symm.trans h)
    refine ⟨r', (execPush_of_kept d (setRing r s) (by rw [e]; exact hkept)).trans ?_, hr', hwindow⟩
    rw [e]
    rfl
  · obtain rfl := Host.Outcome.next.inj (e'.symm.trans h)
    refine ⟨r', (execPush_of_dropped d (setRing r s) k (by rw [e]; exact hdropped)).trans ?_, hr', hwindow⟩
    rw [e]
    rfl

/-! The other commands do not look at the ring memory. -/

theorem build_setRing (sync ty : Byte) (addr d : List Byte) (r : Memory) (s : State) :
    build sync ty addr d (setRing r s) = setRing r (build sync ty addr d s) := by
  rcases Nat.lt_or_ge s.cfg.maxLen (frameLength addr d) with hlong | hfits
  · rw [build_of_lt _ _ _ _ s hlong, build_of_lt _ _ _ _ (setRing r s) hlong]
    rfl
  · rw [build_of_le _ _ _ _ s hfits, build_of_le _ _ _ _ (setRing r s) hfits]
    rfl

theorem exec_setRing (i : Instr) (r : Memory) (s : State) (hpush : ∀ d, i ≠ .push d) (hnext : i ≠ .next) :
    exec i (setRing r s) = mapNext (setRing r) (exec i s) := by
  cases i with
  | push d => exact absurd rfl (hpush d)
  | next => exact absurd rfl hnext
  | nop | reset | statusRead | clrFlags | crcReset | crcUpdate | crcRead => rfl
  | buildSimple | buildExt | buildCh => exact congrArg _ (build_setRing _ _ _ _ r s)
  | chWrite idx v => simp only [exec, execChWrite]; cases chanIndex idx <;> rfl
  | chRead idx => simp only [exec, execChRead]; cases chanIndex idx <;> rfl
  | pack wlen => simp only [exec, execPack]; cases windowTooShort wlen.toNat <;> rfl
  | unpack d => simp only [exec, execUnpack]; cases windowTooShort d.length <;> rfl
  | fbRead off =>
    rcases Nat.lt_or_ge off.toNat s.cfg.maxFrame with hin | hout
    · rw [exec_fbRead_of_lt off s hin, exec_fbRead_of_lt off (setRing r s) hin]; rfl
    · rw [exec_fbRead_of_ge off s hout, exec_fbRead_of_ge off (setRing r s) hout]; rfl

/-- The window stays where the cursors stay, and an empty one holds nothing in either ring memory. -/
theorem sameWindow_of_exec (i : Instr) {r : Memory} {s t : State} (hw : SameWindow r s) (hpush : ∀ d, i ≠ .push d) (hnext : i ≠ .next)
    (h : exec i s = .next t) : SameWindow r t := by
  by_cases hreset : i = .reset
  · subst hreset
    obtain rfl := Host.Outcome.next.inj h
    rfl
  · have hkeeps : mayWrite i .cursors = false ∧ mayWrite i .ring = false := by
      cases i with
      | push d => exact absurd rfl (hpush d)
      | next => exact absurd rfl hnext
      | reset => exact absurd rfl hreset
      | _ => exact ⟨rfl, rfl⟩
    obtain ⟨hcursors, hring⟩ := hkeeps
    obtain ⟨hcfg, _⟩ := parametersNeverChange i s t h
    obtain ⟨hhead, hcount⟩ := accessMatrixWrites i s t .cursors h hcursors
    have hrb : t.rb = s.rb := accessMatrixWrites i s t .ring h hring
    rw [SameWindow, pending_congr s t hcfg hrb hhead hcount, ← hw]
    exact pending_congr (setRing r s) (setRing r t) hcfg rfl hhead hcount

/-- Settles O60: `NEXT` reads pending bytes only, `PUSH` writes at the write cursor, no other command looks at the ring memory. -/
theorem ringCellsOutsideWindowAreUnobservable : Obligations.RingCellsOutsideWindowAreUnobservable := by
  intro i s r hi hr hw
  obtain ⟨t, ht, _⟩ := exec_answered i s hi
  by_cases hnext : i = .next
  · subst hnext
    obtain ⟨hexec, hwindow⟩ := exec_next_setRing hw ht
    exact ⟨t, r, ht, hexec, hr, hwindow⟩
  by_cases hpush : ∃ d, i = .push d
  · obtain ⟨d, rfl⟩ := hpush
    obtain ⟨r', hexec, hr', hwindow⟩ := exec_push_setRing d hi hr hw ht
    exact ⟨t, r', ht, hexec, hr', hwindow⟩
  · have hnotPush (d : List Byte) : i ≠ .push d := fun e => hpush ⟨d, e⟩
    refine ⟨t, r, ht, (exec_setRing i r s hnotPush hnext).trans (by rw [ht]; rfl), hr, sameWindow_of_exec i hw hnotPush hnext ht⟩

end Sys2Proof.Machine
end

section
/-! PROOFS. The loop of `NEXT` in every state: how many turns it takes (spec/43_parser.md R130), how its last turn ends, and what that
says of the elements it writes, of a second `NEXT`, and of the codes that each command answers with (spec/30_encoding.md R74). -/

namespace Sys2Proof.Machine

/-! The number of turns. -/

/-- How many turns `NEXT` may still take: one for each pending byte and two more in `SEEK`, then one for each position left. -/
def turnsLeft (s : State) : Nat :=
  match s.phase with
  | .seek => s.count + 2
  | .waitLen => 2
  | .waitPayload => 1

theorem turnsLeft_pos (s : State) : 0 < turnsLeft s := by
  unfold turnsLeft
  cases s.phase <;> simp

theorem turnsLeft_le (s : State) : turnsLeft s ≤ s.count + 3 := by
  unfold turnsLeft
  cases s.phase <;> simp only <;> omega

theorem turnsLeft_again (s u : State) (h : nextTurn s = .again u) : turnsLeft u < turnsLeft s := by
  cases hp : s.phase with
  | seek =>
    rw [nextTurn_of_seek s hp] at h
    rcases seekTurn_cases s with ⟨_, e⟩ | ⟨hc, _, e⟩ | ⟨hc, _, e⟩ <;> rw [e] at h <;> cases h <;>
      simp only [turnsLeft, hp, countSkipped_phase, dropBytes_phase, countSkipped_count, dropBytes_count] <;> omega
  | waitLen =>
    rw [nextTurn_of_waitLen s hp] at h
    rcases lengthTurn_cases s with ⟨_, e⟩ | ⟨_, _, e⟩ | ⟨_, _, e⟩ <;> rw [e] at h <;> cases h
    simp [turnsLeft, hp]
  | waitPayload =>
    rw [nextTurn_of_waitPayload s hp] at h
    rcases payloadTurn_cases s with ⟨_, e⟩ | ⟨_, _, e⟩ | ⟨_, _, e⟩ <;> rw [e] at h <;> cases h

/-- The fault of the loop is raised by no turn. -/
theorem nextTurn_ne_turnBoundExceeded (s : State) : nextTurn s ≠ .done (.fault .turnBoundExceeded) := by
  intro h
  cases hp : s.phase with
  | seek =>
    rw [nextTurn_of_seek s hp] at h
    rcases seekTurn_cases s with ⟨_, e⟩ | ⟨_, _, e⟩ | ⟨_, _, e⟩ <;> rw [e] at h <;> cases h
  | waitLen =>
    rw [nextTurn_of_waitLen s hp] at h
    rcases lengthTurn_cases s with ⟨_, e⟩ | ⟨_, _, e⟩ | ⟨_, _, e⟩ <;> rw [e] at h <;> cases h
  | waitPayload =>
    rw [nextTurn_of_waitPayload s hp] at h
    rcases payloadTurn_cases s with ⟨_, e⟩ | ⟨_, _, e⟩ | ⟨_, _, e⟩ <;> rw [e] at h
    · cases h
    · cases h
    · rcases acceptFrame_cases (ringRead s 0 (s.dlen.toNat + 2)) s.dlen.toNat s with e | ⟨_, _, e⟩ <;> rw [e] at h <;> cases h

/-- Two bounds that leave all the turns give the same outcome, and neither runs out. -/
theorem nextLoop_of_turnsLeft_le (n m : Nat) (s : State) (hn : turnsLeft s ≤ n) (hm : turnsLeft s ≤ m) :
    nextLoop n s = nextLoop m s ∧ nextLoop n s ≠ .fault .turnBoundExceeded := by
  have hpos := turnsLeft_pos s
  induction n generalizing s m with
  | zero => omega
  | succ n ih =>
    obtain ⟨m, rfl⟩ : ∃ k, m = k + 1 := ⟨m - 1, by omega⟩
    cases hturn : nextTurn s with
    | done r =>
      rw [nextLoop_of_done n s r hturn, nextLoop_of_done m s r hturn]
      exact ⟨rfl, fun hr => nextTurn_ne_turnBoundExceeded s (by rw [hturn, hr])⟩
    | again u =>
      have hless := turnsLeft_again s u hturn
      rw [nextLoop_of_again n s u hturn, nextLoop_of_again m s u hturn]
      exact ih m u (by omega) (by omega) (turnsLeft_pos u)

/-- Settles O51. -/
theorem nextLoopIsBounded : Obligations.NextLoopIsBounded := fun s n hn =>
  nextLoop_of_turnsLeft_le n (s.count + 3) s ((turnsLeft_le s).trans hn) (turnsLeft_le s)

/-! The last turn. -/

/-- `NEXT` has to wait for bytes: transitions 1, 4 and 7 of 43_parser.md R116. -/
def Waits (s : State) : Prop :=
  match s.phase with
  | .seek => s.count = 0
  | .waitLen => s.count < 2
  | .waitPayload => s.count < 2 + s.dlen.toNat

theorem nextTurn_of_waits (s : State) (h : Waits s) : nextTurn s = .done (.next (respond (.noFrame s.skipped) s)) := by
  cases hp : s.phase with
  | seek =>
    simp only [Waits, hp] at h
    exact (nextTurn_of_seek s hp).trans (if_pos h)
  | waitLen =>
    simp only [Waits, hp] at h
    exact (nextTurn_of_waitLen s hp).trans (lengthTurn_of_lt s h)
  | waitPayload =>
    simp only [Waits, hp] at h
    exact (nextTurn_of_waitPayload s hp).trans (payloadTurn_of_incomplete s h)

/-- How a turn can end the `NEXT`: it waits, it rejects the candidate and drops its sync byte, or it consumes and dispatches a frame. -/
theorem nextTurn_done_cases (s t : State) (h : nextTurn s = .done (.next t)) :
    (Waits s ∧ t = respond (.noFrame s.skipped) s) ∨
    (∃ r, r.code ∈ [ResultCode.invalidLength, .checksumMismatch] ∧ t = raiseError r (resync (dropBytes 1 s))) ∨
    ∃ f len, t = dispatchFrame f (f.getD 2 0) len (resync (dropBytes (len + 2) (writeFrame f s))) := by
  cases hp : s.phase with
  | seek =>
    rw [nextTurn_of_seek s hp] at h
    rcases seekTurn_cases s with ⟨hc, e⟩ | ⟨_, _, e⟩ | ⟨_, _, e⟩ <;> rw [e] at h <;> cases h
    exact .inl ⟨by simpa only [Waits, hp] using hc, rfl⟩
  | waitLen =>
    rw [nextTurn_of_waitLen s hp] at h
    rcases lengthTurn_cases s with ⟨hc, e⟩ | ⟨_, _, e⟩ | ⟨_, _, e⟩ <;> rw [e] at h <;> cases h
    · exact .inl ⟨by simpa only [Waits, hp] using hc, rfl⟩
    · exact .inr (.inl ⟨_, by simp [Response.code], rfl⟩)
  | waitPayload =>
    rw [nextTurn_of_waitPayload s hp] at h
    rcases payloadTurn_cases s with ⟨hc, e⟩ | ⟨_, _, e⟩ | ⟨_, _, e⟩ <;> rw [e] at h
    · cases h
      exact .inl ⟨by simpa only [Waits, hp] using hc, rfl⟩
    · cases h
      exact .inr (.inl ⟨_, by simp [Response.code], rfl⟩)
    · rcases acceptFrame_cases (ringRead s 0 (s.dlen.toNat + 2)) s.dlen.toNat s with e | ⟨_, _, e⟩ <;> rw [e] at h <;> cases h
      exact .inr (.inr ⟨_, _, rfl⟩)

/-- The turns before the last one move the cursors, the synchronizer and `SKIPPED` alone. -/
theorem nextLoop_last_turn (n : Nat) (s t : State) (h : nextLoop n s = .next t) :
    ∃ u, nextTurn u = .done (.next t) ∧
      u = overwrite (fun e => e ∈ [Element.cursors, .position, .skipped]) s { u with resp := s.resp } := by
  induction n generalizing s with
  | zero => cases h
  | succ n ih =>
    cases hturn : nextTurn s with
    | done r =>
      rw [nextLoop_of_done n s r hturn] at h
      exact ⟨s, by rw [hturn, h], rfl⟩
    | again v =>
      rw [nextLoop_of_again n s v hturn] at h
      obtain ⟨u, hu, heq⟩ := ih v h
      refine ⟨u, hu, ?_⟩
      rcases nextTurn_again s v hturn with ⟨_, _, _, rfl⟩ | ⟨_, _, hv⟩
      · rw [heq]; rfl
      · rw [heq, hv]; rfl

theorem exec_next_last_turn (s t : State) (h : exec .next s = .next t) :
    ∃ u, nextTurn u = .done (.next t) ∧ u.ch = s.ch ∧ u.fb = s.fb ∧ u.flen = s.flen := by
  obtain ⟨u, hu, heq⟩ := nextLoop_last_turn _ (clearSkipped s) t h
  exact ⟨u, hu, (congrArg State.ch heq :), (congrArg State.fb heq :), (congrArg State.flen heq :)⟩

/-- The dispatch leaves `CH` alone unless it answers `FRAME_CHANNELS` (43_parser.md R126 to R129). -/
theorem dispatchFrame_ch (f : List Byte) (ty : Byte) (n : Nat) (s : State) :
    (dispatchFrame f ty n s).ch = s.ch ∨
    ∃ sk ty' kind poff plen, (dispatchFrame f ty n s).resp = some (.frameChannels sk ty' kind poff plen) := by
  rcases dispatchFrame_cases f ty n s with ⟨_, e⟩ | ⟨row, _, ⟨_, e⟩ | ⟨_, _, e⟩ | ⟨_, _, e⟩⟩ <;> rw [e]
  · exact .inl rfl
  · exact .inl rfl
  · exact .inr ⟨_, _, _, _, _, rfl⟩
  · exact .inl rfl

/-- Settles O49: only the dispatch of a frame writes, and its answer is none of the three. -/
theorem nextWritesOnlyWhatItYields : Obligations.NextWritesOnlyWhatItYields := by
  intro s t h
  obtain ⟨u, hu, hch, hfb, hflen⟩ := exec_next_last_turn s t h
  rw [← hch, ← hfb, ← hflen]
  rcases nextTurn_done_cases u t hu with ⟨_, rfl⟩ | ⟨r, _, rfl⟩ | ⟨f, len, rfl⟩
  · exact ⟨fun _ => rfl, fun _ => ⟨rfl, rfl⟩⟩
  · exact ⟨fun _ => rfl, fun _ => ⟨rfl, rfl⟩⟩
  · refine ⟨fun hother => ?channels, fun hnone => ?frame⟩
    case channels =>
      rcases dispatchFrame_ch f (f.getD 2 0) len (resync (dropBytes (len + 2) (writeFrame f u))) with hkept | ⟨_, _, _, _, _, hr⟩
      · exact hkept
      · exact absurd hr (hother _ _ _ _ _)
    case frame =>
      obtain ⟨r, hr, hcode⟩ := dispatchFrame_code f (f.getD 2 0) len (resync (dropBytes (len + 2) (writeFrame f u)))
      rw [hr] at hnone
      rcases hnone with ⟨sk, e⟩ | ⟨sk, l, e⟩ | ⟨sk, a, b, e⟩ <;> obtain rfl := Option.some.inj e <;>
        simp [Response.code] at hcode

/-- Settles O50: a `NEXT` that answers `NONE` ends in a state that waits, and a state that waits goes on waiting. -/
theorem nextAfterNoneIsIdle : Obligations.NextAfterNoneIsIdle := by
  intro s t k h hr
  obtain ⟨u, hu, _⟩ := exec_next_last_turn s t h
  rcases nextTurn_done_cases u t hu with ⟨hwaits, rfl⟩ | ⟨r, hcode, rfl⟩ | ⟨f, len, rfl⟩
  · have hturn := nextTurn_of_waits (clearSkipped (respond (.noFrame u.skipped) u)) hwaits
    exact nextLoop_of_done _ _ _ hturn
  · obtain rfl : r = .noFrame k := Option.some.inj hr
    simp [Response.code] at hcode
  · obtain ⟨r, hr', hcode⟩ := dispatchFrame_code f (f.getD 2 0) len (resync (dropBytes (len + 2) (writeFrame f u)))
    obtain rfl : r = .noFrame k := Option.some.inj (hr'.symm.trans hr)
    simp [Response.code] at hcode

/-! The codes of the answers. -/

/-- The responses that carry `SKIPPED` are those of `NEXT` (30_encoding.md R74). -/
theorem code_of_skippedField (r : Response) (sk : Half) (h : skippedField r = some sk) : r.code ∈ mayAnswer .next := by
  cases r with
  | noFrame | frameChannels | frameRaw | frameTooShort | invalidLength | checksumMismatch | unknownPacketType =>
    simp [Response.code, mayAnswer]
  | _ => cases h

theorem build_code (sync ty : Byte) (addr d : List Byte) (s : State) :
    ∃ r, (build sync ty addr d s).resp = some r ∧ r.code ∈ [.ok, .bufferTooSmall] := by
  rcases build_cases sync ty addr d s with ⟨_, e⟩ | ⟨_, e⟩ <;> exact ⟨_, by rw [e]; rfl, by simp [Response.code]⟩

/-- A command answers with a code of its row of the "issued by" column (30_encoding.md R74). -/
theorem exec_code (i : Instr) (s t : State) (h : exec i s = .next t) : ∃ r, t.resp = some r ∧ r.code ∈ mayAnswer i := by
  cases i with
  | nop | reset | statusRead | clrFlags | crcReset | crcUpdate | crcRead => cases h; exact ⟨_, rfl, List.mem_singleton.2 rfl⟩
  | chWrite idx v => simp only [exec, execChWrite] at h; split at h <;> cases h <;> exact ⟨_, rfl, by simp [Response.code, mayAnswer]⟩
  | chRead idx => simp only [exec, execChRead] at h; split at h <;> cases h <;> exact ⟨_, rfl, by simp [Response.code, mayAnswer]⟩
  | pack wlen => simp only [exec, execPack] at h; split at h <;> cases h <;> exact ⟨_, rfl, by simp [Response.code, mayAnswer]⟩
  | unpack d => simp only [exec, execUnpack] at h; split at h <;> cases h <;> exact ⟨_, rfl, by simp [Response.code, mayAnswer]⟩
  | fbRead off => simp only [exec, execFbRead] at h; split at h <;> cases h <;> exact ⟨_, rfl, by simp [Response.code, mayAnswer]⟩
  | buildSimple | buildExt | buildCh => obtain rfl := Host.Outcome.next.inj h; exact build_code _ _ _ _ _
  | push d =>
    simp only [exec] at h
    rcases execPush_cases d s with ⟨_, e⟩ | ⟨k, _, e⟩ <;> rw [e] at h <;> cases h <;>
      exact ⟨_, rfl, by simp [Response.code, mayAnswer]⟩
  | next =>
    obtain ⟨u, hu, _⟩ := exec_next_last_turn s t h
    obtain ⟨_, hends⟩ := nextTurn_done u t hu
    obtain ⟨r, hr, hfield⟩ := hends.answer
    exact ⟨r, hr, code_of_skippedField r _ hfield⟩

/-- Settles O7: the table of responses row by row, the codes one by one, and the answers of each command. -/
theorem responsesFollowTable : Obligations.ResponsesFollowTable := by
  refine ⟨rfl, fun _ => rfl, fun _ => ⟨rfl, rfl, rfl, rfl⟩, fun _ => ⟨rfl, rfl, rfl⟩, fun _ => rfl, rfl,
    fun _ _ _ _ _ => ⟨rfl, rfl, rfl, rfl, rfl, rfl⟩, fun code => ?errorBit, fun r => ?notIssued, exec_code⟩
  case errorBit => cases code <;> rfl
  case notIssued => cases r <;> nofun

end Sys2Proof.Machine
end

section
/-! PROOFS. The laws of the checksum (spec/40_crc.md R80 to R86, section 3): the table is linear, the accumulator takes in sequences, and
what follows for single-byte changes and residues. -/

namespace Sys2Proof.Machine

/-! The accumulation law. -/

/-- A run of `CRC_UPDATE` commands takes in their sequences one after the other. -/
theorem runCommands_crcUpdates (xs : List (List Byte)) (s : State) :
    ∃ rs t, runCommands (xs.map Instr.crcUpdate) s = some (rs, t) ∧ t.crc = crcFrom s.cfg s.crc xs.flatten := by
  induction xs generalizing s with
  | nil => exact ⟨_, _, rfl, rfl⟩
  | cons x xs ih =>
    obtain ⟨rs, t, hrun, hcrc⟩ := ih { s with crc := crcFrom s.cfg s.crc x, resp := some .ok }
    refine ⟨.ok :: rs, t, ?_, ?_⟩
    · rw [List.map_cons, runCommands, exec_crcUpdate]
      simp only [hrun]
      rfl
    · rw [hcrc, List.flatten_cons, crcFrom_append]

/-- Every command of `CRC_COMPUTE` is one the encoding can carry (30_encoding.md Part B). -/
theorem crcComputeCmds_wf (bs : List Byte) (i : Instr) (h : i ∈ crcComputeCmds bs) : i.wf = true := by
  simp only [crcComputeCmds, List.mem_cons, List.mem_append, List.not_mem_nil, or_false] at h
  rcases h with rfl | h | rfl
  · rfl
  · exact crcUpdateCmds_wf _ bs i h
  · rfl

theorem crcCompute_eq (bs : List Byte) (s : State) :
    crcCompute bs s = some (.okCrc (crc8 s.cfg bs), { s with crc := crc8 s.cfg bs, resp := some (.okCrc (crc8 s.cfg bs)) }) := by
  obtain ⟨rs, r, hrun⟩ := runCommands_crcUpdateCmds ((bs.length - 1) / 255 + 1) bs { s with crc := s.cfg.crcInit, resp := some .ok }
    (by omega)
  have hall := runCommands_append _ [.crcRead] _ _ rs hrun
  have hlast : (Response.ok :: rs ++ [Response.okCrc (crc8 s.cfg bs)]).getLast? = some (.okCrc (crc8 s.cfg bs)) :=
    List.getLast?_concat
  simp only [crcCompute, crcComputeCmds, runCommands, exec_crcReset, hall, exec_crcRead]
  exact congrArg (Option.map _) hlast

/-- Settles O22. -/
theorem crcOfChunksIsCrcOfConcatenation : Obligations.CrcOfChunksIsCrcOfConcatenation := by
  refine ⟨fun s xs => ?chunks, fun s bs => ⟨crcComputeCmds_wf bs, crcCompute_eq bs s⟩⟩
  case chunks =>
    obtain ⟨rs, t, hrun, hcrc⟩ := runCommands_crcUpdates xs { s with crc := s.cfg.crcInit, resp := some .ok }
    refine ⟨.ok :: rs, t, ?_, hcrc⟩
    rw [runCommands, exec_crcReset]
    simp only [hrun]
    rfl

/-! Linearity. -/

/-- A turn of the loop of R80 shifts, and adds the polynomial where a bit falls out. -/
theorem crcShift_eq (poly c : Byte) : crcShift poly c = (c <<< 1) ^^^ (if c.msb then poly else 0) := by
  unfold crcShift
  split <;> simp

theorem crcShift_xor (poly a b : Byte) : crcShift poly (a ^^^ b) = crcShift poly a ^^^ crcShift poly b := by
  have hpoly : (if (a ^^^ b).msb then poly else 0) = (if a.msb then poly else 0) ^^^ (if b.msb then poly else 0) := by
    rw [BitVec.msb_xor]
    cases a.msb <;> cases b.msb <;> simp
  rw [crcShift_eq, crcShift_eq, crcShift_eq, hpoly, BitVec.shiftLeft_xor_distrib]
  ac_rfl

theorem crcShifts_xor (poly : Byte) (n : Nat) (a b : Byte) :
    crcShifts poly n (a ^^^ b) = crcShifts poly n a ^^^ crcShifts poly n b := by
  induction n generalizing a b with
  | zero => rfl
  | succ n ih => rw [crcShifts, crcShift_xor, ih]; rfl

/-- One more turn may come first or last. -/
theorem crcShifts_crcShift (poly : Byte) (n : Nat) (c : Byte) :
    crcShifts poly n (crcShift poly c) = crcShift poly (crcShifts poly n c) := by
  induction n generalizing c with
  | zero => rfl
  | succ n ih => exact ih (crcShift poly c)

/-- Below the top bit a turn doubles a power of two. -/
theorem crcShift_two_pow (poly : Byte) (k : Nat) (h : k < 7) :
    crcShift poly (BitVec.ofNat 8 (2 ^ k)) = BitVec.ofNat 8 (2 ^ (k + 1)) := by
  interval_cases k <;> rfl

theorem crcShifts_two_pow (poly : Byte) (k n : Nat) (h : k + n ≤ 7) :
    crcShifts poly n (BitVec.ofNat 8 (2 ^ k)) = BitVec.ofNat 8 (2 ^ (k + n)) := by
  induction n generalizing k with
  | zero => rfl
  | succ n ih => rw [crcShifts, crcShift_two_pow poly k (by omega), ih (k + 1) (by omega), Nat.add_right_comm, Nat.add_assoc]

/-- Seven turns bring the lowest bit to the top, and the eighth makes it the polynomial. -/
theorem crcTable_one (cfg : Config) : crcTable cfg 0x01 = cfg.crcPoly := by
  have htop : crcShifts cfg.crcPoly 7 0x01 = 0x80 := crcShifts_two_pow cfg.crcPoly 0 7 le_rfl
  have hlast : crcShift cfg.crcPoly 0x80 = cfg.crcPoly := BitVec.zero_xor
  rw [crcTable, crcShifts, crcShifts_crcShift, htop, hlast]

theorem crcTable_xor (cfg : Config) (a b : Byte) : crcTable cfg (a ^^^ b) = crcTable cfg a ^^^ crcTable cfg b :=
  crcShifts_xor cfg.crcPoly 8 a b

theorem crcTable_zero (cfg : Config) : crcTable cfg 0 = 0 := by
  have h := crcTable_xor cfg 0 0
  rwa [BitVec.xor_self, BitVec.xor_self] at h

/-- Settles O23. -/
theorem crcTableIsLinear : Obligations.CrcTableIsLinear := by
  refine fun cfg => ⟨crcTable_xor cfg, crcTable_one cfg, fun k hk => ?power⟩
  case power =>
    rw [← crcShift_two_pow cfg.crcPoly k hk, crcTable, crcShifts_crcShift, crcShift_eq, BitVec.msb_eq_getLsbD_last]
    rfl

/-! Detection: with an odd polynomial nothing that differs is brought together. -/

/-- With an odd polynomial a turn loses nothing: the bit that falls out at the top shows at the bottom. -/
theorem crcShift_eq_zero (poly c : Byte) (hodd : poly.getLsbD 0 = true) (h : crcShift poly c = 0) : c = 0 := by
  cases hmsb : c.msb with
  | true =>
    have hbit := congrArg (BitVec.getLsbD · 0) h
    have hlow : poly[0] = true := hodd
    simp [crcShift_eq, hmsb, hlow] at hbit
  | false =>
    rw [crcShift_eq, hmsb] at h
    have hnat := congrArg BitVec.toNat h
    have hlow : c.toNat < 128 := by rw [BitVec.msb_eq_false_iff_two_mul_lt] at hmsb; omega
    simp [Nat.shiftLeft_eq] at hnat
    apply BitVec.eq_of_toNat_eq
    simp
    omega

theorem crcShifts_eq_zero (poly : Byte) (n : Nat) (c : Byte) (hodd : poly.getLsbD 0 = true) (h : crcShifts poly n c = 0) : c = 0 := by
  induction n generalizing c with
  | zero => exact h
  | succ n ih => exact crcShift_eq_zero poly c hodd (ih _ h)

theorem crcTable_injective (cfg : Config) (hodd : cfg.crcPoly.getLsbD 0 = true) : Function.Injective (crcTable cfg) := by
  intro a b h
  rw [← BitVec.xor_eq_zero_iff] at h ⊢
  exact crcShifts_eq_zero cfg.crcPoly 8 _ hodd ((crcTable_xor cfg a b).trans h)

theorem crcStep_injective_left (cfg : Config) (hodd : cfg.crcPoly.getLsbD 0 = true) (b : Byte) :
    Function.Injective (crcStep cfg · b) := fun _ _ h => (BitVec.xor_left_inj _).1 (crcTable_injective cfg hodd h)

theorem crcStep_injective_right (cfg : Config) (hodd : cfg.crcPoly.getLsbD 0 = true) (c : Byte) :
    Function.Injective (crcStep cfg c) := fun _ _ h => (BitVec.xor_right_inj _).1 (crcTable_injective cfg hodd h)

theorem crcFrom_injective (cfg : Config) (hodd : cfg.crcPoly.getLsbD 0 = true) (bs : List Byte) :
    Function.Injective (crcFrom cfg · bs) := by
  induction bs with
  | nil => exact fun _ _ h => h
  | cons b bs ih => exact fun _ _ h => crcStep_injective_left cfg hodd b (ih h)

/-- Two sequences that differ in one byte have different checksums. -/
theorem crcFrom_set_ne (cfg : Config) (hodd : cfg.crcPoly.getLsbD 0 = true) (c : Byte) (bs : List Byte) (k : Nat) (v : Byte)
    (hk : k < bs.length) (hv : v ≠ bs.getD k 0) : crcFrom cfg c (bs.set k v) ≠ crcFrom cfg c bs := by
  induction bs generalizing c k with
  | nil => simp at hk
  | cons b bs ih =>
    cases k with
    | zero => exact fun h => hv (crcStep_injective_right cfg hodd c (crcFrom_injective cfg hodd bs h))
    | succ k => exact ih (crcStep cfg c b) k (by simpa using hk) (by simpa using hv)

/-- Settles O24: the byte is one of the body, and the trailer stays. -/
theorem singleByteChangeIsDetected : Obligations.SingleByteChangeIsDetected := by
  intro cfg f k v hodd hvalid hk hlast hv
  obtain ⟨hmin, _⟩ := frameValid_bounds cfg f hvalid
  obtain ⟨sync, len, body, trailer, rfl⟩ := exists_frame_parts f (by omega)
  obtain ⟨j, rfl⟩ : ∃ j, k = j + 2 := ⟨k - 2, by omega⟩
  have hj : j < body.length := by simpa using hlast
  have hchanged : (sync :: len :: (body ++ [trailer])).set (j + 2) v = sync :: len :: (body.set j v ++ [trailer]) := by
    simp [List.set_append_left _ _ hj]
  have hbyte : v ≠ body.getD j 0 := by
    simpa [List.getD_eq_getElem?_getD, List.getElem?_append_left hj] using hv
  obtain ⟨_, _, _, hcrc⟩ := (frameValid_parts_iff cfg sync len body trailer).1 hvalid
  rw [hchanged, Bool.eq_false_iff]
  intro hvalid'
  obtain ⟨_, _, _, hcrc'⟩ := (frameValid_parts_iff cfg sync len _ trailer).1 hvalid'
  exact crcFrom_set_ne cfg hodd cfg.crcInit body j v hj hbyte (hcrc'.trans hcrc.symm)

/-! Residues. -/

/-- A sequence followed by its own checksum leaves 0. -/
theorem crcFrom_append_self (cfg : Config) (c : Byte) (bs : List Byte) : crcFrom cfg c (bs ++ [crcFrom cfg c bs]) = 0 := by
  rw [crcFrom_append]
  show crcTable cfg (crcFrom cfg c bs ^^^ crcFrom cfg c bs) = 0
  rw [BitVec.xor_self]
  exact crcTable_zero cfg

/-- Zero bytes leave an accumulator that holds 0. -/
theorem crcFrom_zero_replicate (cfg : Config) (n : Nat) : crcFrom cfg 0 (List.replicate n 0) = 0 := by
  induction n with
  | zero => rfl
  | succ n ih =>
    have hstep : crcStep cfg 0 0 = 0 := crcTable_zero cfg
    rw [List.replicate_succ]
    show crcFrom cfg (crcStep cfg 0 0) (List.replicate n 0) = 0
    rw [hstep, ih]

/-- Settles O25. -/
theorem crcResidueIsZero : Obligations.CrcResidueIsZero := by
  refine fun cfg hinit => ⟨fun f hvalid => ?residue, fun n bs => ?leadingZeros⟩
  case residue =>
    obtain ⟨hmin, _⟩ := frameValid_bounds cfg f hvalid
    obtain ⟨sync, len, body, trailer, rfl⟩ := exists_frame_parts f (by omega)
    obtain ⟨_, _, _, rfl⟩ := (frameValid_parts_iff cfg sync len body trailer).1 hvalid
    exact crcFrom_append_self cfg cfg.crcInit body
  case leadingZeros => rw [crc8, crc8, hinit, crcFrom_append, crcFrom_zero_replicate]

end Sys2Proof.Machine
end

section
/-! PROOFS. The packed channels bit by bit, and that packing and unpacking are inverse (spec/20_memory.md R45; spec/41_channel_codec.md
R90, R91, R97). -/

namespace Sys2Proof.Machine

/-- Bit `k` of the packed stream is bit `k mod 11` of channel `k div 11` (20_memory.md R45). -/
theorem testBit_channelStream (xs : List Chan) (i j : Nat) (hj : j < 11) :
    (channelStream xs).testBit (11 * i + j) = (xs.getD i 0).getLsbD j := by
  induction xs generalizing i with
  | nil => simp [channelStream]
  | cons x xs ih =>
    have hparts : channelStream (x :: xs) = 2 ^ 11 * channelStream xs + x.toNat := by
      rw [channelStream, Nat.shiftLeft_eq]
      ring
    rw [hparts, Nat.testBit_two_pow_mul_add _ x.isLt]
    cases i with
    | zero => simp [hj, BitVec.getLsbD]
    | succ i =>
      have hrest : 11 * (i + 1) + j - 11 = 11 * i + j := by omega
      rw [if_neg (by omega), hrest, ih]
      rfl

/-- Bit `k` of the number of a byte sequence is bit `k mod 8` of byte `k div 8` (20_memory.md R45). -/
theorem testBit_byteStream (bs : List Byte) (k j : Nat) (hj : j < 8) :
    (byteStream bs).testBit (8 * k + j) = (bs.getD k 0).getLsbD j := by
  induction bs generalizing k with
  | nil => simp [byteStream]
  | cons b bs ih =>
    have hparts : byteStream (b :: bs) = 2 ^ 8 * byteStream bs + b.toNat := by
      rw [byteStream, Nat.shiftLeft_eq]
      ring
    rw [hparts, Nat.testBit_two_pow_mul_add _ b.isLt]
    cases k with
    | zero => simp [hj, BitVec.getLsbD]
    | succ k =>
      have hrest : 8 * (k + 1) + j - 8 = 8 * k + j := by omega
      rw [if_neg (by omega), hrest, ih]
      rfl

/-- A stream bit among those of the sixteen channels is a bit of one of the 22 bytes (41_channel_codec.md R90). -/
theorem getLsbD_packChannels (chans : Vector Chan 16) (n : Nat) (hn : n < 176) :
    ((packChannels chans).getD (n / 8) 0).getLsbD (n % 8) = (channelStream chans.toList).testBit n := by
  have hbyte : n / 8 < 22 := by omega
  have hbit : n % 8 < 8 := Nat.mod_lt _ (by omega)
  have hpack : (packChannels chans).getD (n / 8) 0 = BitVec.ofNat 8 (channelStream chans.toList >>> (8 * (n / 8))) := by
    simp [packChannels, List.getD_eq_getElem?_getD, hbyte]
  rw [hpack, BitVec.getLsbD_ofNat, Nat.testBit_shiftRight, Nat.div_add_mod]
  simp [hbit]

theorem getLsbD_packChannels_channel (chans : Vector Chan 16) (i : Fin 16) (j : Nat) (hj : j < 11) :
    ((packChannels chans).getD ((11 * i.val + j) / 8) 0).getLsbD ((11 * i.val + j) % 8) = chans[i].getLsbD j := by
  rw [getLsbD_packChannels chans _ (by omega), testBit_channelStream _ _ _ hj]
  simp [List.getD_eq_getElem?_getD]

theorem getLsbD_unpackChannels (p : List Byte) (i : Fin 16) (j : Nat) (hj : j < 11) :
    (unpackChannels p)[i].getLsbD j = (p.getD ((11 * i.val + j) / 8) 0).getLsbD ((11 * i.val + j) % 8) := by
  have hbit : (11 * i.val + j) % 8 < 8 := Nat.mod_lt _ (by omega)
  have hunpack : (unpackChannels p)[i] = BitVec.ofNat 11 (byteStream p >>> (11 * i.val)) := by simp [unpackChannels]
  rw [hunpack, BitVec.getLsbD_ofNat, Nat.testBit_shiftRight, ← testBit_byteStream p _ _ hbit, Nat.div_add_mod]
  simp [hj]

/-- Settles O30. -/
theorem packedChannelsAreLittleEndianBits : Obligations.PackedChannelsAreLittleEndianBits :=
  ⟨getLsbD_packChannels_channel, fun p i j _ hj => getLsbD_unpackChannels p i j hj⟩

/-- Each bit of each channel goes to its place in the bytes and comes back from there. -/
theorem unpackChannels_packChannels (chans : Vector Chan 16) : unpackChannels (packChannels chans) = chans := by
  apply Vector.ext
  intro i hi
  apply BitVec.eq_of_getLsbD_eq
  intro j hj
  exact (getLsbD_unpackChannels _ ⟨i, hi⟩ j hj).trans (getLsbD_packChannels_channel chans ⟨i, hi⟩ j hj)

/-- The 176 bits of 22 bytes are those of sixteen channels, so each bit of each byte is one of them. -/
theorem packChannels_unpackChannels (p : List Byte) (h : p.length = 22) : packChannels (unpackChannels p) = p := by
  apply List.ext_getElem (by rw [length_packChannels, h])
  intro k hk hk'
  apply BitVec.eq_of_getLsbD_eq
  intro j hj
  have hchannel : (8 * k + j) / 11 < 16 := by omega
  have hplace : 11 * ((8 * k + j) / 11) + (8 * k + j) % 11 = 8 * k + j := Nat.div_add_mod _ _
  have hdiv : (8 * k + j) / 8 = k := by omega
  have hmod : (8 * k + j) % 8 = j := by omega
  have hbit := (getLsbD_packChannels_channel (unpackChannels p) ⟨_, hchannel⟩ ((8 * k + j) % 11) (Nat.mod_lt _ (by omega))).trans
    (getLsbD_unpackChannels p ⟨_, hchannel⟩ _ (Nat.mod_lt _ (by omega)))
  simp only [hplace, hdiv, hmod] at hbit
  rwa [List.getD_eq_getElem _ _ hk, List.getD_eq_getElem _ _ hk'] at hbit

/-- Settles O31: the functions are inverse, and the commands apply them. -/
theorem packAndUnpackAreInverse : Obligations.PackAndUnpackAreInverse := by
  refine ⟨unpackChannels_packChannels, packChannels_unpackChannels, fun s p hp => ?unpackPack, fun s => ?packUnpack⟩
  case unpackPack =>
    have hunpack := exec_unpack_append p [] s hp
    rw [List.append_nil] at hunpack
    refine ⟨_, _, hunpack, exec_pack_of_le 22 _ (by decide), ?_⟩
    show some (Response.okPacked (packChannels (unpackChannels p))) = _
    rw [packChannels_unpackChannels p hp]
  case packUnpack =>
    have hunpack := exec_unpack_append (packChannels s.ch) [] (respond (.okPacked (packChannels s.ch)) s) (length_packChannels s.ch)
    rw [List.append_nil] at hunpack
    exact ⟨_, _, exec_pack_of_le 22 s (by decide), rfl, hunpack, unpackChannels_packChannels s.ch⟩

end Sys2Proof.Machine
end

section
/-! PROOFS. What holds of every frame a `BUILD` command leaves in `FB` (spec/42_frame_build.md section 3; `FB_DUMP` is spec/30_encoding.md
R77). -/

namespace Sys2Proof.Machine

theorem frameBytes_length_le (cfg : Config) (sync ty : Byte) (addr d : List Byte) (h : frameLength addr d ≤ cfg.maxLen) :
    (frameBytes cfg sync ty addr d).length ≤ cfg.maxFrame := by
  have := cfg.maxFrame_ge
  rw [length_frameBytes]
  rw [Params.maxLen] at h
  omega

/-- The frame in `FB` after a `BUILD` command that fits. -/
theorem currentFrame_build (sync ty : Byte) (addr d : List Byte) (s : State) (h : frameLength addr d ≤ s.cfg.maxLen) :
    currentFrame (build sync ty addr d s) = frameBytes s.cfg sync ty addr d := by
  have hcapacity := s.cfg.maxFrame_le
  have hmax := frameBytes_length_le s.cfg sync ty addr d h
  rcases build_cases sync ty addr d s with ⟨hlong, _⟩ | ⟨_, e⟩
  · omega
  · rw [e]
    exact currentFrame_writeFrame _ s (by omega)

/-- The frame that `build` leaves is valid, its length byte is its size less 2, and `FB_DUMP` answers it. -/
theorem build_valid (sync ty : Byte) (addr d : List Byte) (s : State) (h : (build sync ty addr d s).resp ≠ some .bufferTooSmall) :
    frameValid (build sync ty addr d s).cfg (currentFrame (build sync ty addr d s)) = true ∧
    (Memory.read (build sync ty addr d s).fb 1).toNat + 2 = (build sync ty addr d s).flen.toNat ∧
    ∃ r, fbDump (build sync ty addr d s) = some (currentFrame (build sync ty addr d s), { build sync ty addr d s with resp := r }) := by
  rcases Nat.lt_or_ge s.cfg.maxLen (frameLength addr d) with hlong | hfits
  · exact absurd (by rw [build_of_lt sync ty addr d s hlong]) h
  have hcapacity := s.cfg.maxFrame_le
  have hmax := frameBytes_length_le s.cfg sync ty addr d hfits
  rw [length_frameBytes] at hmax
  have hcfg : (build sync ty addr d s).cfg = s.cfg := by rw [build_frame]
  have hlen : (Memory.read (build sync ty addr d s).fb 1).toNat = frameLength addr d := by
    rw [build_of_le sync ty addr d s hfits, Memory.read_frame, frameBytes_eq, List.getD_cons_succ, List.getD_cons_zero,
      BitVec.toNat_ofNat]
    omega
  have hflen : (build sync ty addr d s).flen.toNat = frameLength addr d + 2 := by
    rw [build_of_le sync ty addr d s hfits, BitVec.toNat_ofNat]
    omega
  refine ⟨?valid, by rw [hlen, hflen], fbDump_of_flen_le _ (by rw [hflen, hcfg]; exact hmax)⟩
  case valid =>
    rw [currentFrame_build sync ty addr d s hfits, hcfg]
    exact frameValid_frameBytes s.cfg sync ty addr d hfits

/-- Settles O36: each `BUILD` command is `build`. -/
theorem builtFramesAreValid : Obligations.BuiltFramesAreValid := by
  rintro i s t (⟨sync, ty, d, rfl⟩ | ⟨sync, ty, dst, src, d, rfl⟩ | ⟨sync, rfl⟩) h hr <;>
    obtain rfl := Host.Outcome.next.inj h
  · exact build_valid sync ty [] d s hr
  · exact build_valid sync ty [dst, src] d s hr
  · exact build_valid sync s.cfg.typeRC [] (packChannels s.ch) s hr

/-- Two frames that differ in the sync byte alone differ at offset 0 alone: the checksum does not cover it. -/
theorem build_sync_irrelevant (a b ty : Byte) (addr d : List Byte) (s : State) :
    (build a ty addr d s).flen = (build b ty addr d s).flen ∧
    ∀ k, 1 ≤ k → Memory.read (build a ty addr d s).fb k = Memory.read (build b ty addr d s).fb k := by
  rcases Nat.lt_or_ge s.cfg.maxLen (frameLength addr d) with hlong | hfits
  · rw [build_of_lt a ty addr d s hlong, build_of_lt b ty addr d s hlong]
    exact ⟨rfl, fun _ _ => rfl⟩
  · rw [build_of_le a ty addr d s hfits, build_of_le b ty addr d s hfits]
    refine ⟨rfl, fun k hk => ?_⟩
    obtain ⟨j, rfl⟩ : ∃ j, k = j + 1 := ⟨k - 1, by omega⟩
    rw [Memory.read_frame, Memory.read_frame, frameBytes_eq, frameBytes_eq, List.getD_cons_succ, List.getD_cons_succ]

/-- The sync byte stands at offset 0 of a frame that fits. -/
theorem read_build_zero (sync ty : Byte) (addr d : List Byte) (s : State) (h : frameLength addr d ≤ s.cfg.maxLen) :
    Memory.read (build sync ty addr d s).fb 0 = sync := by
  rw [build_of_le sync ty addr d s h, Memory.read_frame, frameBytes_eq, List.getD_cons_zero]

/-- Settles O38. -/
theorem syncByteIsNotCovered : Obligations.SyncByteIsNotCovered := by
  refine ⟨fun s t u a b ty d ht hu => ?simple, fun s t u a b ty dst src d ht hu => ?extended, fun s t u a b ht hu => ?channels⟩
  case simple =>
    obtain rfl := Host.Outcome.next.inj ht
    obtain rfl := Host.Outcome.next.inj hu
    exact build_sync_irrelevant a b ty [] d s
  case extended =>
    obtain rfl := Host.Outcome.next.inj ht
    obtain rfl := Host.Outcome.next.inj hu
    exact build_sync_irrelevant a b ty [dst, src] d s
  case channels =>
    obtain rfl := Host.Outcome.next.inj ht
    obtain rfl := Host.Outcome.next.inj hu
    obtain ⟨hflen, hrest⟩ := build_sync_irrelevant a b s.cfg.typeRC [] (packChannels s.ch) s
    exact ⟨hflen, read_build_zero a s.cfg.typeRC [] (packChannels s.ch) s (packChannels_fit s), hrest⟩

end Sys2Proof.Machine
end

section
/-! PROOFS. The reset state (spec/10_state.md R33) and what the first commands answer in it (spec/70_reset_and_hazards.md R181). -/

namespace Sys2Proof.Machine

theorem replicate_channel (i : Fin 16) : (Vector.replicate 16 (0 : Chan))[i] = 0 := by simp

theorem inResetState_hardReset (s : State) : InResetState (hardReset s) :=
  ⟨rfl, replicate_channel, fun _ => rfl, rfl, rfl, rfl, rfl, rfl, rfl, rfl⟩

/-- Settles O14: after power-on, after the hardware reset, and after `RESET`, which is the hardware reset with a response. -/
theorem resetStateValues : Obligations.ResetStateValues := by
  refine ⟨fun cfg => ⟨⟨rfl, replicate_channel, fun _ => rfl, rfl, rfl, rfl, rfl, rfl, rfl, rfl⟩, rfl⟩,
    fun s => ⟨inResetState_hardReset s, rfl, rfl⟩, fun s t h => ?reset⟩
  obtain rfl := Host.Outcome.next.inj h
  exact ⟨⟨rfl, replicate_channel, fun _ => rfl, rfl, rfl, rfl, rfl, rfl, rfl, rfl⟩, rfl⟩

/-- Channels at 0 pack into zero bytes. -/
theorem packChannels_zero : packChannels (Vector.replicate 16 0) = List.replicate 22 0 := by decide

/-- Settles O15. -/
theorem resetStateFirstAnswers : Obligations.ResetStateFirstAnswers := by
  intro cfg
  refine ⟨exec_crcRead _, fun i hi => ?channel, fun k hk => exec_fbRead_of_lt k (State.resetWith cfg) hk,
    exec_statusRead_of_zero (State.resetWith cfg) rfl rfl rfl rfl rfl rfl,
    nextLoop_of_done 2 _ _ (nextTurn_of_waits (clearSkipped (State.resetWith cfg)) rfl), ?pack,
    _, exec_buildCh cfg.sync _, rfl, fun k hk hk' => ?payload⟩
  case channel =>
    rw [exec_chRead_of_lt i (State.resetWith cfg) (by omega), readChan, resetWith_ch, replicate_channel]
    rfl
  case pack =>
    rw [exec_pack_of_le 22 (State.resetWith cfg) (by decide), resetWith_ch, packChannels_zero]
    rfl
  case payload =>
    obtain ⟨j, rfl⟩ : ∃ j, k = j + 3 := ⟨k - 3, by omega⟩
    rw [Memory.read_frame, resetWith_ch, packChannels_zero, frameBytes_simple]
    have hj : j < 22 := by omega
    simp [-List.reduceReplicate, List.getD_eq_getElem?_getD, List.getElem?_append_left, hj]

end Sys2Proof.Machine
end

section
/-! PROOFS. Chunking does not matter (spec/43_parser.md section 4): a `PUSH` that fits commutes with a `NEXT` that is decided, a frame
delivered in two parts is yielded once, and a channels frame loops back (spec/42_frame_build.md section 3). -/

namespace Sys2Proof.Machine

/-! A chunk behind a decided candidate. -/

/-- The state with `k` more bytes pending, in the ring memory `r`, after a command that answered `answer`. -/
def extendRing (r : Memory) (k : Nat) (answer : Option Response) (s : State) : State :=
  { s with rb := r, count := s.count + k, resp := answer }

theorem exec_push_eq_extendRing (d : List Byte) (s : State) (h : s.count + d.length ≤ s.cfg.ringN) :
    exec (.push d) s = .next (extendRing (pushBytes d s 0).1.rb d.length (some .ok) s) :=
  (exec_push_of_le d s h).trans (congrArg (fun t => Host.Outcome.next (respond .ok t)) (pushBytes_of_le d s 0 h))

theorem afterNoise_extendRing (noise taken : Nat) (p : Phase) (len : Byte) (r : Memory) (k : Nat) (answer : Option Response) (s : State)
    (h : noise + taken ≤ s.count) :
    afterNoise noise taken p len (extendRing r k answer s) = extendRing r k answer (afterNoise noise taken p len s) := by
  have hcount : s.count + k - (noise + taken) = s.count - (noise + taken) + k := by omega
  simp [afterNoise, extendRing, dropBytes, ringIndex, hcount]

/-- The bytes of a complete candidate, and so its two checksums, do not depend on what is pending behind it. -/
theorem checksum_append (len : Byte) (tail d : List Byte) (hmin : 1 ≤ len.toNat) (h : len.toNat ≤ tail.length) :
    (tail ++ d).take (len.toNat - 1) = tail.take (len.toNat - 1) ∧ (tail ++ d).getD (len.toNat - 1) 0 = tail.getD (len.toNat - 1) 0 :=
  ⟨List.take_append_of_le_length (by omega), List.getD_append _ _ _ _ (by omega)⟩

theorem checksumMatches_append_iff (cfg : Config) (len : Byte) (tail d : List Byte) (hmin : 1 ≤ len.toNat)
    (h : len.toNat ≤ tail.length) : ChecksumMatches cfg len (tail ++ d) ↔ ChecksumMatches cfg len tail := by
  obtain ⟨hcovered, htrailer⟩ := checksum_append len tail d hmin h
  rw [ChecksumMatches, ChecksumMatches, hcovered, htrailer, List.length_append]
  exact and_congr_left fun _ => ⟨fun _ => h, fun _ => by omega⟩

theorem frameConsumed_extendRing (s : State) (noise tail d : List Byte) (len : Byte) (r : Memory) (k : Nat) (answer : Option Response)
    (hc : HasCandidate s noise len tail) (h : len.toNat ≤ tail.length) :
    frameConsumed (extendRing r k answer s) noise (tail ++ d) len = extendRing r k answer (frameConsumed s noise tail len) := by
  have hcount := hc.count_eq
  have hframe : candidateFrame s.cfg len (tail ++ d) = candidateFrame s.cfg len tail := by
    rw [candidateFrame, candidateFrame, List.take_append_of_le_length h]
  have hstate := afterNoise_extendRing noise.length (len.toNat + 2) .seek 0 r k answer s (by omega)
  calc frameConsumed (extendRing r k answer s) noise (tail ++ d) len
      = writeFrame (candidateFrame s.cfg len (tail ++ d)) (afterNoise noise.length (len.toNat + 2) .seek 0 (extendRing r k answer s)) := rfl
    _ = extendRing r k answer (frameConsumed s noise tail len) := by rw [hframe, hstate]; rfl

/-- An outcome other than `NONE` is decided by bytes already pending, so more bytes behind them do not change it. -/
theorem exec_next_extendRing {s t : State} {d : List Byte} {r : Memory} {answer : Option Response}
    (hi : Inv (extendRing r d.length answer s)) (hp : pending (extendRing r d.length answer s) = pending s ++ d)
    (h : NextOutcome s t) (hsome : ∀ k, t.resp ≠ some (.noFrame k)) :
    exec .next (extendRing r d.length answer s) = .next (extendRing r d.length t.resp t) := by
  have hmore {noise tail : List Byte} {len : Byte} (hc : HasCandidate s noise len tail) :
      HasCandidate (extendRing r d.length answer s) noise len (tail ++ d) :=
    ⟨by rw [hp, hc.1, List.append_assoc]; rfl, hc.2⟩
  cases h with
  | noise hnoise => exact absurd rfl (hsome _)
  | loneSync noise hp => exact absurd rfl (hsome _)
  | incomplete noise tail len hc hl hlen => exact absurd rfl (hsome _)
  | illegal noise tail len hc hl =>
    have hcount := hc.count_eq
    rw [exec_next_of_illegal hi (hmore hc) hl, afterNoise_extendRing _ _ _ _ _ _ _ _ (by omega)]
    rfl
  | mismatch noise tail len hc hl hlen hdiff =>
    have hcount := hc.count_eq
    obtain ⟨hmin, _⟩ := hl.bounds
    obtain ⟨hcovered, htrailer⟩ := checksum_append len tail d (by omega) hlen
    have hdiff' : ¬ ChecksumMatches s.cfg len (tail ++ d) := by rwa [checksumMatches_append_iff _ _ _ _ (by omega) hlen]
    rw [exec_next_of_mismatch hi (hmore hc) hl (by rw [List.length_append]; omega) hdiff', hcovered, htrailer,
      afterNoise_extendRing _ _ _ _ _ _ _ _ (by omega)]
    rfl
  | frame noise tail len hc hl hm =>
    obtain ⟨hmin, _⟩ := hl.bounds
    have hlen := hm.1
    have hm' := (checksumMatches_append_iff s.cfg len tail d (by omega) hlen).2 hm
    have hty : (tail ++ d).getD 0 0 = tail.getD 0 0 := List.getD_append _ _ _ _ (by omega)
    have hframe : candidateFrame s.cfg len (tail ++ d) = candidateFrame s.cfg len tail := by
      rw [candidateFrame, candidateFrame, List.take_append_of_le_length hlen]
    have hdispatch := dispatchFrame_of_same (candidateFrame s.cfg len tail) (tail.getD 0 0) len.toNat (frameConsumed s noise tail len)
      (extendRing r d.length answer (frameConsumed s noise tail len)) rfl rfl rfl
    rw [exec_next_of_match hi (hmore hc) hl hm', frameConsumed_extendRing s noise tail d len r _ _ hc hlen, hty]
    refine congrArg Host.Outcome.next (Eq.trans ?_ hdispatch |>.trans ?_)
    · exact congrArg (dispatchFrame · _ _ _) hframe
    · rw [dispatchFrame_frame _ _ _ (frameConsumed s noise tail len)]
      rfl

/-- The cells a `PUSH` writes and their bytes depend on the ring memory and the write cursor alone. -/
theorem rb_pushBytes_of_same_cursor (d : List Byte) (s t : State) (n m : Nat) (hrb : t.rb = s.rb)
    (hcursor : ∀ j, ringIndex t (t.count + j) = ringIndex s (s.count + j)) : (pushBytes d t n).1.rb = (pushBytes d s m).1.rb := by
  induction d generalizing s t n m with
  | nil => exact hrb
  | cons b d ih =>
    refine ih _ _ _ _ ?_ fun j => ?_
    · rw [pushByte_rb, pushByte_rb, hrb, ← Nat.add_zero t.count, hcursor 0, Nat.add_zero]
    · rw [pushByte_cursor, pushByte_cursor, hcursor]

/-- Taking pending bytes moves the oldest byte, not the write cursor. -/
theorem ringIndex_taken (s t : State) (k j : Nat) (hk : k ≤ s.count) (hcfg : t.cfg = s.cfg) (hhead : t.head = ringIndex s k)
    (hcount : t.count = s.count - k) : ringIndex t (t.count + j) = ringIndex s (s.count + j) := by
  have hsum : s.head + k + (s.count - k + j) = s.head + (s.count + j) := by omega
  rw [ringIndex, hhead, hcount, hcfg, ringIndex, Nat.mod_add_mod, hsum, ringIndex]

/-- Settles O54: the `NEXT` decides the same with the chunk behind the candidate, and the chunk goes to the same cells. -/
theorem pushCommutesWithDecidedNext : Obligations.PushCommutesWithDecidedNext := by
  intro s t d hi hfits hnext hsome
  have houtcome := nextOutcome_of_exec hi hnext
  obtain ⟨k, hk, ⟨hcfg, hrb, hhead, hcount⟩, _⟩ := houtcome.taken
  have hpush := exec_push_eq_extendRing d s hfits
  have hpending := pending_pushBytes d s 0 hi.memory.rb_wf hi.parser.count_le
  rw [Nat.sub_eq_zero_of_le hfits, List.drop_zero, pushBytes_of_le d s 0 hfits] at hpending
  have hextended := exec_next_extendRing (exec_keeps_inv _ s _ hi hpush) hpending houtcome hsome
  have hpush' := exec_push_eq_extendRing d t (by rw [hcount, hcfg]; omega)
  rw [rb_pushBytes_of_same_cursor d s t 0 0 hrb fun j => ringIndex_taken s t k j hk hcfg hhead hcount] at hpush'
  exact ⟨_, _, _, hpush, hextended, hpush', rfl, rfl⟩

/-! A frame in two parts. -/

/-- A chunk that fits is answered `OK` and is pending behind what was. -/
theorem exec_push_fits (d : List Byte) (s : State) (hi : Inv s) (h : s.count + d.length ≤ s.cfg.ringN) :
    ∃ t, exec (.push d) s = .next t ∧ t.resp = some .ok ∧ pending t = pending s ++ d ∧ Inv t ∧ t.cfg = s.cfg := by
  have hpush := exec_push_eq_extendRing d s h
  have hpending := pending_pushBytes d s 0 hi.memory.rb_wf hi.parser.count_le
  rw [Nat.sub_eq_zero_of_le h, List.drop_zero, pushBytes_of_le d s 0 h] at hpending
  exact ⟨_, hpush, rfl, hpending, exec_keeps_inv _ s _ hi hpush, rfl⟩

/-- An empty ring is answered `NONE(0)`. -/
theorem exec_next_of_empty (s : State) (hi : Inv s) (h : s.count = 0) : ∃ t, exec .next s = .next t ∧ t.resp = some (.noFrame 0) ∧
    pending t = [] ∧ Inv t ∧ t.cfg = s.cfg := by
  have hempty : pending s = [] := List.length_eq_zero_iff.1 ((length_pending s).trans h)
  have hnext := exec_next_of_noise hi (by simp [hempty])
  rw [h] at hnext
  exact ⟨_, hnext, rfl, (pending_afterNoise 0 0 .seek 0 s).trans (by rw [hempty]; rfl), exec_keeps_inv _ s _ hi hnext, rfl⟩

/-- A valid frame that starts with `SYNC` is a candidate of legal length whose checksum matches, with no byte behind it. -/
theorem exists_candidate_of_frameValid (cfg : Config) (f : List Byte) (hvalid : frameValid cfg f = true) (hsync : f.getD 0 0 = cfg.sync) :
    ∃ len tail, f = cfg.sync :: len :: tail ∧ tail.length = len.toNat ∧ LegalLength cfg len ∧ ChecksumMatches cfg len tail := by
  have hmin : Config.minLen = 2 := rfl
  have hmaxLen : cfg.maxLen = cfg.maxFrame - 2 := rfl
  obtain ⟨hsize, _⟩ := frameValid_bounds cfg f hvalid
  obtain ⟨sync, len, body, trailer, rfl⟩ := exists_frame_parts f (by omega)
  obtain ⟨hbody, hmax, hlen, hcrc⟩ := (frameValid_parts_iff cfg sync len body trailer).1 hvalid
  have hcovered : len.toNat - 1 = body.length := by omega
  refine ⟨len, body ++ [trailer], by rw [← hsync]; rfl, by simp [hlen], ⟨by omega, by omega⟩, by simp [hlen], ?_⟩
  rw [hcovered, List.take_left, hcrc]
  simp

/-- `NEXT` waits while only a part of a frame is pending: nothing, its sync byte, or an incomplete candidate (43_parser.md R117 to
R120). -/
theorem exec_next_of_part (s : State) (a b tail : List Byte) (len : Byte) (hi : Inv s) (hp : pending s = a) (hb : b ≠ [])
    (hparts : a ++ b = s.cfg.sync :: len :: tail) (htail : tail.length = len.toNat) (hl : LegalLength s.cfg len) :
    ∃ t, exec .next s = .next t ∧ t.resp = some (.noFrame 0) ∧ pending t = a ∧ Inv t ∧ t.cfg = s.cfg := by
  match a, hparts with
  | [], _ =>
    have hcount : s.count = 0 := by rw [← length_pending, hp]; rfl
    exact exec_next_of_empty s hi hcount
  | [x], hparts =>
    obtain ⟨rfl, _⟩ := List.cons.inj hparts
    have hnext := exec_next_of_lone_sync hi [] hp nofun
    exact ⟨_, hnext, rfl, (pending_afterNoise 0 0 .waitLen 0 s).trans hp, exec_keeps_inv _ s _ hi hnext, rfl⟩
  | x :: y :: rest, hparts =>
    obtain ⟨rfl, hrest⟩ := List.cons.inj hparts
    obtain ⟨rfl, rfl⟩ := List.cons.inj hrest
    have hmissing : 0 < b.length := List.length_pos_iff.2 hb
    have hshort : rest.length < y.toNat := by
      rw [← htail]
      show rest.length < (rest ++ b).length
      rw [List.length_append]
      omega
    have hc : HasCandidate s [] y rest := ⟨hp, nofun⟩
    have hnext := exec_next_of_incomplete hi hc hl hshort
    exact ⟨_, hnext, rfl, (pending_afterNoise 0 0 .waitPayload y s).trans hp, exec_keeps_inv _ s _ hi hnext, rfl⟩

/-- Settles O55: the first part waits, the second makes the candidate complete, and nothing is left behind the frame. -/
theorem splitFrameIsDeliveredOnce : Obligations.SplitFrameIsDeliveredOnce := by
  intro s a b hi hempty hb hvalid hsync
  obtain ⟨len, tail, hparts, htail, hl, hm⟩ := exists_candidate_of_frameValid s.cfg (a ++ b) hvalid hsync
  obtain ⟨_, hmax⟩ := frameValid_bounds s.cfg _ hvalid
  have hring := s.cfg.maxFrame_le_ringN
  have hlen : (a ++ b).length = a.length + b.length := List.length_append
  have hnone : pending s = [] := List.length_eq_zero_iff.1 ((length_pending s).trans hempty)
  obtain ⟨s1, hpush1, hresp1, hp1, hi1, hcfg1⟩ := exec_push_fits a s hi (by omega)
  rw [hnone, List.nil_append] at hp1
  rw [← hcfg1] at hparts hl hm
  obtain ⟨s2, hnext2, hresp2, hp2, hi2, hcfg2⟩ := exec_next_of_part s1 a b tail len hi1 hp1 hb hparts htail hl
  have hcount2 : s2.count = a.length := by rw [← length_pending, hp2]
  rw [← hcfg2] at hparts hl hm
  obtain ⟨s3, hpush3, hresp3, hp3, hi3, hcfg3⟩ := exec_push_fits b s2 hi2 (by rw [hcfg2, hcfg1]; omega)
  rw [← hcfg3] at hparts hl hm
  have hc : HasCandidate s3 [] len tail := ⟨by rw [hp3, hp2, hparts]; rfl, nofun⟩
  obtain ⟨s4, hnext4, hs4, hframe4, hp4⟩ := exec_next_dispatches hi3 hc hl hm
  have hcount4 : s4.count = 0 := by rw [← length_pending, hp4, List.length_drop]; omega
  obtain ⟨s5, hnext5, hresp5, _⟩ := exec_next_of_empty s4 (exec_keeps_inv _ s3 s4 hi3 hnext4) hcount4
  refine ⟨s1, s2, s3, s4, s5, hpush1, hresp1, hnext2, hresp2, hpush3, hresp3, hnext4, ?frame, hcount4, ?answer, hnext5, hresp5⟩
  case frame => rw [hframe4, hparts, candidateFrame, List.take_of_length_le htail.le]
  case answer =>
    intro r hr
    obtain ⟨r', hr', hcode⟩ := dispatchFrame_code (candidateFrame s3.cfg len tail) (tail.getD 0 0) len.toNat
      (frameConsumed s3 [] tail len)
    rw [hs4, hr'] at hr
    exact Option.some.inj hr ▸ hcode

/-! Loop-back. -/

/-- `NEXT` on nothing but a channels frame answers its channels and leaves the ring empty (43_parser.md R128). -/
theorem exec_next_of_channelsFrame (s : State) (chans : Vector Chan 16) (hi : Inv s)
    (hp : pending s = frameBytes s.cfg s.cfg.sync s.cfg.typeRC [] (packChannels chans)) :
    ∃ t, exec .next s = .next t ∧ t.resp = some (.frameChannels 0 s.cfg.typeRC 0 3 22) ∧ t.ch = chans ∧ t.count = 0 := by
  have hmin := s.cfg.maxFrame_ge
  have hmaxLen : s.cfg.maxLen = s.cfg.maxFrame - 2 := rfl
  have hfits : frameLength [] (packChannels chans) ≤ s.cfg.maxLen := by rw [frameLength_simple, length_packChannels]; omega
  obtain ⟨len, tail, hparts, htail, hl, hm⟩ := exists_candidate_of_frameValid s.cfg _
    (frameValid_frameBytes s.cfg s.cfg.sync s.cfg.typeRC [] (packChannels chans) hfits) rfl
  have hc : HasCandidate s [] len tail := ⟨hp.trans hparts, nofun⟩
  rw [frameBytes_simple, length_packChannels] at hparts
  obtain ⟨_, hrest⟩ := List.cons.inj hparts
  obtain ⟨rfl, rfl⟩ := List.cons.inj hrest
  have hpayload : (packChannels chans ++ [crc8 s.cfg (s.cfg.typeRC :: packChannels chans)]).take 22 = packChannels chans :=
    List.take_left' (length_packChannels chans)
  obtain ⟨t, hnext, _, hpending, _, hchannels, _⟩ := nextDispatchesKnownType s [] _ _ _ hi hc hl hm s.cfg.lookup_typeRC
  obtain ⟨hch, hresp⟩ := hchannels le_rfl rfl
  refine ⟨t, hnext, hresp, hch.trans ?_, by rw [← length_pending, hpending, List.length_drop, htail, Nat.sub_self]⟩
  exact (congrArg unpackChannels hpayload).trans (unpackChannels_packChannels chans)

/-- Settles O56: the frame in `FB` after `BUILD_CH` is the channels frame of `CH`, and the empty ring takes it whole. -/
theorem channelsFrameLoopsBack : Obligations.ChannelsFrameLoopsBack := by
  intro s hi hempty
  have hring := s.cfg.maxFrame_le_ringN
  have hmax := frameBytes_length_le s.cfg s.cfg.sync s.cfg.typeRC [] (packChannels s.ch) (packChannels_fit s)
  have hbuilt := currentFrame_build s.cfg.sync s.cfg.typeRC [] (packChannels s.ch) s (packChannels_fit s)
  have hbuild := build_frame s.cfg.sync s.cfg.typeRC [] (packChannels s.ch) s
  generalize ht : build s.cfg.sync s.cfg.typeRC [] (packChannels s.ch) s = t at hbuilt hbuild
  have hcfg : t.cfg = s.cfg := by rw [hbuild]
  have hcount : t.count = 0 := by rw [hbuild]; exact hempty
  have hnone : pending t = [] := List.length_eq_zero_iff.1 ((length_pending t).trans hcount)
  obtain ⟨u, hpush, _, hpu, hiu, hcfgu⟩ := exec_push_fits (currentFrame t) t (ht ▸ hi.build _ _ _ _) (by rw [hbuilt, hcfg]; omega)
  have hcfgus : u.cfg = s.cfg := hcfgu.trans hcfg
  rw [hnone, List.nil_append, hbuilt, ← hcfgus] at hpu
  obtain ⟨v, hnext, hresp, hch, hcountv⟩ := exec_next_of_channelsFrame u s.ch hiu hpu
  rw [hcfgus] at hresp
  obtain ⟨w, hnextw, hrespw, _⟩ := exec_next_of_empty v (exec_keeps_inv _ u v hiu hnext) hcountv
  exact ⟨t, u, v, w, congrArg _ ht, hpush, hnext, hresp, hch, hcountv, hnextw, hrespw⟩

end Sys2Proof.Machine
end
